-- ==== Sys2Proof/Word.lean ====
section
/-! DEFINITION. The word types of the block: 64-bit registers and samples, bytes of `BUFMEM`, and the
17-bit byte offsets of the host address space (00_scope R7, 20_memory R70). -/

namespace Sys2Proof

/-- A register, a command word or the bit pattern of a binary64 value (00_scope R7, R13). -/
abbrev Word := BitVec 64

/-- One byte of the buffer memory (20_memory R71). -/
abbrev Byte := BitVec 8

/-- A byte offset in the host address space, `ADDR_W = 17` (00_scope R7). -/
abbrev Offset := BitVec 17

end Sys2Proof
end

