-- ==== Sys2Proof/Config.lean ====
section
/-! DEFINITION. What an implementation fixes (the sizes of 00_scope R6), the constants of 00_scope R7,
and the free values: constants without a body, of which nothing can be proved. -/

namespace Sys2Proof

/-- The implementation parameters (00_scope R6). They are a field of the state that no step changes, so
that every statement about all states covers every implementation (log 4). -/
structure Params where
  agcLenMax : Nat
  nTapsMax : Nat
  idLenMax : Nat
  bufDepth : Nat
deriving DecidableEq, Repr

/-- The legal ranges of 00_scope R6. -/
abbrev Params.Legal (p : Params) : Prop :=
  (2 ≤ p.agcLenMax ∧ p.agcLenMax ≤ 65535) ∧ (1 ≤ p.nTapsMax ∧ p.nTapsMax ≤ 512) ∧
    (1 ≤ p.idLenMax ∧ p.idLenMax ≤ 65535) ∧ (1 ≤ p.bufDepth ∧ p.bufDepth ≤ 8192)

/-- The defaults of 00_scope R6. -/
def Params.spec : Params :=
  { agcLenMax := 1024, nTapsMax := 256, idLenMax := 1024, bufDepth := 4096 }

/-- The value of the constant register `ID` (10_state R21). -/
def Config.idValue : Word := 0x5144444300010000

/-- The binary64 bit pattern of 1.0. -/
def Config.one : Word := 0x3FF0000000000000

/-- The binary64 bit pattern of 3.0, the reset value of `NSIGMA` (10_state R35). -/
def Config.three : Word := 0x4008000000000000

/-- `2^64` as a binary64: `SAMPLE_ABS_MAX`, `TAP_ABS_MAX` and the upper bound of `NSIGMA` (00_scope R7). -/
def Config.twoPow64 : Word := 0x43F0000000000000

/-- `2^-64` as a binary64: the lower bound of `NSIGMA` (00_scope R7). -/
def Config.twoPowNeg64 : Word := 0x3BF0000000000000

/-- Which operation produced a NaN; an argument of the free NaN bits. -/
inductive Config.FloatOp where
  | add | sub | mul | div | sqrt | cast
deriving DecidableEq, Repr

/-- FREE VALUE (log 5). The `n`-th unspecified 64-bit value drawn: a read of a never-written `BUFMEM`
entry (20_memory R82) and a host read of computed state while busy (20_memory R78). -/
opaque Config.freeWord : Nat → Word

/-- FREE VALUE (log 7). Sign and payload of a NaN result: 40_numerics R121 leaves them open, and R135 says
that no reachable computation produces one. -/
opaque Config.nanBits : Config.FloatOp → Word → Word → Word

/-- FREE VALUE (log 9). A sum or inner product of no values: 40_numerics R127 and R130 ask for `n ≥ 1`. -/
opaque Config.emptySum : Word

/-- FREE VALUE (log 9). The post-gain cast under `PG_CAST = 3`, which cannot be active (44_post_gain R170). -/
opaque Config.reservedCast : Word → Word

end Sys2Proof
end

