-- ==== Sys2Proof/Machine/Numerics.lean ====
section
/-! DEFINITION. Binary64 arithmetic (40_numerics). A finite binary64 value is an integer multiple of
`2^-1074`, so every operation is: take the operands as integers in that unit, compute exactly, round
once (log 8). Powers of two are written as shifts. The rounded operations and the tests are irreducible, so
that no proof evaluates one on a variable by accident; `unfold` opens them. -/

namespace Sys2Proof.Machine

/-! ### Format (40_numerics R120, R125) -/

/-- The sign bit, `[63]`. -/
def signBit (a : Word) : Bool := a.msb

/-- The exponent field, `[62:52]`. -/
def expField (a : Word) : BitVec 11 := a.extractLsb' 52 11

/-- The fraction field, `[51:0]`. -/
def fracField (a : Word) : BitVec 52 := a.extractLsb' 0 52

/-- `isfinite` (40_numerics R125). -/
@[irreducible] def isfinite (a : Word) : Bool := expField a != 0x7FF

/-- An infinity of either sign. -/
def isInf (a : Word) : Bool := !isfinite a && fracField a == 0

/-- A NaN. -/
def isNaN (a : Word) : Bool := !isfinite a && fracField a != 0

/-- The bits below the sign, which order the magnitudes. -/
def magBits (a : Word) : Nat := (a.extractLsb' 0 63).toNat

/-- The magnitude of a finite value in units of `2^-1074`. -/
def magUnits (a : Word) : Nat :=
  if (expField a).toNat = 0 then (fracField a).toNat
  else ((1 <<< 52) + (fracField a).toNat) <<< ((expField a).toNat - 1)

/-- A finite value in units of `2^-1074`. -/
def units (a : Word) : Int := if signBit a then -(magUnits a : Int) else (magUnits a : Int)

/-- The pattern with a sign and the 63 bits below it. -/
def packSign (neg : Bool) (mag : Nat) : Word := BitVec.ofNat 64 (if neg then (1 <<< 63) + mag else mag)

/-- The 63 bits of an infinity. -/
def infMag : Nat := 0x7FF <<< 52

/-- The magnitude of 1 in units of `2^-1074`. -/
def oneUnits : Nat := 1 <<< 1074

/-- A NaN with free sign and payload (40_numerics R121 and R135, log 7). -/
def nanResult (op : Config.FloatOp) (a b : Word) : Word :=
  let free := Config.nanBits op a b
  packSign (signBit free) (infMag + if fracField free = 0 then 1 else (fracField free).toNat)

/-- `-a`: the sign bit flipped. -/
def fneg (a : Word) : Word := a ^^^ 0x8000000000000000

/-- `fabs` clears bit 63 (40_numerics R125). -/
def fabs (a : Word) : Word := a &&& 0x7FFFFFFFFFFFFFFF

/-! ### Rounding (40_numerics R121) -/

/-- The integer nearest to `n / d`, ties to the even one. -/
def divNearestEven (n d : Nat) : Nat :=
  let quo := n / d
  let rem := n % d
  if d < 2 * rem ∨ (d = 2 * rem ∧ quo % 2 = 1) then quo + 1 else quo

/-- The bits below the sign of the binary64 nearest to `n / d` units of `2^-1074`, ties to even,
infinity past the largest finite value. `ulp` is the exponent of the spacing at the quotient; a significand
that rounds up to `2^53` carries into the exponent field by itself. -/
@[irreducible] def roundUnits (n d : Nat) : Nat :=
  let ulp := Nat.log2 (n / d) - 52
  min infMag ((ulp <<< 52) + divNearestEven n (d <<< ulp))

/-- The nearest binary64 of an integer number of units. A zero sum of operands that are not both
negative zeros is `+0.0`, which the caller settles. -/
def roundInt (n : Int) : Word := packSign (decide (n < 0)) (roundUnits n.natAbs 1)

/-- Integer square root by bits from `2^(k-1)` down: the largest `r` below `acc + 2^k` with `r * r ≤ n`. -/
def isqrtBits (n : Nat) : Nat → Nat → Nat
  | 0, acc => acc
  | k + 1, acc =>
    let next := acc + (1 <<< k)
    isqrtBits n k (if next * next ≤ n then next else acc)

/-! ### Operations (40_numerics R121, R122, R123) -/

/-- `fadd`: correctly rounded sum. An exact zero is `-0.0` only for two negative zeros. -/
@[irreducible] def fadd (a b : Word) : Word :=
  if isNaN a || isNaN b then nanResult .add a b
  else if isInf a then (if isInf b && signBit a != signBit b then nanResult .add a b else a)
  else if isInf b then b
  else if units a + units b = 0 then packSign (signBit a && signBit b) 0
  else roundInt (units a + units b)

/-- `fsub`: correctly rounded difference, the sum with the negated operand. -/
def fsub (a b : Word) : Word :=
  if isNaN a || isNaN b then nanResult .sub a b else fadd a (fneg b)

/-- `fmul`: correctly rounded product; the sign is the exclusive or of the signs, of a zero too. -/
@[irreducible] def fmul (a b : Word) : Word :=
  let neg := signBit a != signBit b
  if isNaN a || isNaN b then nanResult .mul a b
  else if isInf a then (if !isInf b && magUnits b = 0 then nanResult .mul a b else packSign neg infMag)
  else if isInf b then (if magUnits a = 0 then nanResult .mul a b else packSign neg infMag)
  else packSign neg (roundUnits (magUnits a * magUnits b) oneUnits)

/-- `fdiv`: correctly rounded quotient; a nonzero finite value divided by a zero is an infinity. -/
@[irreducible] def fdiv (a b : Word) : Word :=
  let neg := signBit a != signBit b
  if isNaN a || isNaN b then nanResult .div a b
  else if isInf a then (if isInf b then nanResult .div a b else packSign neg infMag)
  else if isInf b then packSign neg 0
  else if magUnits b = 0 then (if magUnits a = 0 then nanResult .div a b else packSign neg infMag)
  else packSign neg (roundUnits (magUnits a * oneUnits) (magUnits b))

/-- The significand of a finite value, as an integer below `2^53`. -/
def significand (a : Word) : Nat :=
  if (expField a).toNat = 0 then (fracField a).toNat else (1 <<< 52) + (fracField a).toNat

/-- The bits of the square root of a finite nonnegative value. The significand is scaled so that the
integer root has at least four bits more than a binary64 holds; whether the root is exact goes in as
one more bit below it, so that the one rounding sees on which side of a tie the true root lies. -/
@[irreducible] def sqrtMag (a : Word) : Nat :=
  let e := max 1 (expField a).toNat
  let n := significand a <<< (if e % 2 = 1 then 110 else 111)
  let r := isqrtBits n 83 0
  roundUnits ((2 * r + if r * r = n then 0 else 1) <<< ((e + 961) / 2)) 1

/-- `fsqrt`: correctly rounded square root; `fsqrt(-0.0) = -0.0`. -/
@[irreducible] def fsqrt (a : Word) : Word :=
  if isNaN a then nanResult .sqrt a a
  else if !isInf a && magUnits a = 0 then a
  else if signBit a then nanResult .sqrt a a
  else if isInf a then a
  else packSign false (sqrtMag a)

/-- `i2f`: the binary64 of an integer, exact for `|n| < 2^53` (40_numerics R126). Zero is told apart first,
as `+0.0`, so that the kernel never multiplies an unknown integer by `2^1074`. -/
@[irreducible] def i2f (n : Int) : Word := if n = 0 then 0 else roundInt (n * oneUnits)

/-! ### Comparisons (40_numerics R125) -/

/-- The position of a value that is no NaN on the number line; both zeros at 0. -/
def orderKey (a : Word) : Int := if signBit a then -(magBits a : Int) else (magBits a : Int)

/-- `flt(a, b)`: `a < b`, false with a NaN. -/
@[irreducible] def flt (a b : Word) : Bool := !isNaN a && !isNaN b && decide (orderKey a < orderKey b)

/-- `fgt(a, b)`: `a > b`, false with a NaN. -/
def fgt (a b : Word) : Bool := flt b a

/-- `feq(a, b)`: equal values, `+0.0 = -0.0`, false with a NaN. -/
@[irreducible] def feq (a b : Word) : Bool := !isNaN a && !isNaN b && decide (orderKey a = orderKey b)

/-- `a ≤ b` on values: `a < b` or `a = b`. -/
def fle (a b : Word) : Bool := flt a b || feq a b

/-! ### Composite operations (40_numerics R127 to R133) -/

/-- `sumL`: a left fold in index order (40_numerics R127); a sum of no values is not defined (log 9). -/
def sumL : List Word → Word
  | [] => Config.emptySum
  | v :: vs => vs.foldl fadd v

/-- `mean` (40_numerics R128). -/
def mean (v : List Word) : Word := fdiv (sumL v) (i2f v.length)

/-- `pstd`, the population standard deviation (40_numerics R129). -/
def pstd (v : List Word) : Word :=
  let m := mean v
  let q := v.map fun x => fmul (fsub x m) (fsub x m)
  fsqrt (fdiv (sumL q) (i2f v.length))

/-- `dot`: the FIR inner product, a left fold from index 0, each product rounded before it is added
(40_numerics R130, R122). -/
def dot (h b : List Word) : Word := sumL (List.zipWith fmul h b)

/-- `clampFS` with the full scale `fs` (40_numerics R131). -/
def clampFS (fs v : Word) : Word := if flt v (fneg fs) then fneg fs else if fgt v fs then fs else v

/-- `sgn` (40_numerics R132). -/
def sgn (v : Word) : Int := if fgt v 0 then 1 else if flt v 0 then -1 else 0

/-- `ftrunc`: the integer nearest in the direction of zero (40_numerics R133). -/
def ftrunc (v : Word) : Int :=
  let n := magUnits v / oneUnits
  if signBit v then -(n : Int) else (n : Int)

/-- `frne`: the nearest integer, ties to even (40_numerics R133). -/
def frne (v : Word) : Int :=
  let n := divNearestEven (magUnits v) oneUnits
  if signBit v then -(n : Int) else (n : Int)

/-- A cast to an integer and back with `i2f` (40_numerics R133), whose domain is the finite values;
outside it the result is a free NaN (log 9). -/
def castInt (toInt : Word → Int) (v : Word) : Word :=
  if isfinite v then i2f (toInt v) else nanResult .cast v v

/-- A sample or tap is admissible: finite and at most `2^64` in magnitude (40_numerics R134). -/
def admissible (x : Word) : Bool := isfinite x && fle (fabs x) Config.twoPow64

/-- `FS = i2f(2^(W-1) - 1)` (10_state R43). -/
def fullScale (w : BitVec 6) : Word := i2f ((2 ^ (w.toNat - 1) - 1 : Nat) : Int)

end Sys2Proof.Machine
end

