-- ==== Sys2Proof/Syntax.lean ====
section
/-! DEFINITION. The 17 commands of the block (30_encoding R103), one constructor for each row of the
opcode table, with their operands as R102 assembles them. -/

namespace Sys2Proof

/-- The quadrature arm a per-arm command names (00_scope R14). -/
inductive Arm where
  | i | q
deriving DecidableEq, Repr

/-- A command. `count`, `src` and `dst` are the unsigned integers of 30_encoding R102; `WellFormed`
bounds them by the width of their fields. -/
inductive Instr where
  | nop
  | clearAll
  | step
  | cfgCommit
  | agcUpdate
  | agcClear
  | ddcUpdate
  | ddcClear
  | firUpdate (arm : Arm)
  | firClear (arm : Arm)
  | firApply (arm : Arm) (count src dst : Nat)
  | pgEval (arm : Arm)
  | idUpdate (arm : Arm)
  | idClear (arm : Arm)
  | idApply (count src dst : Nat)
  | bsyncUpdate (v : Bool)
  | bsyncClear
deriving DecidableEq, Repr

end Sys2Proof
end

