-- ==== Sys2Proof/WellFormed.lean ====
section
/-! DEFINITION. Which commands have an encoding: the bulk operands fit their 16-bit fields
(30_encoding R100, R102). Every other operand is in range by its type. -/

namespace Sys2Proof

/-- An operand fits one of the 16-bit fields COUNT, SRC, DST (30_encoding R100). -/
def fitsField (n : Nat) : Bool := decide (n < 65536)

/-- The bulk commands' operands fit their fields; the other commands have nothing to check. -/
def wellFormed : Instr → Bool
  | .firApply _ count src dst => fitsField count && fitsField src && fitsField dst
  | .idApply count src dst => fitsField count && fitsField src && fitsField dst
  | .nop => true
  | .clearAll => true
  | .step => true
  | .cfgCommit => true
  | .agcUpdate => true
  | .agcClear => true
  | .ddcUpdate => true
  | .ddcClear => true
  | .firUpdate _ => true
  | .firClear _ => true
  | .pgEval _ => true
  | .idUpdate _ => true
  | .idClear _ => true
  | .bsyncUpdate _ => true
  | .bsyncClear => true

/-- The command has an encoding. -/
abbrev WellFormed (i : Instr) : Prop := wellFormed i = true

end Sys2Proof
end

