-- ==== Sys2Proof/Decode.lean ====
section
/-! DEFINITION. The command word (30_encoding): its fields (R100), the decoder (R103, R104) and the
encoder, both over the same fields; and the opcode table of R103 as data. -/

namespace Sys2Proof

/-- The fields of a `CMD64` word (30_encoding R100). -/
structure Fields where
  op : BitVec 8
  arm : BitVec 1
  v : BitVec 1
  rsv : BitVec 6
  count : BitVec 16
  src : BitVec 16
  dst : BitVec 16
deriving DecidableEq, Repr

/-- Read the fields of a word at the bit positions of 30_encoding R100. -/
def unpackFields (w : Word) : Fields :=
  { op := w.extractLsb' 0 8
    arm := w.extractLsb' 8 1
    v := w.extractLsb' 9 1
    rsv := w.extractLsb' 10 6
    count := w.extractLsb' 16 16
    src := w.extractLsb' 32 16
    dst := w.extractLsb' 48 16 }

/-- Lay the fields out at the bit positions of 30_encoding R100, `DST` most significant. -/
def packFields (f : Fields) : Word :=
  f.dst ++ (f.src ++ (f.count ++ (f.rsv ++ (f.v ++ (f.arm ++ f.op)))))

/-- Why a word is no command (30_encoding R104). Both reasons raise `Illegal`. -/
inductive DecodeError where
  /-- `OP` is not one of the 17 listed values. -/
  | unlistedOpcode (op : BitVec 8)
  /-- `RSV`, or a field that the command does not use, is not zero. -/
  | reservedNotZero (f : Fields)
deriving DecidableEq, Repr

/-- `ARM = 0` selects I, `ARM = 1` selects Q (30_encoding R102). -/
def armOfBit (b : BitVec 1) : Arm := if b = 0 then .i else .q

/-- The `ARM` bit of an arm (30_encoding R102). -/
def bitOfArm : Arm → BitVec 1
  | .i => 0
  | .q => 1

/-- Whether every field the command does not use is zero (30_encoding R101). The arguments say which
of `ARM`, `V` and the bulk fields it uses; `RSV` is never used. -/
def unusedAreZero (usesArm usesV usesBulk : Bool) (f : Fields) : Bool :=
  f.rsv == 0 && (usesArm || f.arm == 0) && (usesV || f.v == 0) &&
    (usesBulk || (f.count == 0 && f.src == 0 && f.dst == 0))

/-- Accept the command if its unused fields are zero, reject the word otherwise (30_encoding R104). -/
def checkedCommand (usesArm usesV usesBulk : Bool) (f : Fields) (i : Instr) : Except DecodeError Instr :=
  if unusedAreZero usesArm usesV usesBulk f then .ok i else .error (.reservedNotZero f)

/-- The opcode map of 30_encoding R103 over a word's fields. -/
def decodeFields (f : Fields) : Except DecodeError Instr :=
  match f.op.toNat with
  | 0x00 => checkedCommand false false false f .nop
  | 0x01 => checkedCommand false false false f .clearAll
  | 0x02 => checkedCommand false false false f .step
  | 0x03 => checkedCommand false false false f .cfgCommit
  | 0x10 => checkedCommand false false false f .agcUpdate
  | 0x11 => checkedCommand false false false f .agcClear
  | 0x20 => checkedCommand false false false f .ddcUpdate
  | 0x21 => checkedCommand false false false f .ddcClear
  | 0x30 => checkedCommand true false false f (.firUpdate (armOfBit f.arm))
  | 0x31 => checkedCommand true false false f (.firClear (armOfBit f.arm))
  | 0x32 => checkedCommand true false true f
      (.firApply (armOfBit f.arm) f.count.toNat f.src.toNat f.dst.toNat)
  | 0x40 => checkedCommand true false false f (.pgEval (armOfBit f.arm))
  | 0x50 => checkedCommand true false false f (.idUpdate (armOfBit f.arm))
  | 0x51 => checkedCommand true false false f (.idClear (armOfBit f.arm))
  | 0x52 => checkedCommand false false true f (.idApply f.count.toNat f.src.toNat f.dst.toNat)
  | 0x60 => checkedCommand false true false f (.bsyncUpdate (f.v == 1))
  | 0x61 => checkedCommand false false false f .bsyncClear
  | _ => .error (.unlistedOpcode f.op)

/-- The decoder: total on every 64-bit word (30_encoding R103, R104). -/
def decode (w : Word) : Except DecodeError Instr := decodeFields (unpackFields w)

/-- A word with an opcode and no operand. -/
def plainFields (op : BitVec 8) : Fields :=
  { op := op, arm := 0, v := 0, rsv := 0, count := 0, src := 0, dst := 0 }

/-- The fields of a command: its opcode, its operands, zero elsewhere (30_encoding R103). -/
def encodeFields : Instr → Fields
  | .nop => plainFields 0x00
  | .clearAll => plainFields 0x01
  | .step => plainFields 0x02
  | .cfgCommit => plainFields 0x03
  | .agcUpdate => plainFields 0x10
  | .agcClear => plainFields 0x11
  | .ddcUpdate => plainFields 0x20
  | .ddcClear => plainFields 0x21
  | .firUpdate arm => { plainFields 0x30 with arm := bitOfArm arm }
  | .firClear arm => { plainFields 0x31 with arm := bitOfArm arm }
  | .firApply arm count src dst =>
      { plainFields 0x32 with
        arm := bitOfArm arm
        count := BitVec.ofNat 16 count
        src := BitVec.ofNat 16 src
        dst := BitVec.ofNat 16 dst }
  | .pgEval arm => { plainFields 0x40 with arm := bitOfArm arm }
  | .idUpdate arm => { plainFields 0x50 with arm := bitOfArm arm }
  | .idClear arm => { plainFields 0x51 with arm := bitOfArm arm }
  | .idApply count src dst =>
      { plainFields 0x52 with
        count := BitVec.ofNat 16 count
        src := BitVec.ofNat 16 src
        dst := BitVec.ofNat 16 dst }
  | .bsyncUpdate v => { plainFields 0x60 with v := if v then 1 else 0 }
  | .bsyncClear => plainFields 0x61

/-- The encoder: the command word of a well-formed command (30_encoding R103, R106). -/
def encode (i : Instr) : Word := packFields (encodeFields i)

/-- A row of the opcode table of 30_encoding R103. -/
structure OpcodeRow where
  mnemonic : String
  bits : Word
  mask : Word
deriving DecidableEq, Repr

/-- The opcode table of 30_encoding R103, in its order. -/
def opcodeRows : List OpcodeRow :=
  [ ⟨"NOP", 0x0000000000000000, 0xFFFFFFFFFFFFFFFF⟩,
    ⟨"CLEAR_ALL", 0x0000000000000001, 0xFFFFFFFFFFFFFFFF⟩,
    ⟨"STEP", 0x0000000000000002, 0xFFFFFFFFFFFFFFFF⟩,
    ⟨"CFG_COMMIT", 0x0000000000000003, 0xFFFFFFFFFFFFFFFF⟩,
    ⟨"AGC_UPDATE", 0x0000000000000010, 0xFFFFFFFFFFFFFFFF⟩,
    ⟨"AGC_CLEAR", 0x0000000000000011, 0xFFFFFFFFFFFFFFFF⟩,
    ⟨"DDC_UPDATE", 0x0000000000000020, 0xFFFFFFFFFFFFFFFF⟩,
    ⟨"DDC_CLEAR", 0x0000000000000021, 0xFFFFFFFFFFFFFFFF⟩,
    ⟨"FIR_UPDATE", 0x0000000000000030, 0xFFFFFFFFFFFFFEFF⟩,
    ⟨"FIR_CLEAR", 0x0000000000000031, 0xFFFFFFFFFFFFFEFF⟩,
    ⟨"FIR_APPLY", 0x0000000000000032, 0x000000000000FEFF⟩,
    ⟨"PG_EVAL", 0x0000000000000040, 0xFFFFFFFFFFFFFEFF⟩,
    ⟨"ID_UPDATE", 0x0000000000000050, 0xFFFFFFFFFFFFFEFF⟩,
    ⟨"ID_CLEAR", 0x0000000000000051, 0xFFFFFFFFFFFFFEFF⟩,
    ⟨"ID_APPLY", 0x0000000000000052, 0x000000000000FFFF⟩,
    ⟨"BSYNC_UPDATE", 0x0000000000000060, 0xFFFFFFFFFFFFFDFF⟩,
    ⟨"BSYNC_CLEAR", 0x0000000000000061, 0xFFFFFFFFFFFFFFFF⟩ ]

/-- The mnemonic of a command (30_encoding R103). -/
def mnemonicOf : Instr → String
  | .nop => "NOP"
  | .clearAll => "CLEAR_ALL"
  | .step => "STEP"
  | .cfgCommit => "CFG_COMMIT"
  | .agcUpdate => "AGC_UPDATE"
  | .agcClear => "AGC_CLEAR"
  | .ddcUpdate => "DDC_UPDATE"
  | .ddcClear => "DDC_CLEAR"
  | .firUpdate _ => "FIR_UPDATE"
  | .firClear _ => "FIR_CLEAR"
  | .firApply _ _ _ _ => "FIR_APPLY"
  | .pgEval _ => "PG_EVAL"
  | .idUpdate _ => "ID_UPDATE"
  | .idClear _ => "ID_CLEAR"
  | .idApply _ _ _ => "ID_APPLY"
  | .bsyncUpdate _ => "BSYNC_UPDATE"
  | .bsyncClear => "BSYNC_CLEAR"

/-- A word is a row's command when its masked bits are the row's (30_encoding R103). -/
abbrev OpcodeRow.Matches (r : OpcodeRow) (w : Word) : Prop := w &&& r.mask = r.bits

/-- The instruction the decoder reads from the low `nbits` bits of `w`, the bits above being zero. A
command is one 64-bit value of one `CMD` write (20_memory R88), so bit 0 is bit 0 of the word. -/
def decodeTableWord (nbits w : Nat) : Option Instr :=
  match decode (BitVec.ofNat 64 (w % 2 ^ nbits)) with
  | .ok i => some i
  | .error _ => none

end Sys2Proof
end

