-- ==== Sys2Proof/Machine/State.lean ====
section
/-! DEFINITION. The state of the block (10_state), the host's coming moves, and the state after reset
(10_state R62, 70_reset_and_hazards R250). Everything is plain data. -/

namespace Sys2Proof.Machine

/-- One value for each quadrature arm (00_scope R14). -/
structure PerArm (α : Type) where
  i : α
  q : α
deriving DecidableEq, Repr

/-- The fields of the nine configuration registers, staged or active (10_state R31 to R39, R41). -/
structure CfgRegs where
  w : BitVec 6
  g : BitVec 32
  pgEn : Bool
  pgCast : BitVec 2
  k : BitVec 16
  nsigma : Word
  n : BitVec 16
  l : BitVec 16
  d : BitVec 32
  s : BitVec 32
deriving DecidableEq, Repr

/-- One copy of the configuration with its taps, `NTAPS_MAX` of them (10_state R30, R42). -/
structure CfgCopy where
  regs : CfgRegs
  taps : List Word
deriving DecidableEq, Repr

/-- The AGC's Gain State (10_state R53); `buf` has `AGC_LEN_MAX` entries. -/
structure Agc where
  buf : List Word
  pos : Nat
  gain : Word
deriving DecidableEq, Repr

/-- One arm's Decimator State (10_state R56); `buf` has `ID_LEN_MAX` entries. -/
structure IntDump where
  buf : List Word
  cnt : Nat
deriving DecidableEq, Repr

/-- The synchronizer's two phases (10_state R57). -/
inductive BsPhase where
  | awaitingSettle | sampling
deriving DecidableEq, Repr

/-- The bit synchronizer's state (10_state R57). -/
structure BitSync where
  phase : BsPhase
  dcnt : BitVec 32
  scnt : Nat
deriving DecidableEq, Repr

/-- The fields of `FLAGS` (10_state R47). -/
structure Flags where
  bitI : BitVec 2
  bitQ : BitVec 2
  idValid : PerArm Bool
  bitValid : Bool
deriving DecidableEq, Repr

/-- The bytes of `BUFMEM` at their offsets in the host address space (20_memory R70, R71, R80). A byte
that is not listed has no value; `written` of 20_memory R82 is "all eight bytes of the entry are
listed" (log 6). -/
abbrev Memory := List Host.Cell

/-- The canonical form: addresses strictly rising. An unlisted byte has no value, so no listed byte can
equal what an unlisted one reads as. -/
abbrev Memory.wf (m : Memory) : Prop := (m.map Prod.fst).Pairwise (· < ·)

/-- Everything a command can write at its completion (70_reset_and_hazards R261): the active
configuration, the internal state, the result registers, the counters and `BUFMEM`. -/
structure Block where
  active : CfgCopy
  cfgFault : BitVec 9
  agc : Agc
  ddcPhase : BitVec 2
  firBuf : PerArm (List Word)
  intDump : PerArm IntDump
  bs : BitSync
  agcOut : Word
  mix : PerArm Word
  firOut : PerArm Word
  pgOut : PerArm Word
  idOut : PerArm Word
  flags : Flags
  sampleCount : Word
  validCount : Word
  bitCount : Word
  mem : Memory
deriving DecidableEq, Repr

/-- The effects a command's pseudocode computes (70_reset_and_hazards R260): the block as it will stand
after completion, and which events besides `CMD_DONE` the completion sets (60_exceptions R231). -/
structure Effects where
  block : Block
  agcDegen : Bool
  bitReady : Bool
deriving DecidableEq, Repr

/-- An accepted command: its word and the effects computed for it (10_state R58, 70_reset_and_hazards R260). -/
structure Pending where
  word : Word
  effects : Effects
deriving DecidableEq, Repr

/-- The access sizes a bus presents (60_exceptions R227). -/
inductive AccessSize where
  | b1 | b2 | b4 | b8
deriving DecidableEq, Repr

/-- The fields of `ERR_ACCESS` (10_state R29). -/
structure AccessInfo where
  write : Bool
  size : AccessSize
  offset : Offset
deriving DecidableEq, Repr

/-- A bus access reads, or writes a value. -/
inductive BusOp where
  | read
  | write (v : Word)
deriving DecidableEq, Repr

/-- One host access as the bus presents it (60_exceptions R227). -/
structure Access where
  op : BusOp
  size : AccessSize
  offset : Offset
deriving DecidableEq, Repr

/-- One entry of the interleaving of host accesses, completion steps and resets
(00_scope R16, 70_reset_and_hazards R254). The list of them is the model's own (log 1). -/
inductive Move where
  /-- The host presents an access. -/
  | host (a : Access)
  /-- The block takes its completion step if a command is pending (70_reset_and_hazards R261). -/
  | block
  /-- The reset event (70_reset_and_hazards R250). -/
  | reset
deriving DecidableEq, Repr

/-- The ten causes of 60_exceptions R220: codes 1 to 7 are errors, 8 to 10 events. -/
inductive Cause where
  | illegal | cfg | operand | len | range | busy | addr | agcDegen | cmdDone | bitReady
deriving DecidableEq, Repr

/-- The machine. `sticky` holds `STATUS[10:1]` and `irqEn` holds `IRQ_EN[10:1]`, bit `b - 1` of the field
being bit `b` of the register (10_state R25, R26); `STATUS.BUSY` is "`pending` is some". `moves`,
`readData` and `draws` are the model's own (log 1, log 10, log 5). -/
structure State where
  params : Params
  block : Block
  staged : CfgCopy
  din0 : Word
  din1 : Word
  sticky : BitVec 10
  irqEn : BitVec 10
  errCmd : Word
  errAccess : AccessInfo
  pending : Option Pending
  moves : List Move
  readData : Word
  draws : Nat
deriving DecidableEq, Repr

/-- Why a step stops the machine: never. The spec has no traps and every rejection is a next state
(60_exceptions R228, log 17), so there is no constructor; nothing raises a fault, which is safe. -/
inductive Fault
deriving DecidableEq, Repr

/-- Why an instruction has no meaning. -/
inductive Refusal where
  /-- Raised by `exec` for an instruction the model has no meaning for; every instruction of the table
  has one, so nothing raises it. Safe: the run stops. -/
  | notModelled (mnemonic : String)
deriving DecidableEq, Repr

/-- The reset values of the configuration registers (10_state R31 to R39, R41). -/
def CfgRegs.reset (p : Params) : CfgRegs :=
  { w := 16, g := 1, pgEn := true, pgCast := 1
    k := BitVec.ofNat 16 (min 64 p.agcLenMax)
    nsigma := Config.three, n := 1, l := 1, d := 0, s := 1 }

/-- The reset configuration with its identity filter (10_state R42, 70_reset_and_hazards R252). -/
def CfgCopy.reset (p : Params) : CfgCopy :=
  { regs := CfgRegs.reset p, taps := (List.replicate p.nTapsMax 0).set 0 Config.one }

/-- The block right after reset (10_state R53 to R59, R62). -/
def Block.reset (p : Params) : Block :=
  { active := CfgCopy.reset p
    cfgFault := 0
    agc := { buf := List.replicate p.agcLenMax 0, pos := 0, gain := Config.one }
    ddcPhase := 0
    firBuf := { i := List.replicate p.nTapsMax 0, q := List.replicate p.nTapsMax 0 }
    intDump :=
      { i := { buf := List.replicate p.idLenMax 0, cnt := 0 }
        q := { buf := List.replicate p.idLenMax 0, cnt := 0 } }
    bs := { phase := .sampling, dcnt := 0, scnt := 0 }
    agcOut := 0
    mix := { i := 0, q := 0 }
    firOut := { i := 0, q := 0 }
    pgOut := { i := 0, q := 0 }
    idOut := { i := 0, q := 0 }
    flags := { bitI := 0, bitQ := 0, idValid := { i := false, q := false }, bitValid := false }
    sampleCount := 0
    validCount := 0
    bitCount := 0
    mem := [] }

/-- The complete reset state of an implementation with the sizes `p` (10_state R62). -/
def State.resetWith (p : Params) : State :=
  { params := p
    block := Block.reset p
    staged := CfgCopy.reset p
    din0 := 0
    din1 := 0
    sticky := 0
    irqEn := 0
    errCmd := 0
    errAccess := { write := false, size := .b1, offset := 0 }
    pending := none
    moves := []
    readData := 0
    draws := 0 }

/-- The machine right after reset, with the default sizes of 00_scope R6 (log 4) and no move planned (log 1). -/
def State.reset : State := State.resetWith Params.spec

/-- `STATUS.BUSY`: a command has been accepted and not completed (10_state R25, R58). -/
abbrev State.busy (s : State) : Bool := s.pending.isSome

end Sys2Proof.Machine
end

