-- ==== Sys2Proof/Machine/Flags.lean ====
section
/-! DEFINITION. The words of the status-like registers and the bits commands set in them: `STATUS` and
its causes, `IRQ`, `FLAGS`, `ERR_ACCESS` (10_state R25, R26, R29, R47; 60_exceptions R220, R232). -/

namespace Sys2Proof.Machine

/-- A cause's code: the index of its bit in `STATUS` (60_exceptions R220). -/
def Cause.code : Cause → Nat
  | .illegal => 1
  | .cfg => 2
  | .operand => 3
  | .len => 4
  | .range => 5
  | .busy => 6
  | .addr => 7
  | .agcDegen => 8
  | .cmdDone => 9
  | .bitReady => 10

/-- A cause's bit within `STATUS[10:1]`. -/
def Cause.mask (c : Cause) : BitVec 10 := 1#10 <<< (c.code - 1)

/-- Set a cause's sticky bit (10_state R25). -/
def setSticky (c : Cause) (sticky : BitVec 10) : BitVec 10 := sticky ||| c.mask

/-- Set a cause's sticky bit if its event occurred (60_exceptions R231). -/
def setStickyIf (occurred : Bool) (c : Cause) (sticky : BitVec 10) : BitVec 10 :=
  if occurred then setSticky c sticky else sticky

/-- Whether a cause's bit is set. -/
def hasSticky (c : Cause) (sticky : BitVec 10) : Bool := sticky.getLsbD (c.code - 1)

/-- A host write of `v` to `STATUS`: write 1 to clear, bits 10 to 1 (10_state R25, 60_exceptions R233). -/
def ackSticky (v : Word) (sticky : BitVec 10) : BitVec 10 := sticky &&& ~~~(v.extractLsb' 1 10)

/-- A field at bits `[10:1]`, zero elsewhere. -/
def fieldTenToOne (f : BitVec 10) : Word := (0 : BitVec 53) ++ (f ++ (0 : BitVec 1))

/-- The word a read of `STATUS` returns (10_state R25). -/
def statusWord (busy : Bool) (sticky : BitVec 10) : Word :=
  (0 : BitVec 53) ++ (sticky ++ BitVec.ofBool busy)

/-- The interrupt line: the OR over bits 1 to 10 of `STATUS` and `IRQ_EN` (60_exceptions R232). -/
def State.irq (s : State) : Bool := s.sticky &&& s.irqEn != 0

/-- The word a read of `FLAGS` returns (10_state R47). -/
def Flags.word (f : Flags) : Word :=
  (0 : BitVec 57) ++ (BitVec.ofBool f.bitValid ++ (BitVec.ofBool f.idValid.q ++
    (BitVec.ofBool f.idValid.i ++ (f.bitQ ++ f.bitI))))

/-- The code of a decision in `FLAGS`: the two's complement of its sign (40_numerics R132, 46_bitsync R192). -/
def decisionCode (n : Int) : BitVec 2 := if n = 1 then 0b01 else if n = -1 then 0b11 else 0b00

/-- `log2` of an access size in bytes (10_state R29). -/
def AccessSize.code : AccessSize → BitVec 2
  | .b1 => 0
  | .b2 => 1
  | .b4 => 2
  | .b8 => 3

/-- The word a read of `ERR_ACCESS` returns (10_state R29). -/
def AccessInfo.word (a : AccessInfo) : Word :=
  BitVec.ofBool a.write ++ ((0 : BitVec 44) ++ (a.size.code ++ a.offset))

/-- What `ERR_ACCESS` records of an access (10_state R29). -/
def Access.info (a : Access) : AccessInfo :=
  { write := match a.op with
      | .read => false
      | .write _ => true
    size := a.size
    offset := a.offset }

end Sys2Proof.Machine
end

