-- ==== Sys2Proof/Machine/Ops.lean ====
section
/-! DEFINITION. The shared operations: per-arm access, `BUFMEM`, rejecting a command or an access
(the spec's `raise`, 00_scope R12), accepting and completing a command, and reset. -/

namespace Sys2Proof.Machine

/-! ### Per-arm values (00_scope R14) -/

/-- The value of one arm. -/
def PerArm.get {α : Type} (p : PerArm α) : Arm → α
  | .i => p.i
  | .q => p.q

/-- Replace the value of one arm. -/
def PerArm.set {α : Type} (p : PerArm α) (arm : Arm) (a : α) : PerArm α :=
  match arm with
  | .i => { p with i := a }
  | .q => { p with q := a }

/-- The same value in both arms. -/
def PerArm.both {α : Type} (a : α) : PerArm α := { i := a, q := a }

/-! ### Bytes and entries of `BUFMEM` (20_memory R71, R80 to R82) -/

/-- The byte at an offset; none if nothing has written it since reset. -/
def byteAt : Memory → Nat → Option Byte
  | [], _ => none
  | (k, b) :: m, a => if k = a then some b else byteAt m a

/-- Store one byte, keeping the addresses strictly rising. -/
def setByte : Memory → Nat → Byte → Memory
  | [], a, b => [(a, b)]
  | (k, c) :: m, a, b =>
    if a < k then (a, b) :: (k, c) :: m
    else if a = k then (a, b) :: m
    else (k, c) :: setByte m a b

/-- Byte `j` of a 64-bit value, bits `[8j+7:8j]` (20_memory R71). -/
def wordByte (v : Word) (j : Nat) : Byte := v.extractLsb' (8 * j) 8

/-- The 64-bit value of eight bytes, byte 0 least significant (20_memory R71). -/
def wordOfBytes (b0 b1 b2 b3 b4 b5 b6 b7 : Byte) : Word :=
  b7 ++ (b6 ++ (b5 ++ (b4 ++ (b3 ++ (b2 ++ (b1 ++ b0))))))

/-- The 64-bit value at an offset, little-endian; none if one of its bytes has no value. -/
def wordAt (m : Memory) (a : Nat) : Option Word :=
  match byteAt m a, byteAt m (a + 1), byteAt m (a + 2), byteAt m (a + 3),
    byteAt m (a + 4), byteAt m (a + 5), byteAt m (a + 6), byteAt m (a + 7) with
  | some b0, some b1, some b2, some b3, some b4, some b5, some b6, some b7 =>
    some (wordOfBytes b0 b1 b2 b3 b4 b5 b6 b7)
  | _, _, _, _, _, _, _, _ => none

/-- Store the low `n` bytes of a value at an offset, little-endian. -/
def setBytes (m : Memory) (a : Nat) (v : Word) : Nat → Memory
  | 0 => m
  | n + 1 => setByte (setBytes m a v n) (a + n) (wordByte v n)

/-- Store a 64-bit value at an offset, little-endian (20_memory R71). -/
def setWord (m : Memory) (a : Nat) (v : Word) : Memory := setBytes m a v 8

/-- The offset of `BUFMEM[i]` in the host address space (10_state R23). -/
def bufOffset (i : Nat) : Nat := 0x10000 + 8 * i

/-- `written[i]` (20_memory R82). -/
def written (m : Memory) (i : Nat) : Bool := (wordAt m (bufOffset i)).isSome

/-- `BufRead(i)`: the entry, or the free value number `draw` where nothing has written it
(20_memory R81, R82). -/
def bufRead (m : Memory) (i draw : Nat) : Word := (wordAt m (bufOffset i)).getD (Config.freeWord draw)

/-- `BufWrite(i, v)` (20_memory R81). -/
def bufWrite (m : Memory) (i : Nat) (v : Word) : Memory := setWord m (bufOffset i) v

/-- `BufWrite(dst + j, out[j])` for every output in order (20_memory R81). -/
def bufWriteAll : Memory → Nat → List Word → Memory
  | m, _, [] => m
  | m, dst, v :: vs => bufWriteAll (bufWrite m dst v) (dst + 1) vs

/-! ### Rejecting: the spec's `raise` (00_scope R12, 60_exceptions R220 to R228) -/

/-- What an error records besides its `STATUS` bit (60_exceptions R220). -/
inductive ErrorRecord where
  /-- `ERR_CMD`: the rejected command word. -/
  | command (w : Word)
  /-- `ERR_ACCESS`: the rejected bus access. -/
  | access (a : AccessInfo)

/-- TAKING AN ERROR, the one shared operation: the cause's sticky bit is set and the error register of
its kind is overwritten. There is no mode, no saved position and no transfer (60_exceptions R228). -/
def raise (c : Cause) (r : ErrorRecord) (s : State) : State :=
  match r with
  | .command w => { s with sticky := setSticky c s.sticky, errCmd := w }
  | .access a => { s with sticky := setSticky c s.sticky, errAccess := a }

/-- ACKNOWLEDGING, what stands for a return (60_exceptions R233): the host's write to `STATUS`. -/
def acknowledge (v : Word) (s : State) : State := { s with sticky := ackSticky v s.sticky }

/-- Why a command's own checks turn it away (60_exceptions R222 to R225). -/
inductive Rejection where
  /-- `CFG_COMMIT` with illegal staged fields, one bit each (60_exceptions R222). -/
  | cfg (fault : BitVec 9)
  /-- A sample operand that is not admissible (60_exceptions R223). -/
  | operand
  /-- A bulk command of insufficient length (60_exceptions R224). -/
  | len
  /-- A bulk command past the end of `BUFMEM` (60_exceptions R225). -/
  | range
deriving DecidableEq, Repr

/-- Reject a command by one of its own checks (70_reset_and_hazards R262). `Cfg` also records the
failing fields in `CFG_FAULT` (60_exceptions R222). -/
def reject (r : Rejection) (w : Word) (s : State) : State :=
  match r with
  | .cfg fault => raise .cfg (.command w) { s with block := { s.block with cfgFault := fault } }
  | .operand => raise .operand (.command w) s
  | .len => raise .len (.command w) s
  | .range => raise .range (.command w) s

/-! ### Accepting and completing (70_reset_and_hazards R260, R261) -/

/-- Accept a command: `busy <- 1`, `pending <- (w, the effects computed)`. -/
def accept (w : Word) (e : Effects) (s : State) : State :=
  { s with pending := some { word := w, effects := e } }

/-- The sticky bits after a completion: the command's events and `CMD_DONE` (60_exceptions R231). -/
def completionSticky (e : Effects) (sticky : BitVec 10) : BitVec 10 :=
  setSticky .cmdDone (setStickyIf e.bitReady .bitReady (setStickyIf e.agcDegen .agcDegen sticky))

/-- The completion step: every effect in one step, the event bits, `CMD_DONE`, `busy <- 0`. -/
def complete (e : Effects) (s : State) : State :=
  { s with block := e.block, sticky := completionSticky e s.sticky, pending := none }

/-- The block's turn: it completes the pending command if there is one (70_reset_and_hazards R261). -/
def blockTurn (s : State) : State :=
  match s.pending with
  | some p => complete p.effects s
  | none => s

/-- Whether the block's next turn comes before any host access or reset: the schedule with no host
access between acceptance and completion, which 70_reset_and_hazards R261 allows (log 2). With no move
planned the block completes, as R261 guarantees. -/
def completesAtOnce : List Move → Bool
  | [] => true
  | .block :: _ => true
  | .host _ :: _ => false
  | .reset :: _ => false

/-- How many `BUFMEM` reads a command's pseudocode makes: `COUNT` for the bulk commands
(43_fir R163, 45_intdump R183). Each may consume a free value (log 16). -/
def readsOf : Instr → Nat
  | .firApply _ count _ _ => count
  | .idApply count _ _ => count
  | .nop => 0
  | .clearAll => 0
  | .step => 0
  | .cfgCommit => 0
  | .agcUpdate => 0
  | .agcClear => 0
  | .ddcUpdate => 0
  | .ddcClear => 0
  | .firUpdate _ => 0
  | .firClear _ => 0
  | .pgEval _ => 0
  | .idUpdate _ => 0
  | .idClear _ => 0
  | .bsyncUpdate _ => 0
  | .bsyncClear => 0

/-- ISSUING A COMMAND whose pseudocode, run on this state, gave `result` (70_reset_and_hazards R260):
`Busy` while another command is pending, else its own rejection, else acceptance, with the completion at
once where the schedule has the block move next (log 2). The word recorded is the command's encoding,
which is the word the host wrote (log 20). -/
def issue (i : Instr) (result : Except Rejection Effects) (s : State) : State :=
  if s.busy then raise .busy (.command (encode i)) s
  else
    let drawn := { s with draws := s.draws + readsOf i }
    match result with
    | .error r => reject r (encode i) drawn
    | .ok e => if completesAtOnce s.moves then complete e drawn else accept (encode i) e drawn

/-- The effects of a command that raises no event of its own. -/
def quiet (b : Block) : Effects := { block := b, agcDegen := false, bitReady := false }

/-! ### Reset (70_reset_and_hazards R250) -/

/-- The reset event. The sizes are the hardware's; the schedule, the value the host last read and the
count of free values drawn are the model's own and stay (log 11). -/
def resetEvent (s : State) : State :=
  { State.resetWith s.params with moves := s.moves, readData := s.readData, draws := s.draws }

end Sys2Proof.Machine
end

