-- ==== Sys2Proof/Machine/Operands.lean ====
section
/-! DEFINITION. The operand forms (30_encoding R102): the sample in `DIN0`, the pair in `DIN0` and
`DIN1`, and the bulk inputs of `BUFMEM`, with the checks of 60_exceptions R223 to R225. -/

namespace Sys2Proof.Machine

/-- The sample operand in `DIN0`, checked before any effect (40_numerics R134, 60_exceptions R223). -/
def withSample (s : State) (run : Word → Effects) : Except Rejection Effects :=
  if admissible s.din0 then .ok (run s.din0) else .error .operand

/-- The sample pair in `DIN0` and `DIN1` (46_bitsync R190, 60_exceptions R223). -/
def withSamplePair (s : State) (run : Word → Word → Effects) : Except Rejection Effects :=
  if admissible s.din0 && admissible s.din1 then .ok (run s.din0 s.din1) else .error .operand

/-- The inputs `BUFMEM[src .. src+count-1]` of a bulk command, all read before any output is written;
read `j` of an unwritten entry is the free value `draws + j` (20_memory R81, R82). -/
def bulkInputs (s : State) (src count : Nat) : List Word :=
  (List.range count).map fun j => bufRead s.block.mem (src + j) (s.draws + j)

/-- The bulk operands: `Len` if there would be no output, `Range` if an input or output index passes
`BUF_DEPTH`, `Operand` if an input is not admissible, in this order (60_exceptions R224, R225, R223,
R229). `outputs` is how many entries the command writes. -/
def withBulk (s : State) (count src dst outputs : Nat) (run : List Word → Effects) :
    Except Rejection Effects :=
  if outputs = 0 then .error .len
  else if s.params.bufDepth < src + count ∨ s.params.bufDepth < dst + outputs then .error .range
  else if (bulkInputs s src count).all admissible then .ok (run (bulkInputs s src count))
  else .error .operand

end Sys2Proof.Machine
end

