-- ==== Sys2Proof/Machine/Agc.lean ====
section
/-! DEFINITION. The automatic gain control with its windowed gain update (41_agc). -/

namespace Sys2Proof.Machine

/-- The outcome of one gain recompute: the AGC, and whether the recompute was degenerate. -/
structure AgcRecomputed where
  agc : Agc
  degenerate : Bool
deriving DecidableEq, Repr

/-- `agcRecompute()` (41_agc R141): the gain is held, and the recompute degenerate, when the denominator
is a zero or the quotient is not finite. -/
def agcRecompute (c : CfgRegs) (a : Agc) : AgcRecomputed :=
  let den := fmul c.nsigma (pstd (a.buf.take c.k.toNat))
  let g := fdiv (fullScale c.w) den
  if feq den 0 || !isfinite g then { agc := a, degenerate := true }
  else { agc := { a with gain := g }, degenerate := false }

/-- The push of `agcStep` with the recompute it may trigger (41_agc R140): the sample displaces the
oldest, and every `K`-th push recomputes the gain with the new sample in the buffer. -/
def agcPush (c : CfgRegs) (a : Agc) (x : Word) : AgcRecomputed :=
  let buf := a.buf.set a.pos x
  if a.pos + 1 = c.k.toNat then agcRecompute c { a with buf := buf, pos := 0 }
  else { agc := { a with buf := buf, pos := a.pos + 1 }, degenerate := false }

/-- The controlled output: the sample scaled by the gain as it stands after the push, clipped to full
scale (41_agc R140). -/
def agcOutput (c : CfgRegs) (a : Agc) (x : Word) : Word := clampFS (fullScale c.w) (fmul x a.gain)

/-- `agcStep(x)` on the block, its output in `AGC_OUT` (41_agc R140, R142). -/
def agcStage (b : Block) (x : Word) : Block :=
  let r := agcPush b.active.regs b.agc x
  { b with agc := r.agc, agcOut := agcOutput b.active.regs r.agc x }

/-- Whether `agcStep(x)` raises `AGC_DEGEN` (41_agc R141). -/
def agcStageDegenerate (b : Block) (x : Word) : Bool := (agcPush b.active.regs b.agc x).degenerate

/-- The effects of `AGC_CLEAR` (41_agc R143). -/
def agcCleared (p : Params) (b : Block) : Block :=
  { b with
    agc := { buf := List.replicate p.agcLenMax 0, pos := 0, gain := Config.one }
    agcOut := 0 }

/-- `AGC_UPDATE` (41_agc R142). -/
def execAgcUpdate (s : State) : Host.Outcome State Fault Refusal :=
  .next (issue .agcUpdate
    (withSample s fun x =>
      { block := agcStage s.block x, agcDegen := agcStageDegenerate s.block x, bitReady := false }) s)

/-- `AGC_CLEAR` (41_agc R143). -/
def execAgcClear (s : State) : Host.Outcome State Fault Refusal :=
  .next (issue .agcClear (.ok (quiet (agcCleared s.params s.block))) s)

end Sys2Proof.Machine
end

