-- ==== Sys2Proof/Machine/BitSyncUnit.lean ====
section
/-! DEFINITION. The bit synchronizer and slicer (46_bitsync). -/

namespace Sys2Proof.Machine

/-- Whether `bsStep` emits a bit: a valid input in `Sampling` at stride position 0 (46_bitsync R192). -/
def bsEmits (b : Block) (v : Bool) : Bool := v && b.bs.phase == .sampling && b.bs.scnt == 0

/-- The synchronizer's own state after one input (46_bitsync R192): an input that is not valid changes
nothing; in `AwaitingSettle` the delay counts down; in `Sampling` the stride position advances. -/
def bsAdvance (stride : Nat) (u : BitSync) (v : Bool) : BitSync :=
  if v then
    match u.phase with
    | .awaitingSettle =>
      { u with
        dcnt := u.dcnt - 1
        phase := if u.dcnt - 1 = 0 then .sampling else .awaitingSettle }
    | .sampling => { u with scnt := (u.scnt + 1) % stride }
  else u

/-- `FLAGS` after one synchronizer input: the decisions of both arms on an emission, the last ones kept
otherwise (46_bitsync R192, R193). -/
def bsFlags (emits : Bool) (f : Flags) (vI vQ : Word) : Flags :=
  if emits then
    { f with bitI := decisionCode (sgn vI), bitQ := decisionCode (sgn vQ), bitValid := true }
  else { f with bitValid := false }

/-- `bsStep(vI, vQ, v)` on the block (46_bitsync R192). -/
def bsStage (b : Block) (vI vQ : Word) (v : Bool) : Block :=
  { b with
    bs := bsAdvance b.active.regs.s.toNat b.bs v
    flags := bsFlags (bsEmits b v) b.flags vI vQ
    validCount := if v then b.validCount + 1 else b.validCount
    bitCount := if bsEmits b v then b.bitCount + 1 else b.bitCount }

/-- The synchronizer's initial state under the delay `D` (10_state R57, 46_bitsync R191). -/
def bsInitial (d : BitVec 32) : BitSync :=
  { phase := if d = 0 then .sampling else .awaitingSettle, dcnt := d, scnt := 0 }

/-- The effects of `BSYNC_CLEAR` (46_bitsync R191). -/
def bsCleared (b : Block) : Block :=
  { b with
    bs := bsInitial b.active.regs.d
    flags := { b.flags with bitI := 0, bitQ := 0, bitValid := false }
    validCount := 0
    bitCount := 0 }

/-- `BSYNC_UPDATE` (46_bitsync R190): both operands are checked even when `V = 0`. -/
def execBsyncUpdate (v : Bool) (s : State) : Host.Outcome State Fault Refusal :=
  .next (issue (.bsyncUpdate v)
    (withSamplePair s fun vI vQ =>
      { block := bsStage s.block vI vQ v, agcDegen := false, bitReady := bsEmits s.block v }) s)

/-- `BSYNC_CLEAR` (46_bitsync R191). -/
def execBsyncClear (s : State) : Host.Outcome State Fault Refusal :=
  .next (issue .bsyncClear (.ok (quiet (bsCleared s.block))) s)

end Sys2Proof.Machine
end

