-- ==== Sys2Proof/Machine/Ddc.lean ====
section
/-! DEFINITION. The quarter-rate quadrature downconverter (42_ddc). -/

namespace Sys2Proof.Machine

/-- The pattern `COS4 = [+1.0, +0.0, -1.0, +0.0]` at its head `p` (10_state R54). -/
def cosPattern (p : BitVec 2) : Word :=
  if p = 0 then Config.one else if p = 2 then fneg Config.one else 0

/-- The pattern `SIN4 = [+0.0, +1.0, +0.0, -1.0]` at its head `p` (10_state R54). -/
def sinPattern (p : BitVec 2) : Word :=
  if p = 1 then Config.one else if p = 3 then fneg Config.one else 0

/-- `ddcStep(a)` on the block, its outputs in `MIX_I` and `MIX_Q` (42_ddc R150, R151). The phase counts
modulo 4 by its width. -/
def ddcStage (b : Block) (a : Word) : Block :=
  { b with
    ddcPhase := b.ddcPhase + 1
    mix := { i := fmul a (cosPattern b.ddcPhase), q := fmul a (sinPattern b.ddcPhase) } }

/-- The effects of `DDC_CLEAR` (42_ddc R152). -/
def ddcCleared (b : Block) : Block := { b with ddcPhase := 0, mix := PerArm.both 0 }

/-- `DDC_UPDATE` (42_ddc R151). -/
def execDdcUpdate (s : State) : Host.Outcome State Fault Refusal :=
  .next (issue .ddcUpdate (withSample s fun a => quiet (ddcStage s.block a)) s)

/-- `DDC_CLEAR` (42_ddc R152). -/
def execDdcClear (s : State) : Host.Outcome State Fault Refusal :=
  .next (issue .ddcClear (.ok (quiet (ddcCleared s.block))) s)

end Sys2Proof.Machine
end

