-- ==== Sys2Proof/Machine/Fir.lean ====
section
/-! DEFINITION. The FIR matched filter, one history for each arm and one tap set for both (43_fir). -/

namespace Sys2Proof.Machine

/-- The shift of `firStep`: the sample enters at `b[0]`, `b[N-1]` is displaced, and the entries from `N`
on stay (43_fir R160). -/
def firShift (n : Nat) (hist : List Word) (x : Word) : List Word :=
  x :: hist.take (n - 1) ++ hist.drop n

/-- The output of the filter over a history: `dot(h[0..N-1], b[0..N-1])` (43_fir R160). -/
def firOutput (c : CfgCopy) (hist : List Word) : Word :=
  dot (c.taps.take c.regs.n.toNat) (hist.take c.regs.n.toNat)

/-- The history of an arm after a sequence of samples (43_fir R163). -/
def firHistory (c : CfgCopy) (hist : List Word) (xs : List Word) : List Word :=
  xs.foldl (firShift c.regs.n.toNat) hist

/-- The outputs of `firStep` over a sequence of samples, in order (43_fir R163). -/
def firOutputs (c : CfgCopy) : List Word → List Word → List Word
  | _, [] => []
  | hist, x :: xs =>
    let shifted := firShift c.regs.n.toNat hist x
    firOutput c shifted :: firOutputs c shifted xs

/-- `firStep(arm, x)` on the block, its output in `FIR_arm` (43_fir R160, R161). -/
def firStage (arm : Arm) (b : Block) (x : Word) : Block :=
  let hist := firShift b.active.regs.n.toNat (b.firBuf.get arm) x
  { b with firBuf := b.firBuf.set arm hist, firOut := b.firOut.set arm (firOutput b.active hist) }

/-- The effects of `FIR_CLEAR` (43_fir R162). -/
def firCleared (p : Params) (arm : Arm) (b : Block) : Block :=
  { b with
    firBuf := b.firBuf.set arm (List.replicate p.nTapsMax 0)
    firOut := b.firOut.set arm 0 }

/-- The effects of `FIR_APPLY` on admissible inputs: clear the history, step through the inputs, write
the outputs from `dst` on, leave the last output in `FIR_arm` (43_fir R163). -/
def firApplied (p : Params) (arm : Arm) (dst : Nat) (b : Block) (ins : List Word) : Block :=
  let zeros := List.replicate p.nTapsMax 0
  let outs := firOutputs b.active zeros ins
  { b with
    firBuf := b.firBuf.set arm (firHistory b.active zeros ins)
    firOut := b.firOut.set arm (outs.getLastD 0)
    mem := bufWriteAll b.mem dst outs }

/-- `FIR_UPDATE` (43_fir R161). -/
def execFirUpdate (arm : Arm) (s : State) : Host.Outcome State Fault Refusal :=
  .next (issue (.firUpdate arm) (withSample s fun x => quiet (firStage arm s.block x)) s)

/-- `FIR_CLEAR` (43_fir R162). -/
def execFirClear (arm : Arm) (s : State) : Host.Outcome State Fault Refusal :=
  .next (issue (.firClear arm) (.ok (quiet (firCleared s.params arm s.block))) s)

/-- `FIR_APPLY` (43_fir R163): as many outputs as inputs. -/
def execFirApply (arm : Arm) (count src dst : Nat) (s : State) : Host.Outcome State Fault Refusal :=
  .next (issue (.firApply arm count src dst)
    (withBulk s count src dst count fun ins => quiet (firApplied s.params arm dst s.block ins)) s)

end Sys2Proof.Machine
end

