-- ==== Sys2Proof/Machine/IntDumpUnit.lean ====
section
/-! DEFINITION. The integrate-and-dump decimator, one for each arm (45_intdump). -/

namespace Sys2Proof.Machine

/-- The shift of `idStep`: the oldest sample `b[0]` leaves, the new one enters at `b[L-1]`, and the
entries from `L` on stay (45_intdump R180). -/
def idShift (l : Nat) (buf : List Word) (x : Word) : List Word :=
  (buf.take l).drop 1 ++ x :: buf.drop l

/-- The outcome of `idStep`. -/
structure IdStepped where
  unit : IntDump
  out : Word
  valid : Bool
deriving DecidableEq, Repr

/-- `idStep(arm, x)` (45_intdump R180): the candidate is the mean before insertion; when the counter
reaches `L` the output is the mean after it, flagged valid, and the counter restarts. -/
def idStep (l : Nat) (u : IntDump) (x : Word) : IdStepped :=
  let buf := idShift l u.buf x
  if u.cnt + 1 = l then
    { unit := { buf := buf, cnt := 0 }, out := mean (buf.take l), valid := true }
  else
    { unit := { buf := buf, cnt := u.cnt + 1 }, out := mean (u.buf.take l), valid := false }

/-- `idStep(arm, x)` on the block, its results in `ID_arm` and `FLAGS.ID_VALID_arm` (45_intdump R181). -/
def idStage (arm : Arm) (b : Block) (x : Word) : Block :=
  let r := idStep b.active.regs.l.toNat (b.intDump.get arm) x
  { b with
    intDump := b.intDump.set arm r.unit
    idOut := b.idOut.set arm r.out
    flags := { b.flags with idValid := b.flags.idValid.set arm r.valid } }

/-- The effects of `ID_CLEAR` (45_intdump R182). -/
def idCleared (p : Params) (arm : Arm) (b : Block) : Block :=
  { b with
    intDump := b.intDump.set arm { buf := List.replicate p.idLenMax 0, cnt := 0 }
    idOut := b.idOut.set arm 0
    flags := { b.flags with idValid := b.flags.idValid.set arm false } }

/-- Output `j` of `ID_APPLY`: the mean of inputs `jL .. jL+L-1` (45_intdump R183). -/
def blockMean (l : Nat) (ins : List Word) (j : Nat) : Word := mean ((ins.drop (j * l)).take l)

/-- The effects of `ID_APPLY` on admissible inputs: one mean for each complete window, written from
`dst` on; a partial last window contributes nothing (45_intdump R183). -/
def idApplied (count dst : Nat) (b : Block) (ins : List Word) : Block :=
  let l := b.active.regs.l.toNat
  { b with mem := bufWriteAll b.mem dst ((List.range (count / l)).map (blockMean l ins)) }

/-- `ID_UPDATE` (45_intdump R181). -/
def execIdUpdate (arm : Arm) (s : State) : Host.Outcome State Fault Refusal :=
  .next (issue (.idUpdate arm) (withSample s fun x => quiet (idStage arm s.block x)) s)

/-- `ID_CLEAR` (45_intdump R182). -/
def execIdClear (arm : Arm) (s : State) : Host.Outcome State Fault Refusal :=
  .next (issue (.idClear arm) (.ok (quiet (idCleared s.params arm s.block))) s)

/-- `ID_APPLY` (45_intdump R183): `floor(M / L)` outputs. -/
def execIdApply (count src dst : Nat) (s : State) : Host.Outcome State Fault Refusal :=
  .next (issue (.idApply count src dst)
    (withBulk s count src dst (count / s.block.active.regs.l.toNat)
      fun ins => quiet (idApplied count dst s.block ins)) s)

end Sys2Proof.Machine
end

