-- ==== Sys2Proof/Machine/PostGain.lean ====
section
/-! DEFINITION. The post-filter gain and clamp, which has no state (44_post_gain). -/

namespace Sys2Proof.Machine

/-- The cast `PG_CAST` selects (44_post_gain R170); the value 3 cannot be active (log 9). -/
def postCast (cast : BitVec 2) (v : Word) : Word :=
  if cast = 0 then v
  else if cast = 1 then castInt ftrunc v
  else if cast = 2 then castInt frne v
  else Config.reservedCast v

/-- `pgFn(v)` (44_post_gain R170). -/
def postGain (c : CfgRegs) (v : Word) : Word :=
  if c.pgEn then postCast c.pgCast (clampFS (fullScale c.w) (fmul (i2f c.g.toNat) v)) else v

/-- `pgFn(v)` on the block, its result in `PG_arm` (44_post_gain R171). -/
def pgStage (arm : Arm) (b : Block) (v : Word) : Block :=
  { b with pgOut := b.pgOut.set arm (postGain b.active.regs v) }

/-- `PG_EVAL` (44_post_gain R171). -/
def execPgEval (arm : Arm) (s : State) : Host.Outcome State Fault Refusal :=
  .next (issue (.pgEval arm) (withSample s fun v => quiet (pgStage arm s.block v)) s)

end Sys2Proof.Machine
end

