-- ==== Sys2Proof/Machine/Composite.lean ====
section
/-! DEFINITION. The composite commands: no-op, clear, configuration commit and the pipeline step
(47_core). -/

namespace Sys2Proof.Machine

/-! ### CLEAR_ALL (47_core R201) -/

/-- The effects of `CLEAR_ALL`: every block's clear, then the post-gain results and `SAMPLE_COUNT`. -/
def allCleared (p : Params) (b : Block) : Block :=
  let b := ddcCleared (agcCleared p b)
  let b := firCleared p .q (firCleared p .i b)
  let b := idCleared p .q (idCleared p .i b)
  { bsCleared b with pgOut := PerArm.both 0, sampleCount := 0 }

/-! ### CFG_COMMIT (47_core R202) -/

/-- Check 4 of `CFG_COMMIT`: `NSIGMA` finite and in `[2^-64, 2^64]`, compared as binary64. -/
def nsigmaLegal (x : Word) : Bool :=
  isfinite x && fle Config.twoPowNeg64 x && fle x Config.twoPow64

/-- The tap count is legal: `1 ≤ N ≤ NTAPS_MAX`. -/
def tapCountLegal (p : Params) (c : CfgRegs) : Bool :=
  decide (1 ≤ c.n.toNat ∧ c.n.toNat ≤ p.nTapsMax)

/-- Bit `k` of `CFG_FAULT`, set when the check fails. -/
def faultBit (k : Nat) (legal : Bool) : BitVec 9 := if legal then 0 else 1#9 <<< k

/-- The value `f` of 47_core R202: one bit for each illegal staged field (10_state R40). The taps are
checked only when `N` is legal. -/
def configFault (p : Params) (c : CfgCopy) : BitVec 9 :=
  let r := c.regs
  faultBit 0 (decide (2 ≤ r.w.toNat ∧ r.w.toNat ≤ 53)) |||
  faultBit 1 (r.g != 0) |||
  faultBit 2 (r.pgCast != 3) |||
  faultBit 3 (decide (2 ≤ r.k.toNat ∧ r.k.toNat ≤ p.agcLenMax)) |||
  faultBit 4 (nsigmaLegal r.nsigma) |||
  faultBit 5 (tapCountLegal p r) |||
  faultBit 6 (!tapCountLegal p r || (c.taps.take r.n.toNat).all admissible) |||
  faultBit 7 (decide (1 ≤ r.l.toNat ∧ r.l.toNat ≤ p.idLenMax)) |||
  faultBit 8 (r.s != 0)

/-- The effects of a successful `CFG_COMMIT`: `CFG_FAULT` 0, the staged copy made active, then the
effects of `CLEAR_ALL` under the new configuration. -/
def committed (p : Params) (staged : CfgCopy) (b : Block) : Block :=
  allCleared p { b with cfgFault := 0, active := staged }

/-! ### STEP (47_core R203) -/

/-- The pipeline up to the decimators: AGC, DDC, then for each arm the FIR, the post-gain stage and the
decimator, each stage fed with the value its predecessor returned. -/
def pipelineFront (b : Block) (x : Word) : Block :=
  let b := agcStage b x
  let b := ddcStage b b.agcOut
  let b := firStage .i b b.mix.i
  let b := firStage .q b b.mix.q
  let b := pgStage .i b b.firOut.i
  let b := pgStage .q b b.firOut.q
  let b := idStage .i b b.pgOut.i
  idStage .q b b.pgOut.q

/-- The effects of `STEP`: the pipeline, the synchronizer on both decimator outputs with the I arm's
valid flag, and the sample count. -/
def stepped (b : Block) (x : Word) : Effects :=
  let front := pipelineFront b x
  let synced := bsStage front front.idOut.i front.idOut.q front.flags.idValid.i
  { block := { synced with sampleCount := synced.sampleCount + 1 }
    agcDegen := agcStageDegenerate b x
    bitReady := bsEmits front front.flags.idValid.i }

/-! ### Meanings -/

/-- `NOP` (47_core R200). -/
def execNop (s : State) : Host.Outcome State Fault Refusal :=
  .next (issue .nop (.ok (quiet s.block)) s)

/-- `CLEAR_ALL` (47_core R201). -/
def execClearAll (s : State) : Host.Outcome State Fault Refusal :=
  .next (issue .clearAll (.ok (quiet (allCleared s.params s.block))) s)

/-- `STEP` (47_core R203). -/
def execStep (s : State) : Host.Outcome State Fault Refusal :=
  .next (issue .step (withSample s fun x => stepped s.block x) s)

/-- `CFG_COMMIT` (47_core R202). -/
def execCfgCommit (s : State) : Host.Outcome State Fault Refusal :=
  .next (issue .cfgCommit
    (if configFault s.params s.staged = 0 then .ok (quiet (committed s.params s.staged s.block))
     else .error (.cfg (configFault s.params s.staged))) s)

end Sys2Proof.Machine
end

