-- ==== Sys2Proof/Machine/Dispatch.lean ====
section
/-! DEFINITION. One arm for each command, one direct call of its meaning. -/

namespace Sys2Proof.Machine

def exec (i : Instr) (s : State) : Host.Outcome State Fault Refusal :=
  match i with
  | .nop => Sys2Proof.Machine.execNop s
  | .clearAll => Sys2Proof.Machine.execClearAll s
  | .step => Sys2Proof.Machine.execStep s
  | .cfgCommit => Sys2Proof.Machine.execCfgCommit s
  | .agcUpdate => Sys2Proof.Machine.execAgcUpdate s
  | .agcClear => Sys2Proof.Machine.execAgcClear s
  | .ddcUpdate => Sys2Proof.Machine.execDdcUpdate s
  | .ddcClear => Sys2Proof.Machine.execDdcClear s
  | .firUpdate arm => Sys2Proof.Machine.execFirUpdate arm s
  | .firClear arm => Sys2Proof.Machine.execFirClear arm s
  | .firApply arm count src dst => Sys2Proof.Machine.execFirApply arm count src dst s
  | .pgEval arm => Sys2Proof.Machine.execPgEval arm s
  | .idUpdate arm => Sys2Proof.Machine.execIdUpdate arm s
  | .idClear arm => Sys2Proof.Machine.execIdClear arm s
  | .idApply count src dst => Sys2Proof.Machine.execIdApply count src dst s
  | .bsyncUpdate v => Sys2Proof.Machine.execBsyncUpdate v s
  | .bsyncClear => Sys2Proof.Machine.execBsyncClear s

end Sys2Proof.Machine
end

