-- ==== Sys2Proof/Machine/RegisterMap.lean ====
section
/-! DEFINITION. The host register map (10_state R23): where each location stands, how a read sees it and
what a write stores (10_state R21 to R52, 20_memory R73 to R78). -/

namespace Sys2Proof.Machine

/-- The nine configuration registers, staged at `0x080` and active at `0x100` (10_state R31 to R41). -/
inductive CfgReg where
  | bitWidth | bitGain | ctrl | agcLen | agcNsigma | nTaps | idLen | bsDelay | bsStride
deriving DecidableEq, Repr

/-- A location of the register map (10_state R23). -/
inductive Loc where
  | id | params | cmd | status | irqEn | din0 | din1 | errCmd | errAccess | cfgFault
  | cfg (r : CfgReg)
  | act (r : CfgReg)
  | agcOut
  | mix (arm : Arm)
  | fir (arm : Arm)
  | pg (arm : Arm)
  | idOut (arm : Arm)
  | flags
  | agcGain | agcPos | ddcPhase
  | idCnt (arm : Arm)
  | bsPhase | bsDcnt | bsScnt
  | sampleCount | validCount | bitCount
  | tapStage (k : Nat)
  | tapAct (k : Nat)
  | buf (i : Nat)
deriving DecidableEq, Repr

/-- The fixed part of the register map (10_state R23). -/
def registerMap : List (Nat × Loc) :=
  [ (0x000, .id), (0x008, .params), (0x010, .cmd), (0x018, .status), (0x020, .irqEn),
    (0x028, .din0), (0x030, .din1), (0x038, .errCmd), (0x040, .errAccess), (0x048, .cfgFault),
    (0x080, .cfg .bitWidth), (0x088, .cfg .bitGain), (0x090, .cfg .ctrl), (0x098, .cfg .agcLen),
    (0x0A0, .cfg .agcNsigma), (0x0A8, .cfg .nTaps), (0x0B0, .cfg .idLen), (0x0B8, .cfg .bsDelay),
    (0x0C0, .cfg .bsStride),
    (0x100, .act .bitWidth), (0x108, .act .bitGain), (0x110, .act .ctrl), (0x118, .act .agcLen),
    (0x120, .act .agcNsigma), (0x128, .act .nTaps), (0x130, .act .idLen), (0x138, .act .bsDelay),
    (0x140, .act .bsStride),
    (0x180, .agcOut), (0x188, .mix .i), (0x190, .mix .q), (0x198, .fir .i), (0x1A0, .fir .q),
    (0x1A8, .pg .i), (0x1B0, .pg .q), (0x1B8, .idOut .i), (0x1C0, .idOut .q), (0x1C8, .flags),
    (0x200, .agcGain), (0x208, .agcPos), (0x210, .ddcPhase), (0x218, .idCnt .i), (0x220, .idCnt .q),
    (0x228, .bsPhase), (0x230, .bsDcnt), (0x238, .bsScnt),
    (0x240, .sampleCount), (0x248, .validCount), (0x250, .bitCount) ]

/-- An 8-byte window of `n` entries from `base` on: the index of the entry at `o`. -/
def windowIndex (base n o : Nat) : Option Nat :=
  if base ≤ o ∧ o < base + 8 * n then some ((o - base) / 8) else none

/-- The location at an aligned offset; none if it is unmapped (10_state R23, 20_memory R75). -/
def locate (p : Params) (o : Nat) : Option Loc :=
  if o % 8 = 0 then
    match registerMap.lookup o with
    | some l => some l
    | none =>
      match windowIndex 0x1000 p.nTapsMax o with
      | some k => some (.tapStage k)
      | none =>
        match windowIndex 0x2000 p.nTapsMax o with
        | some k => some (.tapAct k)
        | none => (windowIndex 0x10000 p.bufDepth o).map .buf
  else none

/-- Whether a write to the location is legal: not an RO location (20_memory R74, R76). -/
def writable : Loc → Bool
  | .cmd | .status | .irqEn | .din0 | .din1 | .cfg _ | .tapStage _ | .buf _ => true
  | .id | .params | .errCmd | .errAccess | .cfgFault | .act _ | .agcOut | .mix _ | .fir _ | .pg _
  | .idOut _ | .flags | .agcGain | .agcPos | .ddcPhase | .idCnt _ | .bsPhase | .bsDcnt | .bsScnt
  | .sampleCount | .validCount | .bitCount | .tapAct _ => false

/-- Whether a read of the location while busy is unspecified (20_memory R78). -/
def hiddenWhileBusy : Loc → Bool
  | .agcOut | .mix _ | .fir _ | .pg _ | .idOut _ | .flags | .agcGain | .agcPos | .ddcPhase | .idCnt _
  | .bsPhase | .bsDcnt | .bsScnt | .sampleCount | .validCount | .bitCount | .act _ | .tapAct _
  | .cfgFault | .buf _ => true
  | .id | .params | .cmd | .status | .irqEn | .din0 | .din1 | .errCmd | .errAccess | .cfg _
  | .tapStage _ => false

/-- Whether a write to the location takes effect while busy (20_memory R79). -/
def writableWhileBusy : Loc → Bool
  | .status | .irqEn => true
  | .id | .params | .cmd | .din0 | .din1 | .errCmd | .errAccess | .cfgFault | .cfg _ | .act _
  | .agcOut | .mix _ | .fir _ | .pg _ | .idOut _ | .flags | .agcGain | .agcPos | .ddcPhase | .idCnt _
  | .bsPhase | .bsDcnt | .bsScnt | .sampleCount | .validCount | .bitCount | .tapStage _ | .tapAct _
  | .buf _ => false

/-- The word of a configuration register, its reserved bits 0 (10_state R31 to R39, R41). -/
def cfgWord (c : CfgRegs) : CfgReg → Word
  | .bitWidth => c.w.zeroExtend 64
  | .bitGain => c.g.zeroExtend 64
  | .ctrl => (0 : BitVec 61) ++ (c.pgCast ++ BitVec.ofBool c.pgEn)
  | .agcLen => c.k.zeroExtend 64
  | .agcNsigma => c.nsigma
  | .nTaps => c.n.zeroExtend 64
  | .idLen => c.l.zeroExtend 64
  | .bsDelay => c.d.zeroExtend 64
  | .bsStride => c.s.zeroExtend 64

/-- Store a word to a configuration register, its reserved bits discarded (10_state R30 to R39). -/
def setCfg (c : CfgRegs) (r : CfgReg) (v : Word) : CfgRegs :=
  match r with
  | .bitWidth => { c with w := v.extractLsb' 0 6 }
  | .bitGain => { c with g := v.extractLsb' 0 32 }
  | .ctrl => { c with pgEn := v.getLsbD 0, pgCast := v.extractLsb' 1 2 }
  | .agcLen => { c with k := v.extractLsb' 0 16 }
  | .agcNsigma => { c with nsigma := v }
  | .nTaps => { c with n := v.extractLsb' 0 16 }
  | .idLen => { c with l := v.extractLsb' 0 16 }
  | .bsDelay => { c with d := v.extractLsb' 0 32 }
  | .bsStride => { c with s := v.extractLsb' 0 32 }

/-- The word of `PARAMS` (10_state R22). -/
def paramsWord (p : Params) : Word :=
  BitVec.ofNat 16 p.bufDepth ++ (BitVec.ofNat 16 p.idLenMax ++
    (BitVec.ofNat 16 p.nTapsMax ++ BitVec.ofNat 16 p.agcLenMax))

/-- The word of `BS_PHASE` (10_state R51). -/
def bsPhaseWord : BsPhase → Word
  | .awaitingSettle => 0
  | .sampling => 1

/-- The value a read of the location returns while nothing makes it unspecified (20_memory R73). A
`BUFMEM` entry that nothing has written is the state's next free value (20_memory R82). -/
def locWord (s : State) : Loc → Word
  | .id => Config.idValue
  | .params => paramsWord s.params
  | .cmd => 0
  | .status => statusWord s.busy s.sticky
  | .irqEn => fieldTenToOne s.irqEn
  | .din0 => s.din0
  | .din1 => s.din1
  | .errCmd => s.errCmd
  | .errAccess => s.errAccess.word
  | .cfgFault => s.block.cfgFault.zeroExtend 64
  | .cfg r => cfgWord s.staged.regs r
  | .act r => cfgWord s.block.active.regs r
  | .agcOut => s.block.agcOut
  | .mix arm => s.block.mix.get arm
  | .fir arm => s.block.firOut.get arm
  | .pg arm => s.block.pgOut.get arm
  | .idOut arm => s.block.idOut.get arm
  | .flags => s.block.flags.word
  | .agcGain => s.block.agc.gain
  | .agcPos => (BitVec.ofNat 16 s.block.agc.pos).zeroExtend 64
  | .ddcPhase => s.block.ddcPhase.zeroExtend 64
  | .idCnt arm => (BitVec.ofNat 16 (s.block.intDump.get arm).cnt).zeroExtend 64
  | .bsPhase => bsPhaseWord s.block.bs.phase
  | .bsDcnt => s.block.bs.dcnt.zeroExtend 64
  | .bsScnt => (BitVec.ofNat 32 s.block.bs.scnt).zeroExtend 64
  | .sampleCount => s.block.sampleCount
  | .validCount => s.block.validCount
  | .bitCount => s.block.bitCount
  | .tapStage k => s.staged.taps.getD k 0
  | .tapAct k => s.block.active.taps.getD k 0
  | .buf i => bufRead s.block.mem i s.draws

/-- Whether a read of the location returns a free value: computed state while busy (20_memory R78), or
a `BUFMEM` entry that nothing has written (20_memory R82). -/
def readIsFree (s : State) (l : Loc) : Bool :=
  (s.busy && hiddenWhileBusy l) ||
    match l with
    | .buf i => !written s.block.mem i
    | _ => false

/-- A legal read (20_memory R73, R78, R82): the value goes to the host, and a free one is counted. -/
def readLoc (l : Loc) (s : State) : State :=
  if readIsFree s l then { s with readData := Config.freeWord s.draws, draws := s.draws + 1 }
  else { s with readData := locWord s l }

/-- A legal write that takes effect, to a location other than `CMD` (20_memory R74). An RO location is
never written (20_memory R76). -/
def storeLoc (l : Loc) (v : Word) (s : State) : State :=
  match l with
  | .status => acknowledge v s
  | .irqEn => { s with irqEn := v.extractLsb' 1 10 }
  | .din0 => { s with din0 := v }
  | .din1 => { s with din1 := v }
  | .cfg r => { s with staged := { s.staged with regs := setCfg s.staged.regs r v } }
  | .tapStage k => { s with staged := { s.staged with taps := s.staged.taps.set k v } }
  | .buf i => { s with block := { s.block with mem := bufWrite s.block.mem i v } }
  | .cmd | .id | .params | .errCmd | .errAccess | .cfgFault | .act _ | .agcOut | .mix _ | .fir _
  | .pg _ | .idOut _ | .flags | .agcGain | .agcPos | .ddcPhase | .idCnt _ | .bsPhase | .bsDcnt
  | .bsScnt | .sampleCount | .validCount | .bitCount | .tapAct _ => s

end Sys2Proof.Machine
end

