-- ==== Sys2Proof/Machine/Bus.lean ====
section
/-! DEFINITION. One host access (20_memory R72 to R79, 60_exceptions R226, R227, R230) and the issue of a
command by a write to `CMD` (10_state R24, 70_reset_and_hazards R260). -/

namespace Sys2Proof.Machine

/-- The location of a legal access: 8 bytes, aligned, mapped, and writable if it is a write
(60_exceptions R227). The order of these checks shows in nothing (60_exceptions R230). -/
def legalTarget (p : Params) (a : Access) : Option Loc :=
  if a.size = .b8 then
    match a.op with
    | .read => locate p a.offset.toNat
    | .write _ => (locate p a.offset.toNat).filter writable
  else none

/-- An access that raises `Addr`: a read returns 0, a write changes nothing else (60_exceptions R227). -/
def rejectAccess (a : Access) (s : State) : State :=
  match a.op with
  | .read => { raise .addr (.access a.info) s with readData := 0 }
  | .write _ => raise .addr (.access a.info) s

/-- A legal write of `w` to `CMD` (70_reset_and_hazards R260): `Busy` first, then `Illegal`, then the
command itself, whose meaning raises `Busy` and its own rejections (60_exceptions R229). -/
def writeCmd (w : Word) (s : State) : Host.Outcome State Fault Refusal :=
  match decode w with
  | .ok i => exec i s
  | .error _ => .next (raise (if s.busy then .busy else .illegal) (.command w) s)

/-- A legal write (20_memory R74, R79): discarded with `Busy` while a command is pending, but for
`STATUS` and `IRQ_EN`. -/
def writeLoc (a : Access) (l : Loc) (v : Word) (s : State) : Host.Outcome State Fault Refusal :=
  if l = .cmd then writeCmd v s
  else if s.busy && !writableWhileBusy l then .next (raise .busy (.access a.info) s)
  else .next (storeLoc l v s)

/-- One host access (20_memory R72 to R79). -/
def hostAccess (a : Access) (s : State) : Host.Outcome State Fault Refusal :=
  match legalTarget s.params a with
  | none => .next (rejectAccess a s)
  | some l =>
    match a.op with
    | .read => .next (readLoc l s)
    | .write v => writeLoc a l v s

/-- The offset of `CMD` (10_state R23). -/
def cmdOffset : Offset := 0x010

/-- The bus write that issues a command word (10_state R24). -/
def cmdWrite (w : Word) : Access := { op := .write w, size := .b8, offset := cmdOffset }

end Sys2Proof.Machine
end

