-- ==== Sys2Proof/Machine/Step.lean ====
section
/-! DEFINITION. One step of the machine: the next move of the schedule (00_scope R16,
70_reset_and_hazards R254). -/

namespace Sys2Proof.Machine

/-- One step: a host access, the block's turn, or a reset, as `moves` says. With no move planned it is
the block's turn, since a pending command is guaranteed to complete (70_reset_and_hazards R261). -/
def step (s : State) : Host.Outcome State Fault Refusal :=
  match s.moves with
  | [] => .next (blockTurn s)
  | .block :: rest => .next (blockTurn { s with moves := rest })
  | .reset :: rest => .next (resetEvent { s with moves := rest })
  | .host a :: rest => hostAccess a { s with moves := rest }

/-- The state in which the very next step issues the word of the low `nbits` bits of `w`, the bits above
zero, and completes it if it is accepted: the block is idle, the next move is the host's write of that
word to `CMD`, and the block's turn follows (log 3). -/
def State.withFetchWord (s : State) (nbits w : Nat) : State :=
  { s with
    pending := none
    moves := .host (cmdWrite (BitVec.ofNat 64 (w % 2 ^ nbits))) :: .block :: s.moves }

end Sys2Proof.Machine
end

