-- ==== Sys2Proof/Safety.lean ====
section
/-! DEFINITION. What a sound state of the block is (10_state R61, 40_numerics R135), when a command
completes in the step that issues it, and short runs of commands, in the terms the claims use. -/

namespace Sys2Proof.Machine

/-! ### Sound states -/

/-- The structural invariant of the block (10_state R61): a legal active configuration, buffers of their
physical sizes, positions within their bounds, `BUFMEM` in canonical form and inside its window with
whole entries only, and decisions that are never `0b10` (10_state R47). -/
structure Block.Sound (p : Params) (b : Block) : Prop where
  config : configFault p b.active = 0
  taps : b.active.taps.length = p.nTapsMax
  agcBuf : b.agc.buf.length = p.agcLenMax
  agcPos : b.agc.pos < b.active.regs.k.toNat
  firBuf : ∀ arm, (b.firBuf.get arm).length = p.nTapsMax
  idBuf : ∀ arm, (b.intDump.get arm).buf.length = p.idLenMax
  idCnt : ∀ arm, (b.intDump.get arm).cnt < b.active.regs.l.toNat
  bsScnt : b.bs.scnt < b.active.regs.s.toNat
  bsDcnt : b.bs.phase = .sampling ∨ 1 ≤ b.bs.dcnt.toNat
  memWf : b.mem.wf
  memInside : ∀ a, (byteAt b.mem a).isSome → 0x10000 ≤ a ∧ a < bufOffset p.bufDepth
  memWhole : ∀ i j, j < 8 → (byteAt b.mem (bufOffset i + j)).isSome → written b.mem i = true
  bits : b.flags.bitI ≠ 0b10 ∧ b.flags.bitQ ≠ 0b10

/-- The structural invariant of the machine: legal sizes, a staged tap memory of its physical size, a
sound block, and a sound block in the effects of the pending command. -/
structure State.Sound (s : State) : Prop where
  params : s.params.Legal
  taps : s.staged.taps.length = s.params.nTapsMax
  block : s.block.Sound s.params
  pending : ∀ p, s.pending = some p → p.effects.block.Sound s.params

/-- A finite value of magnitude at most `2^k`. -/
def boundedBy (k : Nat) (x : Word) : Bool := isfinite x && decide (magUnits x ≤ oneUnits <<< k)

/-- The numeric invariant of the block (10_state R61, 40_numerics R135): no stored value is a NaN or an
infinity. The bounds are those of R135 and make the invariant inductive: histories hold admissible
samples, decimator buffers hold filter outputs of at most `512 * 2^128`. -/
structure Block.Finite (b : Block) : Prop where
  agcBuf : ∀ x ∈ b.agc.buf.take b.active.regs.k.toNat, boundedBy 64 x = true
  agcGain : isfinite b.agc.gain = true
  firBuf : ∀ arm, ∀ x ∈ (b.firBuf.get arm).take b.active.regs.n.toNat, boundedBy 64 x = true
  idBuf : ∀ arm, ∀ x ∈ (b.intDump.get arm).buf.take b.active.regs.l.toNat, boundedBy 137 x = true
  agcOut : isfinite b.agcOut = true
  mix : ∀ arm, isfinite (b.mix.get arm) = true
  firOut : ∀ arm, isfinite (b.firOut.get arm) = true
  pgOut : ∀ arm, isfinite (b.pgOut.get arm) = true
  idOut : ∀ arm, isfinite (b.idOut.get arm) = true

/-- The numeric invariant of the machine, of the pending effects too. -/
structure State.Finite (s : State) : Prop where
  block : s.block.Finite
  pending : ∀ p, s.pending = some p → p.effects.block.Finite

/-! ### When a command completes in its own step -/

/-- The block is idle, so a command is not turned away with `Busy` (60_exceptions R229). -/
abbrev State.Idle (s : State) : Prop := s.pending = none

/-- The block is idle and the schedule gives it the next move, so an accepted command completes before
any other host access (70_reset_and_hazards R261). -/
abbrev State.Ready (s : State) : Prop := s.pending = none ∧ completesAtOnce s.moves = true

/-! ### What a step leaves alone -/

/-- Every byte of `BUFMEM` reads as before. -/
abbrev SameBytes (s t : State) : Prop := ∀ a, byteAt t.block.mem a = byteAt s.block.mem a

/-- Every byte of `BUFMEM` outside the `n` entries from `dst` on reads as before. -/
abbrev SameBytesOutside (dst n : Nat) (s t : State) : Prop :=
  ∀ a, ¬(bufOffset dst ≤ a ∧ a < bufOffset (dst + n)) → byteAt t.block.mem a = byteAt s.block.mem a

/-- The sticky `STATUS` bits after are those before together with the bits of `cs`. -/
abbrev StickyAdds (cs : List Cause) (s t : State) : Prop :=
  ∀ c, hasSticky c t.sticky = (hasSticky c s.sticky || decide (c ∈ cs))

/-- A command rejected with cause `c` (60_exceptions R221 to R226): the cause's bit and `ERR_CMD`, and
nothing else but the model's count of free values drawn. -/
abbrev RejectedWith (c : Cause) (w : Word) (s t : State) : Prop :=
  t = { s with sticky := t.sticky, errCmd := w, draws := t.draws } ∧ StickyAdds [c] s t

/-! ### The register map by offsets (10_state R23) -/

/-- The offset is a mapped location. -/
abbrev mappedOffset (p : Params) (o : Nat) : Prop :=
  o % 8 = 0 ∧
    (o ≤ 0x048 ∨ (0x080 ≤ o ∧ o ≤ 0x0C0) ∨ (0x100 ≤ o ∧ o ≤ 0x140) ∨ (0x180 ≤ o ∧ o ≤ 0x1C8) ∨
      (0x200 ≤ o ∧ o ≤ 0x250) ∨ (0x1000 ≤ o ∧ o < 0x1000 + 8 * p.nTapsMax) ∨
      (0x2000 ≤ o ∧ o < 0x2000 + 8 * p.nTapsMax) ∨ (0x10000 ≤ o ∧ o < 0x10000 + 8 * p.bufDepth))

/-- The offset is a location that the host may write: `CMD` to `DIN1`, `CFG_*`, `TAP_STAGE`, `BUFMEM`. -/
abbrev writableOffset (p : Params) (o : Nat) : Prop :=
  mappedOffset p o ∧
    ((0x010 ≤ o ∧ o ≤ 0x030) ∨ (0x080 ≤ o ∧ o ≤ 0x0C0) ∨
      (0x1000 ≤ o ∧ o < 0x1000 + 8 * p.nTapsMax) ∨ (0x10000 ≤ o ∧ o < 0x10000 + 8 * p.bufDepth))

/-- The offset is a location whose value is unspecified while busy (20_memory R78): `CFG_FAULT`,
`ACT_*`, result and readback registers, `TAP_ACT`, `BUFMEM`. -/
abbrev hiddenOffset (p : Params) (o : Nat) : Prop :=
  mappedOffset p o ∧
    (o = 0x048 ∨ (0x100 ≤ o ∧ o ≤ 0x140) ∨ (0x180 ≤ o ∧ o ≤ 0x1C8) ∨ (0x200 ≤ o ∧ o ≤ 0x250) ∨
      (0x2000 ≤ o ∧ o < 0x2000 + 8 * p.nTapsMax) ∨ (0x10000 ≤ o ∧ o < 0x10000 + 8 * p.bufDepth))

/-- An 8-byte read of an offset. -/
def readAccess (o : Offset) : Access := { op := .read, size := .b8, offset := o }

/-- An 8-byte write to an offset. -/
def writeAccess (o : Offset) (v : Word) : Access := { op := .write v, size := .b8, offset := o }

/-! ### Short runs of commands -/

/-- The state a command leaves, if it answers one. -/
def nextOf (i : Instr) (s : State) : Option State :=
  match exec i s with
  | .next t => some t
  | .fault _ => none
  | .refused _ => none

/-- The host puts a sample in `DIN0` and issues a command. -/
def feed (i : Instr) (x : Word) (s : State) : Option State := nextOf i { s with din0 := x }

/-- The states after each of a sequence of samples fed to the same command. -/
def feedAll (i : Instr) : List Word → State → Option (List State)
  | [], _ => some []
  | x :: xs, s =>
    match feed i x s with
    | none => none
    | some t => (feedAll i xs t).map (t :: ·)

/-- The states after each of a sequence of synchronizer updates with the given valid flags, the operands
staying in `DIN0` and `DIN1`. -/
def syncAll : List Bool → State → Option (List State)
  | [], _ => some []
  | v :: vs, s =>
    match nextOf (.bsyncUpdate v) s with
    | none => none
    | some t => (syncAll vs t).map (t :: ·)

end Sys2Proof.Machine
end

