-- ==== Sys2Proof/Certificates/Slice0/Obligations.lean ====
section
/-! DEFINITION. The statements about the model for the provers. Each docstring names the rule of spec/
it formalises, or says what it is derived from. -/

open Sys2Proof Sys2Proof.Machine

/-! ## Encoding -/

/-- Decoding the encoding of any well-formed command gives the command back (30_encoding R100 to R103). -/
def Obligations.DecodeOfEncodeIsIdentity : Prop :=
  ∀ i : Instr, WellFormed i → decode (encode i) = .ok i

/-- A word the decoder accepts is exactly the encoding of the command it decodes to, and that command is
well formed: no bit of an accepted word is dropped (30_encoding R101, R104). -/
def Obligations.AcceptedWordIsItsEncoding : Prop :=
  ∀ (w : Word) (i : Instr), decode w = .ok i → WellFormed i ∧ encode i = w

/-- The decoder accepts exactly the words that match a row of the opcode table, as that row's command,
and at most one row matches any word (30_encoding R103, R104). -/
def Obligations.DecoderFollowsOpcodeTable : Prop :=
  (∀ w i, decode w = .ok i → ∃ r ∈ opcodeRows, r.Matches w ∧ r.mnemonic = mnemonicOf i) ∧
  (∀ w, ∀ r ∈ opcodeRows, r.Matches w → ∃ i, decode w = .ok i ∧ mnemonicOf i = r.mnemonic) ∧
  (∀ w, ∀ r ∈ opcodeRows, ∀ r' ∈ opcodeRows, r.Matches w → r'.Matches w → r = r')

/-- The encoding examples of 30_encoding R105. -/
def Obligations.EncodingExamplesDecode : Prop :=
  decode 0x0008000000040032 = .ok (.firApply .i 4 0 8) ∧
  decode 0x0010000800040052 = .ok (.idApply 4 8 16) ∧
  decode 0x0000000000000130 = .ok (.firUpdate .q) ∧
  decode 0x0000000000000260 = .ok (.bsyncUpdate true) ∧
  (∀ i, decode 0x0000000000000102 ≠ .ok i)

/-! ## Steps and the command life cycle -/

/-- When the next move is a write to `CMD` of a word that decodes to a command, the step is `exec` of
that command on the state with the move consumed (70_reset_and_hazards R260). -/
def Obligations.StepIssuesDecodedCommand : Prop :=
  ∀ (s : State) (w : Word) (i : Instr) (rest : List Move),
    s.moves = .host (cmdWrite w) :: rest → decode w = .ok i → step s = exec i { s with moves := rest }

/-- R221: a word that matches no row, written to `CMD` while no command is pending, sets `ERR_ILLEGAL`
and `ERR_CMD` and nothing else. -/
def Obligations.IllegalWordSetsOnlyItsError : Prop :=
  ∀ (s : State) (w : Word) (rest : List Move),
    s.moves = .host (cmdWrite w) :: rest → s.Idle → (∀ r ∈ opcodeRows, ¬ r.Matches w) →
    ∃ t, step s = .next t ∧
      t = { s with moves := rest, sticky := t.sticky, errCmd := w } ∧ StickyAdds [.illegal] s t

/-- R226: while a command is pending, a legal write to `CMD` records the word, a legal write to any
other location but `STATUS` and `IRQ_EN` records the access, and both only set `ERR_BUSY`; writes to
`STATUS` and `IRQ_EN` take effect; a read never raises `Busy`. -/
def Obligations.BusyTurnsWritesAway : Prop :=
  ∀ (s : State) (p : Pending) (o : Offset) (rest : List Move), s.params.Legal → s.pending = some p →
    (∀ v, s.moves = .host (writeAccess o v) :: rest → writableOffset s.params o.toNat →
      ∃ t, step s = .next t ∧
        if o = 0x010 then
          t = { s with moves := rest, sticky := t.sticky, errCmd := v } ∧ StickyAdds [.busy] s t
        else if o = 0x018 then
          t = { s with moves := rest, sticky := s.sticky &&& ~~~(v.extractLsb' 1 10) }
        else if o = 0x020 then t = { s with moves := rest, irqEn := v.extractLsb' 1 10 }
        else
          t = { s with moves := rest, sticky := t.sticky,
                       errAccess := { write := true, size := .b8, offset := o } } ∧
            StickyAdds [.busy] s t) ∧
    (∀ size, s.moves = .host { op := .read, size := size, offset := o } :: rest →
      ∃ t, step s = .next t ∧ hasSticky .busy t.sticky = hasSticky .busy s.sticky)

/-- Whatever the schedule, a command has the same effect (derived from 70_reset_and_hazards R260 and
R261): issued while the block is idle, with a host access or a reset due before the block's turn, it is
rejected just as it would be with the block's turn at once, or its acceptance changes nothing but
`pending` (and the model's draw count), and the block's turn then leaves the state that completing at
once would have left. That acceptance and completion are one step where the block has the next turn is the
model's reading (log 2), and that a bulk command counts its draws at its issue the model's choice (log 16). -/
def Obligations.DeferredCompletionEqualsImmediate : Prop :=
  ∀ (i : Instr) (s : State), s.Idle → completesAtOnce s.moves = false →
    ∃ t u, exec i s = .next t ∧ exec i { s with moves := [] } = .next u ∧
      { blockTurn t with moves := [] } = u ∧
      ((t.pending = none ∧ t = { u with moves := s.moves }) ∨
        ∃ p, t.pending = some p ∧ p.word = encode i ∧ t = { s with pending := some p, draws := t.draws })

/-- While a command is pending, no host access changes the pending command, the datapath, the
configuration or the operands (20_memory R79, R83). -/
def Obligations.BusyFreezesTheDatapath : Prop :=
  ∀ (s t : State) (p : Pending) (a : Access) (rest : List Move),
    s.pending = some p → s.moves = .host a :: rest → step s = .next t →
    t.pending = some p ∧ t.block = s.block ∧ t.staged = s.staged ∧ t.din0 = s.din0 ∧
      t.din1 = s.din1 ∧ t.params = s.params

/-- The block's turn (70_reset_and_hazards R261): with a command pending it applies its effects, sets its
event bits and `CMD_DONE` and clears `BUSY`, in one step; with none pending it does nothing. That the
state holds the schedule, and that one with no move left gives the block its turn, is the model's choice
(log 1). -/
def Obligations.BlockTurnAppliesPendingEffects : Prop :=
  ∀ (s : State) (rest : List Move), (s.moves = .block :: rest ∨ (s.moves = [] ∧ rest = [])) →
    (∀ p, s.pending = some p → ∃ t, step s = .next t ∧
      t = { s with moves := rest, block := p.effects.block, pending := none, sticky := t.sticky } ∧
      StickyAdds ((if p.effects.agcDegen then [.agcDegen] else []) ++
        (if p.effects.bitReady then [.bitReady] else []) ++ [.cmdDone]) s t) ∧
    (s.pending = none → step s = .next { s with moves := rest })

/-- The reset event (70_reset_and_hazards R250): whatever the state, also while busy, every register and
internal element takes its reset value, the pending command is gone, no `BUFMEM` entry is written and
`IRQ` is low. The sizes stay; that the schedule, the last read value and the draw count stay too is the
model's choice (log 11). -/
def Obligations.ResetEventRestoresResetState : Prop :=
  ∀ (s : State) (rest : List Move), s.moves = .reset :: rest →
    ∃ t, step s = .next t ∧ t.pending = none ∧ t.irq = false ∧
      (∀ i, written t.block.mem i = false) ∧
      t = { State.resetWith s.params with moves := rest, readData := s.readData, draws := s.draws }

/-- What the host reads of every register right after reset (10_state R21 to R52, R62), for any
implementation sizes. -/
def Obligations.ResetRegisterValues : Prop :=
  ∀ p : Params, p.Legal → let s := State.resetWith p
    (∀ l ∈ [Loc.cmd, .status, .irqEn, .din0, .din1, .errCmd, .errAccess, .cfgFault, .cfg .bsDelay,
        .act .bsDelay, .agcOut, .mix .i, .mix .q, .fir .i, .fir .q, .pg .i, .pg .q, .idOut .i, .idOut .q,
        .flags, .agcPos, .ddcPhase, .idCnt .i, .idCnt .q, .bsDcnt, .bsScnt, .sampleCount, .validCount,
        .bitCount], locWord s l = 0) ∧
    locWord s .id = 0x5144444300010000 ∧
    (locWord s .params).toNat =
      p.agcLenMax + p.nTapsMax * 2 ^ 16 + p.idLenMax * 2 ^ 32 + p.bufDepth * 2 ^ 48 ∧
    (∀ act : Bool, let loc := fun r => if act then Loc.act r else Loc.cfg r
      locWord s (loc .bitWidth) = 16 ∧ locWord s (loc .bitGain) = 1 ∧ locWord s (loc .ctrl) = 3 ∧
      (locWord s (loc .agcLen)).toNat = min 64 p.agcLenMax ∧
      locWord s (loc .agcNsigma) = 0x4008000000000000 ∧ locWord s (loc .nTaps) = 1 ∧
      locWord s (loc .idLen) = 1 ∧ locWord s (loc .bsStride) = 1) ∧
    (∀ k, 0 < k → locWord s (.tapStage k) = 0 ∧ locWord s (.tapAct k) = 0) ∧
    locWord s (.tapStage 0) = 0x3FF0000000000000 ∧ locWord s (.tapAct 0) = 0x3FF0000000000000 ∧
    locWord s .agcGain = 0x3FF0000000000000 ∧ locWord s .bsPhase = 1

/-! ## Results of the commands

`s.Ready` says that the block is idle and has the next turn, so the command completes in the step that
issues it. Each statement gives the whole next state: the equation for `t` leaves everything outside
the named fields unchanged, and the clauses after it give the named fields. -/

/-- `NOP` sets `CMD_DONE` and changes nothing else (derived from 47_core R200). -/
def Obligations.NopResult : Prop :=
  ∀ s : State, s.Ready → ∃ t, exec .nop s = .next t ∧
    t = { s with sticky := t.sticky } ∧ StickyAdds [.cmdDone] s t ∧ SameBytes s t

/-- `AGC_UPDATE` pushes the sample, recomputes the gain on the push that fills the window, holds it when
the recompute is degenerate, and scales the sample by the gain as it then stands (derived from 41_agc
R140 to R142). -/
def Obligations.AgcUpdateResult : Prop :=
  ∀ s : State, s.Ready → admissible s.din0 = true →
    let c := s.block.active.regs
    let a := s.block.agc
    let fs := fullScale c.w
    let full : Prop := a.pos + 1 = c.k.toNat
    let den := fmul c.nsigma (pstd ((a.buf.set a.pos s.din0).take c.k.toNat))
    let degenerate : Prop := feq den 0 = true ∨ isfinite (fdiv fs den) = false
    ∃ t, exec .agcUpdate s = .next t ∧
      t = { s with block := { s.block with agc := t.block.agc, agcOut := t.block.agcOut },
                   sticky := t.sticky } ∧
      t.block.agc.buf.length = a.buf.length ∧
      (∀ k, k ≠ a.pos → t.block.agc.buf[k]? = a.buf[k]?) ∧
      (a.pos < a.buf.length → t.block.agc.buf[a.pos]? = some s.din0) ∧
      (full → t.block.agc.pos = 0) ∧ (¬full → t.block.agc.pos = a.pos + 1) ∧
      (full → ¬degenerate → t.block.agc.gain = fdiv fs den ∧ StickyAdds [.cmdDone] s t) ∧
      (full → degenerate → t.block.agc.gain = a.gain ∧ StickyAdds [.agcDegen, .cmdDone] s t) ∧
      (¬full → t.block.agc.gain = a.gain ∧ StickyAdds [.cmdDone] s t) ∧
      t.block.agcOut = clampFS fs (fmul s.din0 t.block.agc.gain) ∧ SameBytes s t

/-- `AGC_CLEAR` zeroes the window, the position and `AGC_OUT` and sets the gain to 1.0; it does not clear
`AGC_DEGEN` (derived from 41_agc R143). -/
def Obligations.AgcClearResult : Prop :=
  ∀ s : State, s.Ready → ∃ t, exec .agcClear s = .next t ∧
    t = { s with
          block := { s.block with
            agc := { buf := List.replicate s.params.agcLenMax 0, pos := 0, gain := 0x3FF0000000000000 },
            agcOut := 0 },
          sticky := t.sticky } ∧
    StickyAdds [.cmdDone] s t ∧ SameBytes s t

/-- `DDC_UPDATE` multiplies the sample by the heads of the patterns `[1, 0, -1, 0]` and `[0, 1, 0, -1]` and
advances the phase modulo 4 (derived from 42_ddc R150, R151). -/
def Obligations.DdcUpdateResult : Prop :=
  ∀ s : State, s.Ready → admissible s.din0 = true →
    ∃ t, exec .ddcUpdate s = .next t ∧
      t = { s with block := { s.block with ddcPhase := t.block.ddcPhase, mix := t.block.mix },
                   sticky := t.sticky } ∧
      t.block.ddcPhase.toNat = (s.block.ddcPhase.toNat + 1) % 4 ∧
      (∀ head, ([0x3FF0000000000000, 0, 0xBFF0000000000000, 0] : List Word)[s.block.ddcPhase.toNat]? =
        some head → t.block.mix.i = fmul s.din0 head) ∧
      (∀ head, ([0, 0x3FF0000000000000, 0, 0xBFF0000000000000] : List Word)[s.block.ddcPhase.toNat]? =
        some head → t.block.mix.q = fmul s.din0 head) ∧
      StickyAdds [.cmdDone] s t ∧ SameBytes s t

/-- `DDC_CLEAR` restores phase 0 and zeroes `MIX_I` and `MIX_Q` (derived from 42_ddc R152). -/
def Obligations.DdcClearResult : Prop :=
  ∀ s : State, s.Ready → ∃ t, exec .ddcClear s = .next t ∧
    t = { s with block := { s.block with ddcPhase := 0, mix := { i := 0, q := 0 } }, sticky := t.sticky } ∧
    StickyAdds [.cmdDone] s t ∧ SameBytes s t

/-- `FIR_UPDATE` shifts the sample into the first `N` places of the arm's history and leaves the inner
product with the taps in `FIR_arm`; the entries from `N` on and the other arm stay (derived from 43_fir
R160, R161). -/
def Obligations.FirUpdateResult : Prop :=
  ∀ (s : State) (arm other : Arm), s.Ready → admissible s.din0 = true → other ≠ arm →
    let n := s.block.active.regs.n.toNat
    let old := s.block.firBuf.get arm
    1 ≤ n → n ≤ old.length →
    ∃ t, exec (.firUpdate arm) s = .next t ∧
      t = { s with block := { s.block with firBuf := t.block.firBuf, firOut := t.block.firOut },
                   sticky := t.sticky } ∧
      t.block.firBuf.get other = s.block.firBuf.get other ∧
      t.block.firOut.get other = s.block.firOut.get other ∧
      (t.block.firBuf.get arm).length = old.length ∧
      (t.block.firBuf.get arm)[0]? = some s.din0 ∧
      (∀ k, 1 ≤ k → k < n → (t.block.firBuf.get arm)[k]? = old[k - 1]?) ∧
      (∀ k, n ≤ k → (t.block.firBuf.get arm)[k]? = old[k]?) ∧
      t.block.firOut.get arm =
        dot (s.block.active.taps.take n) ((t.block.firBuf.get arm).take n) ∧
      StickyAdds [.cmdDone] s t ∧ SameBytes s t

/-- `FIR_CLEAR` zeroes the arm's history and `FIR_arm` and leaves the other arm (derived from 43_fir R162). -/
def Obligations.FirClearResult : Prop :=
  ∀ (s : State) (arm other : Arm), s.Ready → other ≠ arm →
    ∃ t, exec (.firClear arm) s = .next t ∧
      t = { s with block := { s.block with firBuf := t.block.firBuf, firOut := t.block.firOut },
                   sticky := t.sticky } ∧
      t.block.firBuf.get arm = List.replicate s.params.nTapsMax 0 ∧ t.block.firOut.get arm = 0 ∧
      t.block.firBuf.get other = s.block.firBuf.get other ∧
      t.block.firOut.get other = s.block.firOut.get other ∧
      StickyAdds [.cmdDone] s t ∧ SameBytes s t

/-- `FIR_APPLY` on admissible inputs in range (derived from 43_fir R160, R163; 20_memory R81): output `j` is the
inner product of the taps with the last `N` inputs, newest first, over a zero history; the outputs stand
in `BUFMEM[dst ..]`, every byte outside them is unchanged, and the arm is left as after those samples. -/
def Obligations.FirApplyResult : Prop :=
  ∀ (s : State) (arm other : Arm) (count src dst : Nat), s.Ready → other ≠ arm →
    let n := s.block.active.regs.n.toNat
    let ins := bulkInputs s src count
    let past := fun j => (ins.take j).reverse ++ List.replicate s.params.nTapsMax 0
    let out := fun j => dot (s.block.active.taps.take n) ((past (j + 1)).take n)
    1 ≤ n → n ≤ s.params.nTapsMax → 1 ≤ count →
    src + count ≤ s.params.bufDepth → dst + count ≤ s.params.bufDepth →
    (∀ x ∈ ins, admissible x = true) →
    ∃ t, exec (.firApply arm count src dst) s = .next t ∧
      t = { s with block := { s.block with firBuf := t.block.firBuf, firOut := t.block.firOut,
                                           mem := t.block.mem },
                   sticky := t.sticky, draws := t.draws } ∧
      (∀ j, j < count → wordAt t.block.mem (bufOffset (dst + j)) = some (out j)) ∧
      SameBytesOutside dst count s t ∧
      t.block.firOut.get arm = out (count - 1) ∧
      (t.block.firBuf.get arm).take n = (past count).take n ∧
      (t.block.firBuf.get arm).drop n = List.replicate (s.params.nTapsMax - n) 0 ∧
      t.block.firBuf.get other = s.block.firBuf.get other ∧
      t.block.firOut.get other = s.block.firOut.get other ∧
      StickyAdds [.cmdDone] s t

/-- `PG_EVAL` leaves the gained, clamped and cast sample in `PG_arm` and has no other effect (derived from
44_post_gain R170, R171): bypassed when `PG_EN = 0`, else clamped to full scale and cast as `PG_CAST` says,
a cast result going through an integer. -/
def Obligations.PgEvalResult : Prop :=
  ∀ (s : State) (arm other : Arm), s.Ready → admissible s.din0 = true → other ≠ arm →
    let c := s.block.active.regs
    let clamped := clampFS (fullScale c.w) (fmul (i2f c.g.toNat) s.din0)
    ∃ t, exec (.pgEval arm) s = .next t ∧
      t = { s with block := { s.block with pgOut := t.block.pgOut }, sticky := t.sticky } ∧
      t.block.pgOut.get other = s.block.pgOut.get other ∧
      (c.pgEn = false → t.block.pgOut.get arm = s.din0) ∧
      (c.pgEn = true → c.pgCast = 0 → t.block.pgOut.get arm = clamped) ∧
      (c.pgEn = true → c.pgCast = 1 → t.block.pgOut.get arm = i2f (ftrunc clamped)) ∧
      (c.pgEn = true → c.pgCast = 2 → t.block.pgOut.get arm = i2f (frne clamped)) ∧
      StickyAdds [.cmdDone] s t ∧ SameBytes s t

/-- `ID_UPDATE` shifts the sample into the arm's window, oldest first; the output is the mean before the
shift with valid 0, or on every `L`-th update the mean after it with valid 1 (derived from 45_intdump
R180, R181). -/
def Obligations.IdUpdateResult : Prop :=
  ∀ (s : State) (arm other : Arm), s.Ready → admissible s.din0 = true → other ≠ arm →
    let l := s.block.active.regs.l.toNat
    let old := s.block.intDump.get arm
    1 ≤ l → l ≤ old.buf.length →
    ∃ t, exec (.idUpdate arm) s = .next t ∧
      t = { s with block := { s.block with intDump := t.block.intDump, idOut := t.block.idOut,
                                           flags := { s.block.flags with idValid := t.block.flags.idValid } },
                   sticky := t.sticky } ∧
      t.block.intDump.get other = s.block.intDump.get other ∧
      t.block.idOut.get other = s.block.idOut.get other ∧
      t.block.flags.idValid.get other = s.block.flags.idValid.get other ∧
      (t.block.intDump.get arm).buf.length = old.buf.length ∧
      (∀ k, k + 1 < l → (t.block.intDump.get arm).buf[k]? = old.buf[k + 1]?) ∧
      (t.block.intDump.get arm).buf[l - 1]? = some s.din0 ∧
      (∀ k, l ≤ k → (t.block.intDump.get arm).buf[k]? = old.buf[k]?) ∧
      (old.cnt + 1 = l → (t.block.intDump.get arm).cnt = 0 ∧ t.block.flags.idValid.get arm = true ∧
        t.block.idOut.get arm = mean ((t.block.intDump.get arm).buf.take l)) ∧
      (old.cnt + 1 ≠ l → (t.block.intDump.get arm).cnt = old.cnt + 1 ∧
        t.block.flags.idValid.get arm = false ∧ t.block.idOut.get arm = mean (old.buf.take l)) ∧
      StickyAdds [.cmdDone] s t ∧ SameBytes s t

/-- `ID_CLEAR` zeroes the arm's window, counter, `ID_arm` and `FLAGS.ID_VALID_arm` and leaves the other arm
(derived from 45_intdump R182). -/
def Obligations.IdClearResult : Prop :=
  ∀ (s : State) (arm other : Arm), s.Ready → other ≠ arm →
    ∃ t, exec (.idClear arm) s = .next t ∧
      t = { s with block := { s.block with intDump := t.block.intDump, idOut := t.block.idOut,
                                           flags := { s.block.flags with idValid := t.block.flags.idValid } },
                   sticky := t.sticky } ∧
      t.block.intDump.get arm = { buf := List.replicate s.params.idLenMax 0, cnt := 0 } ∧
      t.block.idOut.get arm = 0 ∧ t.block.flags.idValid.get arm = false ∧
      t.block.intDump.get other = s.block.intDump.get other ∧
      t.block.idOut.get other = s.block.idOut.get other ∧
      t.block.flags.idValid.get other = s.block.flags.idValid.get other ∧
      StickyAdds [.cmdDone] s t ∧ SameBytes s t

/-- R184: `ID_APPLY` writes exactly `floor(M/L)` outputs, output `j` the mean of inputs `jL .. jL+L-1`, and
changes nothing else. -/
def Obligations.IdApplyWritesBlockMeans : Prop :=
  ∀ (s : State) (count src dst : Nat), s.Ready →
    let l := s.block.active.regs.l.toNat
    let ins := bulkInputs s src count
    1 ≤ l → l ≤ count → src + count ≤ s.params.bufDepth → dst + count / l ≤ s.params.bufDepth →
    (∀ x ∈ ins, admissible x = true) →
    ∃ t, exec (.idApply count src dst) s = .next t ∧
      t = { s with block := { s.block with mem := t.block.mem }, sticky := t.sticky, draws := t.draws } ∧
      (∀ j, j < count / l →
        wordAt t.block.mem (bufOffset (dst + j)) = some (mean ((ins.drop (j * l)).take l))) ∧
      SameBytesOutside dst (count / l) s t ∧ StickyAdds [.cmdDone] s t

/-- `BSYNC_UPDATE` (derived from 46_bitsync R190, R192): an input that is not valid only clears
`BIT_VALID`; a valid one counts, and counts down the delay, or emits a bit at stride position 0, or is
discarded at another position. -/
def Obligations.BsyncUpdateResult : Prop :=
  ∀ (s : State) (v : Bool), s.Ready → admissible s.din0 = true → admissible s.din1 = true →
    let b := s.block
    ∃ t, exec (.bsyncUpdate v) s = .next t ∧
      t = { s with block := { b with bs := t.block.bs, flags := t.block.flags,
                                     validCount := t.block.validCount, bitCount := t.block.bitCount },
                   sticky := t.sticky } ∧
      t.block.flags.idValid = b.flags.idValid ∧
      (v = false → t.block.bs = b.bs ∧ t.block.flags = { b.flags with bitValid := false } ∧
        t.block.validCount = b.validCount ∧ t.block.bitCount = b.bitCount ∧ StickyAdds [.cmdDone] s t) ∧
      (v = true → t.block.validCount = b.validCount + 1) ∧
      (v = true → b.bs.phase = .awaitingSettle →
        t.block.bs = { b.bs with dcnt := b.bs.dcnt - 1,
                                 phase := if b.bs.dcnt = 1 then .sampling else .awaitingSettle } ∧
        t.block.flags = { b.flags with bitValid := false } ∧ t.block.bitCount = b.bitCount ∧
        StickyAdds [.cmdDone] s t) ∧
      (v = true → b.bs.phase = .sampling →
        t.block.bs = { b.bs with scnt := (b.bs.scnt + 1) % b.active.regs.s.toNat }) ∧
      (v = true → b.bs.phase = .sampling → b.bs.scnt = 0 →
        t.block.flags = { b.flags with bitI := BitVec.ofInt 2 (sgn s.din0),
                                       bitQ := BitVec.ofInt 2 (sgn s.din1), bitValid := true } ∧
        t.block.bitCount = b.bitCount + 1 ∧ StickyAdds [.bitReady, .cmdDone] s t) ∧
      (v = true → b.bs.phase = .sampling → b.bs.scnt ≠ 0 →
        t.block.flags = { b.flags with bitValid := false } ∧ t.block.bitCount = b.bitCount ∧
        StickyAdds [.cmdDone] s t) ∧
      SameBytes s t

/-- `BSYNC_CLEAR` reloads the delay `D`, starts in `Sampling` exactly when `D = 0`, and zeroes the stride
position, the decisions, `BIT_VALID` and both counters; `BIT_READY` stays (derived from 46_bitsync R191). -/
def Obligations.BsyncClearResult : Prop :=
  ∀ s : State, s.Ready → ∃ t, exec .bsyncClear s = .next t ∧
    t = { s with
          block := { s.block with
            bs := { phase := t.block.bs.phase, dcnt := s.block.active.regs.d, scnt := 0 },
            flags := { s.block.flags with bitI := 0, bitQ := 0, bitValid := false },
            validCount := 0, bitCount := 0 },
          sticky := t.sticky } ∧
    (t.block.bs.phase = .sampling ↔ s.block.active.regs.d = 0) ∧
    StickyAdds [.cmdDone] s t ∧ SameBytes s t

/-- `CLEAR_ALL` leaves every result register and counter 0, `FLAGS` 0 and every block as after its own
clear; it touches neither configuration, operands, `BUFMEM`, `IRQ_EN`, the error registers nor a `STATUS`
bit but `CMD_DONE` (derived from 47_core R201). -/
def Obligations.ClearAllResult : Prop :=
  ∀ s : State, s.Ready → ∃ t, exec .clearAll s = .next t ∧
    t = { s with
          block := { Block.reset s.params with
            active := s.block.active, cfgFault := s.block.cfgFault, mem := s.block.mem,
            bs := { phase := if s.block.active.regs.d = 0 then .sampling else .awaitingSettle,
                    dcnt := s.block.active.regs.d, scnt := 0 } },
          sticky := t.sticky } ∧
    StickyAdds [.cmdDone] s t ∧ SameBytes s t

/-- `CFG_COMMIT` with every staged field legal makes the staged copy active, zeroes `CFG_FAULT` and
leaves the rest as `CLEAR_ALL` would under the new configuration (derived from 47_core R202). -/
def Obligations.CfgCommitOfLegalConfiguration : Prop :=
  ∀ s : State, s.Ready → let c := s.staged.regs
    2 ≤ c.w.toNat → c.w.toNat ≤ 53 → c.g ≠ 0 → c.pgCast ≠ 3 →
    2 ≤ c.k.toNat → c.k.toNat ≤ s.params.agcLenMax →
    isfinite c.nsigma = true → fle 0x3BF0000000000000 c.nsigma = true →
    fle c.nsigma 0x43F0000000000000 = true →
    1 ≤ c.n.toNat → c.n.toNat ≤ s.params.nTapsMax →
    (∀ k x, k < c.n.toNat → s.staged.taps[k]? = some x → admissible x = true) →
    1 ≤ c.l.toNat → c.l.toNat ≤ s.params.idLenMax → c.s ≠ 0 →
    ∃ t, exec .cfgCommit s = .next t ∧
      t = { s with
            block := { Block.reset s.params with
              active := s.staged, cfgFault := 0, mem := s.block.mem,
              bs := { phase := if c.d = 0 then .sampling else .awaitingSettle, dcnt := c.d, scnt := 0 } },
            sticky := t.sticky } ∧
      StickyAdds [.cmdDone] s t ∧ SameBytes s t

/-- `CFG_COMMIT` with some staged field illegal (derived from 47_core R202, 60_exceptions R222, 10_state R40):
`CFG_FAULT` has exactly the bits of the illegal fields, `ERR_CFG` is set, `ERR_CMD` is the command word, and
nothing else changes. Whatever the schedule, the rejection is at the command write. -/
def Obligations.CfgCommitOfIllegalConfiguration : Prop :=
  ∀ s : State, s.Idle → let c := s.staged.regs
    let nLegal : Prop := 1 ≤ c.n.toNat ∧ c.n.toNat ≤ s.params.nTapsMax
    let illegal : Nat → Prop := fun k =>
      (k = 0 ∧ ¬(2 ≤ c.w.toNat ∧ c.w.toNat ≤ 53)) ∨ (k = 1 ∧ c.g = 0) ∨ (k = 2 ∧ c.pgCast = 3) ∨
      (k = 3 ∧ ¬(2 ≤ c.k.toNat ∧ c.k.toNat ≤ s.params.agcLenMax)) ∨
      (k = 4 ∧ ¬(isfinite c.nsigma = true ∧ fle 0x3BF0000000000000 c.nsigma = true ∧
        fle c.nsigma 0x43F0000000000000 = true)) ∨
      (k = 5 ∧ ¬nLegal) ∨
      (k = 6 ∧ nLegal ∧ ∃ j x, j < c.n.toNat ∧ s.staged.taps[j]? = some x ∧ admissible x = false) ∨
      (k = 7 ∧ ¬(1 ≤ c.l.toNat ∧ c.l.toNat ≤ s.params.idLenMax)) ∨ (k = 8 ∧ c.s = 0)
    (∃ k, illegal k) →
    ∃ t, exec .cfgCommit s = .next t ∧
      t = { s with block := { s.block with cfgFault := t.block.cfgFault }, sticky := t.sticky,
                   errCmd := 0x0000000000000003 } ∧
      (∀ k, t.block.cfgFault.getLsbD k = true ↔ illegal k) ∧
      StickyAdds [.cfg] s t ∧ SameBytes s t

/-- `STEP` (derived from 47_core R203): the sample goes through the AGC, the downconverter, both filters,
both post-gain stages, both decimators and the synchronizer, each result register holds its stage's
output, and `SAMPLE_COUNT` counts. Each stage's own state is that of its single-stage function. -/
def Obligations.StepCommandResult : Prop :=
  ∀ s : State, s.Ready → admissible s.din0 = true →
    let b := s.block
    let c := b.active.regs
    let agc := agcPush c b.agc s.din0
    let a := clampFS (fullScale c.w) (fmul s.din0 agc.agc.gain)
    let mixed : Arm → Word := fun arm =>
      fmul a (match arm with
        | .i => cosPattern b.ddcPhase
        | .q => sinPattern b.ddcPhase)
    let hist := fun arm => firShift c.n.toNat (b.firBuf.get arm) (mixed arm)
    let filtered := fun arm => dot (b.active.taps.take c.n.toNat) ((hist arm).take c.n.toNat)
    let gained := fun arm => postGain c (filtered arm)
    let dumped := fun arm => idStep c.l.toNat (b.intDump.get arm) (gained arm)
    let valid := (dumped .i).valid
    let emits : Prop := valid = true ∧ b.bs.phase = .sampling ∧ b.bs.scnt = 0
    ∃ t, exec .step s = .next t ∧
      t = { s with block := { t.block with active := b.active, cfgFault := b.cfgFault, mem := b.mem },
                   sticky := t.sticky } ∧
      t.block.agc = agc.agc ∧ t.block.agcOut = a ∧
      t.block.ddcPhase.toNat = (b.ddcPhase.toNat + 1) % 4 ∧
      (∀ arm, t.block.mix.get arm = mixed arm ∧ t.block.firBuf.get arm = hist arm ∧
        t.block.firOut.get arm = filtered arm ∧ t.block.pgOut.get arm = gained arm ∧
        t.block.intDump.get arm = (dumped arm).unit ∧ t.block.idOut.get arm = (dumped arm).out ∧
        t.block.flags.idValid.get arm = (dumped arm).valid) ∧
      t.block.bs = bsAdvance c.s.toNat b.bs valid ∧
      t.block.validCount = b.validCount + (if valid then 1 else 0) ∧
      (emits → t.block.bitCount = b.bitCount + 1 ∧ t.block.flags.bitValid = true ∧
        t.block.flags.bitI = BitVec.ofInt 2 (sgn (dumped .i).out) ∧
        t.block.flags.bitQ = BitVec.ofInt 2 (sgn (dumped .q).out)) ∧
      (¬emits → t.block.bitCount = b.bitCount ∧ t.block.flags.bitValid = false ∧
        t.block.flags.bitI = b.flags.bitI ∧ t.block.flags.bitQ = b.flags.bitQ) ∧
      t.block.sampleCount = b.sampleCount + 1 ∧
      (∀ ev, hasSticky ev t.sticky = true ↔ hasSticky ev s.sticky = true ∨ ev = .cmdDone ∨
        (ev = .agcDegen ∧ agc.degenerate = true) ∨ (ev = .bitReady ∧ emits)) ∧
      SameBytes s t

/-! ## Rejections -/

/-- A sample command whose operand is not admissible sets `ERR_OPERAND` and `ERR_CMD` and has no other
effect, whatever the schedule; `BSYNC_UPDATE` checks both operands even with `V = 0` (derived from
60_exceptions R223). -/
def Obligations.InadmissibleOperandRejected : Prop :=
  ∀ (s : State) (i : Instr), s.Idle →
    ((∃ arm, i ∈ [.agcUpdate, .ddcUpdate, .firUpdate arm, .pgEval arm, .idUpdate arm, .step]) ∧
        admissible s.din0 = false ∨
      (∃ v, i = .bsyncUpdate v) ∧ (admissible s.din0 = false ∨ admissible s.din1 = false)) →
    ∃ t, exec i s = .next t ∧ RejectedWith .operand (encode i) s t ∧ t.draws = s.draws

/-- R224: `Len` is raised by `FIR_APPLY` when `M = 0` and by `ID_APPLY` when `M < L`, with no other effect;
an `ID_APPLY` with `M ≥ L` raises no `Len`, whether or not `L` divides `M`. -/
def Obligations.InsufficientLengthRejected : Prop :=
  ∀ (s : State) (arm : Arm) (count src dst : Nat), s.Idle → 1 ≤ s.block.active.regs.l.toNat →
    (∃ t, exec (.firApply arm 0 src dst) s = .next t ∧
      RejectedWith .len (encode (.firApply arm 0 src dst)) s t) ∧
    (count < s.block.active.regs.l.toNat → ∃ t, exec (.idApply count src dst) s = .next t ∧
      RejectedWith .len (encode (.idApply count src dst)) s t) ∧
    (s.block.active.regs.l.toNat ≤ count → ∃ t, exec (.idApply count src dst) s = .next t ∧
      hasSticky .len t.sticky = hasSticky .len s.sticky)

/-- R225: `Range` is raised by `FIR_APPLY` when `src + M > BUF_DEPTH` or `dst + M > BUF_DEPTH`, and by
`ID_APPLY` when `src + M > BUF_DEPTH` or `dst + floor(M/L) > BUF_DEPTH`, with no other effect. `Len` comes
before it (60_exceptions R229), so the length is sufficient here. -/
def Obligations.BufferOverrunRejected : Prop :=
  ∀ (s : State) (arm : Arm) (count src dst : Nat), s.Idle →
    let l := s.block.active.regs.l.toNat
    (1 ≤ count → s.params.bufDepth < src + count ∨ s.params.bufDepth < dst + count →
      ∃ t, exec (.firApply arm count src dst) s = .next t ∧
        RejectedWith .range (encode (.firApply arm count src dst)) s t) ∧
    (1 ≤ l → l ≤ count → s.params.bufDepth < src + count ∨ s.params.bufDepth < dst + count / l →
      ∃ t, exec (.idApply count src dst) s = .next t ∧
        RejectedWith .range (encode (.idApply count src dst)) s t)

/-- A bulk command in range with some input that is not admissible sets `ERR_OPERAND` and `ERR_CMD` and
writes nothing; an input that nothing has written counts with the free value drawn for it (derived from
60_exceptions R223, 20_memory R82). That this value is `Config.freeWord` of the draw count plus the input's
position is the model's choice (logs 5 and 16). -/
def Obligations.InadmissibleBulkInputRejected : Prop :=
  ∀ (s : State) (arm : Arm) (count src dst : Nat), s.Idle →
    let l := s.block.active.regs.l.toNat
    src + count ≤ s.params.bufDepth →
    (∃ j, j < count ∧ admissible ((wordAt s.block.mem (bufOffset (src + j))).getD
      (Config.freeWord (s.draws + j))) = false) →
    (dst + count ≤ s.params.bufDepth → ∃ t, exec (.firApply arm count src dst) s = .next t ∧
      RejectedWith .operand (encode (.firApply arm count src dst)) s t) ∧
    (1 ≤ l → l ≤ count → dst + count / l ≤ s.params.bufDepth →
      ∃ t, exec (.idApply count src dst) s = .next t ∧
        RejectedWith .operand (encode (.idApply count src dst)) s t)

/-- What no command touches, in any outcome (derived from 00_scope R12, 10_state R25 to R30, 70_reset R260
to R262): the sizes, the staged configuration, the operands, `IRQ_EN`, `ERR_ACCESS`; no command clears a
sticky bit; and no command but `CFG_COMMIT` changes the active configuration. -/
def Obligations.CommandFrame : Prop :=
  ∀ (i : Instr) (s t : State), exec i s = .next t →
    t.params = s.params ∧ t.staged = s.staged ∧ t.din0 = s.din0 ∧ t.din1 = s.din1 ∧
      t.irqEn = s.irqEn ∧ t.errAccess = s.errAccess ∧ t.moves = s.moves ∧ t.readData = s.readData ∧
      (∀ c, hasSticky c s.sticky = true → hasSticky c t.sticky = true) ∧
      (i ≠ .cfgCommit → t.block.active = s.block.active ∧ t.block.cfgFault = s.block.cfgFault) ∧
      ((∀ arm count src dst, i ≠ .firApply arm count src dst) →
        (∀ count src dst, i ≠ .idApply count src dst) → SameBytes s t)

/-! ## Bus accesses -/

/-- R227: an access of another size than 8 bytes, misaligned, to an unmapped offset, or writing a location
that is not writable sets `ERR_ADDR` and `ERR_ACCESS`, whether or not a command is pending; a read returns
0 and a write changes nothing else. No other access raises `Addr`. -/
def Obligations.AddrRaisedExactlyByIllegalAccesses : Prop :=
  ∀ (s : State) (a : Access) (rest : List Move), s.params.Legal → s.moves = .host a :: rest →
    let legal : Prop := a.size = .b8 ∧ mappedOffset s.params a.offset.toNat ∧
      (a.op = .read ∨ writableOffset s.params a.offset.toNat)
    (¬legal → ∃ t, step s = .next t ∧
      t = { s with moves := rest, sticky := t.sticky, readData := t.readData,
                   errAccess := { write := decide (a.op ≠ .read), size := a.size, offset := a.offset } } ∧
      StickyAdds [.addr] s t ∧ t.readData = (if a.op = .read then 0 else s.readData)) ∧
    (legal → ∃ t, step s = .next t ∧
      (hasSticky .addr s.sticky = false → hasSticky .addr t.sticky = false))

/-- A legal read with no command pending returns the exact value of its location and changes nothing else;
only an entry of `BUFMEM` that nothing has written returns a free value (derived from 20_memory R73, R82).
That this value is `Config.freeWord` of the draw count, which then advances, is the model's choice (log 5). -/
def Obligations.IdleReadsAreExactAndSideEffectFree : Prop :=
  ∀ (s : State) (o : Offset) (l : Loc) (rest : List Move), s.Idle →
    s.moves = .host (readAccess o) :: rest → locate s.params o.toNat = some l →
    ∃ t, step s = .next t ∧ t = { s with moves := rest, readData := t.readData, draws := t.draws } ∧
      ((∀ i, l ≠ .buf i) → t.readData = locWord s l ∧ t.draws = s.draws) ∧
      (∀ i v, l = .buf i → wordAt s.block.mem (bufOffset i) = some v → t.readData = v ∧ t.draws = s.draws) ∧
      (∀ i, l = .buf i → written s.block.mem i = false →
        t.readData = Config.freeWord s.draws ∧ t.draws = s.draws + 1)

/-- While a command is pending, a legal read of a result, readback, `ACT_*`, `TAP_ACT`, `CFG_FAULT` or
`BUFMEM` location returns a free value, a new one at each such read; every other legal read returns the
exact value (derived from 20_memory R78). That the free value is `Config.freeWord` of the draw count, which
then advances, is the model's choice (log 5). -/
def Obligations.BusyReadsOfComputedStateAreFree : Prop :=
  ∀ (s : State) (p : Pending) (o : Offset) (rest : List Move), s.params.Legal → s.pending = some p →
    s.moves = .host (readAccess o) :: rest → mappedOffset s.params o.toNat →
    ∃ t, step s = .next t ∧ t = { s with moves := rest, readData := t.readData, draws := t.draws } ∧
      (hiddenOffset s.params o.toNat → t.readData = Config.freeWord s.draws ∧ t.draws = s.draws + 1) ∧
      (¬hiddenOffset s.params o.toNat →
        ∃ l, locate s.params o.toNat = some l ∧ t.readData = locWord s l ∧ t.draws = s.draws)

/-- What an idle host write stores, and that it changes nothing else (derived from 10_state R26, R27, R30
to R39, R42, 20_memory R74). A write to a configuration register or to a tap changes only that staged
register or tap, reserved bits reading 0, and the active copy is untouched until a commit; a write to
`DIN0`, `DIN1` or `IRQ_EN` changes only that register, of `IRQ_EN` bits 10 to 1. -/
def Obligations.ConfigurationWritesAreStaged : Prop :=
  ∀ (s : State) (v : Word) (rest : List Move), s.Idle →
    (∀ (k : Nat) (r : CfgReg) (mask : Word),
      ([(CfgReg.bitWidth, 0x3F), (.bitGain, 0xFFFFFFFF), (.ctrl, 0x7), (.agcLen, 0xFFFF),
        (.agcNsigma, 0xFFFFFFFFFFFFFFFF), (.nTaps, 0xFFFF), (.idLen, 0xFFFF), (.bsDelay, 0xFFFFFFFF),
        (.bsStride, 0xFFFFFFFF)] : List (CfgReg × Word))[k]? = some (r, mask) →
      s.moves = .host (writeAccess (BitVec.ofNat 17 (0x080 + 8 * k)) v) :: rest →
      ∃ t, step s = .next t ∧
        t = { s with moves := rest, staged := { s.staged with regs := t.staged.regs } } ∧
        locWord t (.cfg r) = v &&& mask ∧
        (∀ r', r' ≠ r → locWord t (.cfg r') = locWord s (.cfg r')) ∧
        (∀ r', locWord t (.act r') = locWord s (.act r'))) ∧
    (∀ k, s.params.Legal → k < s.params.nTapsMax → s.staged.taps.length = s.params.nTapsMax →
      s.moves = .host (writeAccess (BitVec.ofNat 17 (0x1000 + 8 * k)) v) :: rest →
      ∃ t, step s = .next t ∧
        t = { s with moves := rest, staged := { s.staged with taps := t.staged.taps } } ∧
        t.staged.taps.length = s.staged.taps.length ∧ t.staged.taps[k]? = some v ∧
        (∀ j, j ≠ k → t.staged.taps[j]? = s.staged.taps[j]?)) ∧
    (s.moves = .host (writeAccess 0x028 v) :: rest → step s = .next { s with moves := rest, din0 := v }) ∧
    (s.moves = .host (writeAccess 0x030 v) :: rest → step s = .next { s with moves := rest, din1 := v }) ∧
    (s.moves = .host (writeAccess 0x020 v) :: rest →
      ∃ t, step s = .next t ∧ t = { s with moves := rest, irqEn := t.irqEn } ∧
        ∀ b, b < 10 → t.irqEn.getLsbD b = v.getLsbD (b + 1))

/-- A write of `v` to `STATUS` clears exactly the bits 1 to 10 that are 1 in `v`, never `BUSY`, also while
busy, and changes nothing else (derived from 10_state R25, 60_exceptions R233). -/
def Obligations.StatusIsWriteOneToClear : Prop :=
  ∀ (s : State) (v : Word) (rest : List Move), s.moves = .host (writeAccess 0x018 v) :: rest →
    ∃ t, step s = .next t ∧ t = { s with moves := rest, sticky := t.sticky } ∧
      ∀ k, (locWord t .status).getLsbD k =
        ((locWord s .status).getLsbD k && (decide (k = 0) || !v.getLsbD k))

/-- The bits of `STATUS` as the host reads it, and the interrupt line (derived from 10_state R25, 60_exceptions
R220, R232): `BUSY` at bit 0, the sticky bit of each cause at its code, nothing above bit 10; and `IRQ` is
high exactly when some bit 1 to 10 is set in both `STATUS` and `IRQ_EN`. -/
def Obligations.IrqIsStatusAndEnable : Prop :=
  ∀ s : State,
    ((locWord s .status).getLsbD 0 = true ↔ s.pending ≠ none) ∧
    (∀ (c : Cause) (k : Nat),
      (c, k) ∈ [(Cause.illegal, 1), (.cfg, 2), (.operand, 3), (.len, 4), (.range, 5), (.busy, 6),
        (.addr, 7), (.agcDegen, 8), (.cmdDone, 9), (.bitReady, 10)] →
      (locWord s .status).getLsbD k = hasSticky c s.sticky) ∧
    (∀ k, 11 ≤ k → (locWord s .status).getLsbD k = false) ∧
    (s.irq = true ↔ ∃ k, 1 ≤ k ∧ k ≤ 10 ∧ (locWord s .status).getLsbD k = true ∧
      (locWord s .irqEn).getLsbD k = true)

/-- What the host reads at every offset of the register map, in a sound idle state, said from the fields of
the state and the layouts of the spec (derived from 10_state R21 to R29, R31 to R52, 20_memory R73, R80): the
constants, the operands, the error registers, both copies of the configuration and of the taps, the result
registers, the fields of `FLAGS`, the readback registers that show the internal state, the counters, and
the entries of `BUFMEM` that something has written. -/
def Obligations.ReadbackRegistersShowInternalState : Prop :=
  ∀ (s : State) (o : Offset) (rest : List Move), s.Sound → s.Idle →
    s.moves = .host (readAccess o) :: rest →
    let b := s.block
    ∃ t, step s = .next t ∧
      (o = 0x000 → t.readData = 0x5144444300010000) ∧
      (o = 0x008 → t.readData.toNat = s.params.agcLenMax + s.params.nTapsMax * 2 ^ 16 +
        s.params.idLenMax * 2 ^ 32 + s.params.bufDepth * 2 ^ 48) ∧
      (o = 0x010 → t.readData = 0) ∧
      (o = 0x018 → ∀ k, t.readData.getLsbD k = (decide (1 ≤ k ∧ k ≤ 10) && s.sticky.getLsbD (k - 1))) ∧
      (o = 0x020 → ∀ k, t.readData.getLsbD k = (decide (1 ≤ k ∧ k ≤ 10) && s.irqEn.getLsbD (k - 1))) ∧
      (o = 0x028 → t.readData = s.din0) ∧
      (o = 0x030 → t.readData = s.din1) ∧
      (o = 0x038 → t.readData = s.errCmd) ∧
      (o = 0x040 → t.readData.extractLsb' 0 17 = s.errAccess.offset ∧
        t.readData.extractLsb' 17 2 = (match s.errAccess.size with
          | .b1 => 0
          | .b2 => 1
          | .b4 => 2
          | .b8 => 3) ∧
        t.readData.extractLsb' 19 44 = 0 ∧ t.readData.getLsbD 63 = s.errAccess.write) ∧
      (o = 0x048 → t.readData.toNat = b.cfgFault.toNat) ∧
      (∀ base c, (base, c) ∈ [(0x080, s.staged.regs), (0x100, b.active.regs)] →
        (o = base → t.readData.toNat = c.w.toNat) ∧
        (o = base + 0x08 → t.readData.toNat = c.g.toNat) ∧
        (o = base + 0x10 → t.readData.toNat = c.pgEn.toNat + 2 * c.pgCast.toNat) ∧
        (o = base + 0x18 → t.readData.toNat = c.k.toNat) ∧
        (o = base + 0x20 → t.readData = c.nsigma) ∧
        (o = base + 0x28 → t.readData.toNat = c.n.toNat) ∧
        (o = base + 0x30 → t.readData.toNat = c.l.toNat) ∧
        (o = base + 0x38 → t.readData.toNat = c.d.toNat) ∧
        (o = base + 0x40 → t.readData.toNat = c.s.toNat)) ∧
      (o = 0x180 → t.readData = b.agcOut) ∧
      (o = 0x188 → t.readData = b.mix.i) ∧
      (o = 0x190 → t.readData = b.mix.q) ∧
      (o = 0x198 → t.readData = b.firOut.i) ∧
      (o = 0x1A0 → t.readData = b.firOut.q) ∧
      (o = 0x1A8 → t.readData = b.pgOut.i) ∧
      (o = 0x1B0 → t.readData = b.pgOut.q) ∧
      (o = 0x1B8 → t.readData = b.idOut.i) ∧
      (o = 0x1C0 → t.readData = b.idOut.q) ∧
      (o = 0x1C8 → t.readData.extractLsb' 0 2 = b.flags.bitI ∧ t.readData.extractLsb' 2 2 = b.flags.bitQ ∧
        t.readData.getLsbD 4 = b.flags.idValid.i ∧ t.readData.getLsbD 5 = b.flags.idValid.q ∧
        t.readData.getLsbD 6 = b.flags.bitValid ∧ t.readData.extractLsb' 7 57 = 0) ∧
      (o = 0x200 → t.readData = b.agc.gain) ∧
      (o = 0x208 → t.readData.toNat = b.agc.pos) ∧
      (o = 0x210 → t.readData.toNat = b.ddcPhase.toNat) ∧
      (o = 0x218 → t.readData.toNat = b.intDump.i.cnt) ∧
      (o = 0x220 → t.readData.toNat = b.intDump.q.cnt) ∧
      (o = 0x228 → t.readData = if b.bs.phase = .sampling then 1 else 0) ∧
      (o = 0x230 → t.readData.toNat = b.bs.dcnt.toNat) ∧
      (o = 0x238 → t.readData.toNat = b.bs.scnt) ∧
      (o = 0x240 → t.readData = b.sampleCount) ∧
      (o = 0x248 → t.readData = b.validCount) ∧
      (o = 0x250 → t.readData = b.bitCount) ∧
      (∀ k x, o.toNat = 0x1000 + 8 * k → s.staged.taps[k]? = some x → t.readData = x) ∧
      (∀ k x, o.toNat = 0x2000 + 8 * k → b.active.taps[k]? = some x → t.readData = x) ∧
      (∀ i x, o.toNat = 0x10000 + 8 * i → i < s.params.bufDepth →
        wordAt b.mem (bufOffset i) = some x → t.readData = x)

/-- A host write to `BUFMEM[i]` with no command pending is read back, stands in memory byte by byte with
the low byte first, and leaves every other byte alone (derived from 20_memory R71, R74, R80, R82). -/
def Obligations.BufferWriteIsReadBack : Prop :=
  ∀ (s : State) (i : Nat) (v : Word) (rest : List Move), s.Idle → i < s.params.bufDepth →
    s.params.Legal →
    let o := BitVec.ofNat 17 (0x10000 + 8 * i)
    s.moves = .host (writeAccess o v) :: .host (readAccess o) :: rest →
    ∃ t u, step s = .next t ∧ step t = .next u ∧ u.readData = v ∧
      t = { s with moves := .host (readAccess o) :: rest, block := { s.block with mem := t.block.mem } } ∧
      (∀ j, j < 8 → byteAt t.block.mem (0x10000 + 8 * i + j) = some (v.extractLsb' (8 * j) 8)) ∧
      SameBytesOutside i 1 s t

/-! ## Invariants -/

/-- The reset state of any implementation is sound and holds only finite values (10_state R61, R62). -/
def Obligations.ResetStateIsSoundAndFinite : Prop :=
  ∀ p : Params, p.Legal → (State.resetWith p).Sound ∧ (State.resetWith p).Finite

/-- Every step keeps the structural invariant (10_state R61), whatever the schedule. -/
def Obligations.StepKeepsSoundness : Prop :=
  ∀ s t : State, s.Sound → step s = .next t → t.Sound

/-- Every step from a sound state keeps the numeric invariant: no NaN and no infinity is ever stored
(10_state R61, 40_numerics R135). -/
def Obligations.StepKeepsFiniteValues : Prop :=
  ∀ s t : State, s.Sound → s.Finite → step s = .next t → t.Finite

/-! ## Properties of the datapath -/

/-- R144: every `AGC_OUT` that `AGC_UPDATE` or `STEP` writes lies between `-FS` and `FS`. The gain is finite
in every state that the numeric invariant holds of. -/
def Obligations.AgcOutputWithinFullScale : Prop :=
  ∀ (s : State) (i : Instr), s.Ready → admissible s.din0 = true → isfinite s.block.agc.gain = true →
    i = .agcUpdate ∨ i = .step →
    let fs := fullScale s.block.active.regs.w
    ∃ t, exec i s = .next t ∧ fle (fneg fs) t.block.agcOut = true ∧ fle t.block.agcOut fs = true

/-- From an AGC clear, the gain changes only at every `K`-th `AGC_UPDATE`, and then only to
`FS / (NSIGMA * pstd(the last K inputs))`, unless the recompute is degenerate (derived from 41_agc R145,
which also covers the same function inside `STEP`). -/
def Obligations.AgcGainCadence : Prop :=
  ∀ (s : State) (xs : List Word), s.Ready → (∀ x ∈ xs, admissible x = true) →
    let c := s.block.active.regs
    1 ≤ c.k.toNat → c.k.toNat ≤ s.params.agcLenMax →
    ∃ s0 ts, nextOf .agcClear s = some s0 ∧ feedAll .agcUpdate xs s0 = some ts ∧ ts.length = xs.length ∧
      ∀ n before after, (s0 :: ts)[n]? = some before → ts[n]? = some after →
        after.block.agc.pos = (n + 1) % c.k.toNat ∧
        ((n + 1) % c.k.toNat ≠ 0 → after.block.agc.gain = before.block.agc.gain) ∧
        ((n + 1) % c.k.toNat = 0 →
          let den := fmul c.nsigma (pstd ((xs.drop (n + 1 - c.k.toNat)).take c.k.toNat))
          let g := fdiv (fullScale c.w) den
          if feq den 0 = true ∨ isfinite g = false then
            after.block.agc.gain = before.block.agc.gain ∧ hasSticky .agcDegen after.sticky = true
          else after.block.agc.gain = g)

/-- The `n`-th `DDC_UPDATE` since a DDC clear, counting from 0, returns the `n`-th sample times the
`n mod 4`-th pattern entries (derived from 42_ddc R153, which also covers the same function inside `STEP`). -/
def Obligations.DdcOutputHasPeriodFour : Prop :=
  ∀ (s : State) (xs : List Word), s.Ready → (∀ x ∈ xs, admissible x = true) →
    ∃ s0 ts, nextOf .ddcClear s = some s0 ∧ feedAll .ddcUpdate xs s0 = some ts ∧ ts.length = xs.length ∧
      ∀ n x t cos4 sin4, xs[n]? = some x → ts[n]? = some t →
        ([0x3FF0000000000000, 0, 0xBFF0000000000000, 0] : List Word)[n % 4]? = some cos4 →
        ([0, 0x3FF0000000000000, 0, 0xBFF0000000000000] : List Word)[n % 4]? = some sin4 →
        t.block.mix = { i := fmul x cos4, q := fmul x sin4 }

/-- R164: the outputs of `FIR_APPLY` are, bit for bit, the `FIR_arm` values of `FIR_CLEAR` followed by one
`FIR_UPDATE` for each input, and the arm is left in the same state. -/
def Obligations.BulkFilterEqualsStreaming : Prop :=
  ∀ (s : State) (arm : Arm) (count src dst : Nat), s.Ready → 1 ≤ count →
    src + count ≤ s.params.bufDepth → dst + count ≤ s.params.bufDepth →
    (∀ x ∈ bulkInputs s src count, admissible x = true) →
    ∃ c ts t, nextOf (.firClear arm) s = some c ∧
      feedAll (.firUpdate arm) (bulkInputs s src count) c = some ts ∧ ts.length = count ∧
      nextOf (.firApply arm count src dst) s = some t ∧
      (∀ j u, ts[j]? = some u →
        wordAt t.block.mem (bufOffset (dst + j)) = some (u.block.firOut.get arm)) ∧
      (∀ u, ts[count - 1]? = some u → t.block.firBuf = u.block.firBuf ∧ t.block.firOut = u.block.firOut)

/-- R185: starting from a cleared arm, `ID_UPDATE` is valid exactly at every `L`-th input, and its `n`-th
valid output is, bit for bit, output `n - 1` of `ID_APPLY` on the same inputs. -/
def Obligations.StreamingMeansEqualBulkMeans : Prop :=
  ∀ (s : State) (arm : Arm) (count src dst : Nat), s.Ready →
    let l := s.block.active.regs.l.toNat
    1 ≤ l → l ≤ s.params.idLenMax → l ≤ count →
    src + count ≤ s.params.bufDepth → dst + count / l ≤ s.params.bufDepth →
    (∀ x ∈ bulkInputs s src count, admissible x = true) →
    ∃ c ts t, nextOf (.idClear arm) s = some c ∧
      feedAll (.idUpdate arm) (bulkInputs s src count) c = some ts ∧ ts.length = count ∧
      nextOf (.idApply count src dst) s = some t ∧
      (∀ j u, ts[j]? = some u → (u.block.flags.idValid.get arm = true ↔ (j + 1) % l = 0)) ∧
      (∀ n u, 1 ≤ n → ts[n * l - 1]? = some u →
        wordAt t.block.mem (bufOffset (dst + (n - 1))) = some (u.block.idOut.get arm))

/-- R172: with `PG_EN = 1`, a post-gain result lies between `-FS` and `FS`; when `PG_CAST` is not 0 either it
is an integer, of at most `2^(W-1) - 1`. -/
def Obligations.PostGainWithinFullScale : Prop :=
  ∀ (c : CfgRegs) (v : Word), c.pgEn = true → c.pgCast ≠ 3 → 2 ≤ c.w.toNat → c.w.toNat ≤ 53 →
    isfinite v = true →
    fle (fneg (fullScale c.w)) (postGain c v) = true ∧ fle (postGain c v) (fullScale c.w) = true ∧
    (c.pgCast ≠ 0 → ∃ n : Int, postGain c v = i2f n ∧ |n| ≤ 2 ^ (c.w.toNat - 1) - 1)

/-- Derived from 46_bitsync R194 and R195: in a run of synchronizer updates from a clear in which `n` valid inputs arrive,
`VALID_COUNT = n`, and `BIT_COUNT` is 0 up to the delay `D` and `ceil((n - D) / S)` past it, so never more
than `n - D`. -/
def Obligations.BitCountLaw : Prop :=
  ∀ (s : State) (vs : List Bool), s.Ready → admissible s.din0 = true → admissible s.din1 = true →
    let n := vs.count true
    let d := s.block.active.regs.d.toNat
    let stride := s.block.active.regs.s.toNat
    1 ≤ stride → n < 2 ^ 64 →
    ∃ c ts t, nextOf .bsyncClear s = some c ∧ syncAll vs c = some ts ∧ ts.length = vs.length ∧
      (c :: ts)[vs.length]? = some t ∧ t.block.validCount.toNat = n ∧
      (n ≤ d → t.block.bitCount.toNat = 0) ∧
      (d < n → t.block.bitCount.toNat = (n - d + (stride - 1)) / stride) ∧
      t.block.bitCount.toNat ≤ n - d

/-- R204: a `STEP` leaves the state of the nine single-stage commands fed in sequence, apart from
`SAMPLE_COUNT` and the operand registers, whenever every intermediate value is admissible. -/
def Obligations.StepEqualsItsStages : Prop :=
  ∀ s s1 s2 s3 s4 s5 s6 s7 s8 s9 : State, s.Ready →
    admissible s.din0 = true → nextOf .agcUpdate s = some s1 →
    admissible s1.block.agcOut = true → feed .ddcUpdate s1.block.agcOut s1 = some s2 →
    admissible s2.block.mix.i = true → feed (.firUpdate .i) s2.block.mix.i s2 = some s3 →
    admissible s3.block.mix.q = true → feed (.firUpdate .q) s3.block.mix.q s3 = some s4 →
    admissible s4.block.firOut.i = true → feed (.pgEval .i) s4.block.firOut.i s4 = some s5 →
    admissible s5.block.firOut.q = true → feed (.pgEval .q) s5.block.firOut.q s5 = some s6 →
    admissible s6.block.pgOut.i = true → feed (.idUpdate .i) s6.block.pgOut.i s6 = some s7 →
    admissible s7.block.pgOut.q = true → feed (.idUpdate .q) s7.block.pgOut.q s7 = some s8 →
    admissible s8.block.idOut.i = true → admissible s8.block.idOut.q = true →
    feed (.bsyncUpdate s8.block.flags.idValid.i) s8.block.idOut.i { s8 with din1 := s8.block.idOut.q } =
      some s9 →
    exec .step s = .next { s9 with
      din0 := s.din0, din1 := s.din1,
      block := { s9.block with sampleCount := s.block.sampleCount + 1 } }

/-- From a state in which the arms' decimators are at the same count, as after `CLEAR_ALL` or a commit,
every run of `STEP`s keeps them so and gives both arms the same valid flag (derived from 47_core R205). -/
def Obligations.ArmsStayInLockstep : Prop :=
  (∀ s : State, s.Ready → ∃ t, exec .clearAll s = .next t ∧
    t.block.intDump.i.cnt = t.block.intDump.q.cnt) ∧
  (∀ (s : State) (xs : List Word), s.Ready → s.block.intDump.i.cnt = s.block.intDump.q.cnt →
    (∀ x ∈ xs, admissible x = true) →
    ∃ ts, feedAll .step xs s = some ts ∧ ts.length = xs.length ∧
      ∀ t ∈ ts, t.block.intDump.i.cnt = t.block.intDump.q.cnt ∧
        t.block.flags.idValid.i = t.block.flags.idValid.q)

/-! ## Rounding

A finite value is `units` times `2^-1074`. The statements are about operands and results in that unit. -/

/-- The sum of finite operands is correctly rounded (derived from 40_numerics R121): it is finite unless the
exact sum rounds past the largest finite value, and is then the infinity of the exact sum's sign; no finite
value is nearer to the exact sum, and of two nearest values it has an even fraction; an exact zero is
`-0.0` for two negative zeros and `+0.0` for any other operands. -/
def Obligations.AdditionRoundsToNearestEven : Prop :=
  ∀ a b : Word, isfinite a = true → isfinite b = true →
    let exact := units a + units b
    let r := fadd a b
    (isfinite r = true ↔ exact.natAbs < ((1 <<< 54) - 1) <<< 2044) ∧
    (isfinite r = false → r = if exact < 0 then 0xFFF0000000000000 else 0x7FF0000000000000) ∧
    (exact = 0 → r = if signBit a = true ∧ signBit b = true then 0x8000000000000000 else 0) ∧
    (isfinite r = true → ∀ c, isfinite c = true → units c ≠ units r →
      |exact - units r| < |exact - units c| ∨
        (|exact - units r| = |exact - units c| ∧ r.getLsbD 0 = false))

/-- The product of finite operands is correctly rounded (derived from 40_numerics R121): its sign is the
exclusive or of the signs, of a zero too, and past the largest finite value it is the infinity of that sign. -/
def Obligations.MultiplicationRoundsToNearestEven : Prop :=
  ∀ a b : Word, isfinite a = true → isfinite b = true →
    let exact := units a * units b
    let r := fmul a b
    signBit r = (signBit a != signBit b) ∧
    (isfinite r = true ↔ exact.natAbs < (((1 <<< 54) - 1) <<< 2044) * oneUnits) ∧
    (isfinite r = false →
      r = if signBit a = signBit b then 0x7FF0000000000000 else 0xFFF0000000000000) ∧
    (isfinite r = true → ∀ c, isfinite c = true → units c ≠ units r →
      |exact - oneUnits * units r| < |exact - oneUnits * units c| ∨
        (|exact - oneUnits * units r| = |exact - oneUnits * units c| ∧ r.getLsbD 0 = false))

/-- The quotient of finite operands is correctly rounded (derived from 40_numerics R121): by a nonzero one
its sign is the exclusive or of the signs, and past the largest finite value it is the infinity of that
sign, as is the quotient of a nonzero value by a zero; a zero divided by a zero is a NaN, of which nothing
more is said (log 7). -/
def Obligations.DivisionRoundsToNearestEven : Prop :=
  ∀ a b : Word, isfinite a = true → isfinite b = true →
    let r := fdiv a b
    let infinity : Word := if signBit a = signBit b then 0x7FF0000000000000 else 0xFFF0000000000000
    (units b ≠ 0 → signBit r = (signBit a != signBit b) ∧
      (isfinite r = true ↔
        magUnits a * oneUnits < (((1 <<< 54) - 1) <<< 2044) * magUnits b) ∧
      (isfinite r = false → r = infinity) ∧
      (isfinite r = true → ∀ c, isfinite c = true → units c ≠ units r →
        |units a * oneUnits - units b * units r| < |units a * oneUnits - units b * units c| ∨
          (|units a * oneUnits - units b * units r| = |units a * oneUnits - units b * units c| ∧
            r.getLsbD 0 = false))) ∧
    (units b = 0 → units a ≠ 0 → r = infinity) ∧
    (units b = 0 → units a = 0 → isNaN r = true)

/-- The square root of a finite operand that is not negative is correctly rounded (derived from 40_numerics
R121); of a zero it is that zero. -/
def Obligations.SquareRootRoundsToNearest : Prop :=
  ∀ a : Word, isfinite a = true → 0 ≤ units a →
    let root : ℝ := Real.sqrt ((magUnits a * oneUnits : Nat) : ℝ)
    let r := fsqrt a
    isfinite r = true ∧ (units a = 0 → r = a) ∧ 0 ≤ units r ∧
      ∀ c, isfinite c = true → units c ≠ units r → |root - (units r : ℝ)| < |root - (units c : ℝ)|

/-- R131: `clampFS` returns a value between `-FS` and `FS` unchanged, bit for bit, and any other value that is
no NaN, the infinities among them, as the bound on its side. -/
def Obligations.ClampKeepsOrBounds : Prop :=
  ∀ (w : BitVec 6) (v : Word), isNaN v = false →
    let fs := fullScale w
    (flt v (fneg fs) = true → clampFS fs v = fneg fs) ∧
    (fgt v fs = true → clampFS fs v = fs) ∧
    (fle (fneg fs) v = true → fle v fs = true → clampFS fs v = v) ∧
    clampFS fs 0xFFF0000000000000 = fneg fs ∧ clampFS fs 0x7FF0000000000000 = fs
end

