-- ==== Sys2Proof/Laws/Flags.lean ====
section
/-! SUPPORT. What setting, testing and acknowledging sticky `STATUS` bits can do, and how `STATUS`
reads (10_state R25). -/

namespace Sys2Proof.Machine

theorem code_injective {c d : Cause} (h : c.code = d.code) : c = d := by
  cases c <;> cases d <;> first | rfl | simp [Cause.code] at h

theorem code_range (c : Cause) : 1 ≤ c.code ∧ c.code ≤ 10 := by cases c <;> decide

@[simp] theorem hasSticky_setSticky (c d : Cause) (x : BitVec 10) :
    hasSticky c (setSticky d x) = (hasSticky c x || decide (c = d)) := by
  have hc := code_range c
  have hd := code_range d
  have key : decide (c = d) = decide (c.code - 1 = d.code - 1) := by
    by_cases h : c = d
    · simp [h]
    · have : c.code ≠ d.code := fun e => h (code_injective e)
      have : c.code - 1 ≠ d.code - 1 := by omega
      simp [h, this]
  rw [key]
  simp only [hasSticky, setSticky, Cause.mask, BitVec.getLsbD_or, BitVec.getLsbD_shiftLeft]
  congr 1
  by_cases h : c.code - 1 = d.code - 1
  · simp [h]; omega
  · by_cases hlt : c.code - 1 < d.code - 1
    · simp [hlt, h]
    · have : c.code - 1 - (d.code - 1) ≠ 0 := by omega
      simp [h, BitVec.getLsbD_one, this]

@[simp] theorem hasSticky_setStickyIf (b : Bool) (c d : Cause) (x : BitVec 10) :
    hasSticky c (setStickyIf b d x) = (hasSticky c x || (b && decide (c = d))) := by
  cases b <;> simp [setStickyIf]

theorem hasSticky_completionSticky (e : Effects) (c : Cause) (x : BitVec 10) :
    hasSticky c (completionSticky e x) =
      (hasSticky c x || (e.agcDegen && decide (c = .agcDegen)) ||
        (e.bitReady && decide (c = .bitReady)) || decide (c = .cmdDone)) := by
  simp [completionSticky]

theorem hasSticky_ackSticky (v : Word) (c : Cause) (x : BitVec 10) :
    hasSticky c (ackSticky v x) = (hasSticky c x && !v.getLsbD c.code) := by
  have hc := code_range c
  have h1 : 1 + (c.code - 1) = c.code := by omega
  have h2 : c.code - 1 < 10 := by omega
  simp [hasSticky, ackSticky, h1, h2]

/-- The sticky field is determined by its ten causes. -/
theorem sticky_ext {x y : BitVec 10} (h : ∀ c, hasSticky c x = hasSticky c y) : x = y := by
  apply BitVec.eq_of_getLsbD_eq
  intro k hk
  have : k = 0 ∨ k = 1 ∨ k = 2 ∨ k = 3 ∨ k = 4 ∨ k = 5 ∨ k = 6 ∨ k = 7 ∨ k = 8 ∨ k = 9 := by omega
  rcases this with rfl | rfl | rfl | rfl | rfl | rfl | rfl | rfl | rfl | rfl
  · exact h .illegal
  · exact h .cfg
  · exact h .operand
  · exact h .len
  · exact h .range
  · exact h .busy
  · exact h .addr
  · exact h .agcDegen
  · exact h .cmdDone
  · exact h .bitReady

/-- Bit `k` of the word a read of `STATUS` returns. -/
theorem statusWord_bit (busy : Bool) (x : BitVec 10) (k : Nat) :
    (statusWord busy x).getLsbD k = if k = 0 then busy else decide (k ≤ 10) && x.getLsbD (k - 1) := by
  have h : (statusWord busy x).getLsbD k =
      if k < 10 + 1 then (if k < 1 then (BitVec.ofBool busy).getLsbD k else x.getLsbD (k - 1))
      else (0 : BitVec 53).getLsbD (k - (10 + 1)) :=
    (BitVec.getLsbD_append (x := (0 : BitVec 53)) (y := x ++ BitVec.ofBool busy) (i := k)).trans
      (by rw [BitVec.getLsbD_append])
  rw [h]
  rcases Nat.eq_zero_or_pos k with rfl | hk
  · cases busy <;> rfl
  · have hk0 : k ≠ 0 := by omega
    by_cases h10 : k ≤ 10
    · simp [hk0, h10, show k < 11 by omega]
    · simp [hk0, h10, show ¬k < 11 by omega]

/-- Bit `k` of a field at bits `[10:1]`. -/
theorem fieldTenToOne_bit (x : BitVec 10) (k : Nat) :
    (fieldTenToOne x).getLsbD k = (decide (1 ≤ k ∧ k ≤ 10) && x.getLsbD (k - 1)) := by
  have h : fieldTenToOne x = statusWord false x := rfl
  rw [h, statusWord_bit]
  rcases Nat.eq_zero_or_pos k with rfl | hk
  · simp
  · have hk0 : k ≠ 0 := by omega
    have h1 : 1 ≤ k := hk
    simp [hk0, h1]

/-! ### The words of the registers as sums of their fields -/

theorem toNat_append_eq_add {n m : Nat} (x : BitVec n) (y : BitVec m) :
    (x ++ y).toNat = x.toNat * 2 ^ m + y.toNat := by
  rw [BitVec.toNat_append, ← Nat.shiftLeft_add_eq_or_of_lt y.isLt, Nat.shiftLeft_eq]

/-- The fields of `FLAGS` at their bits (10_state R47). -/
theorem Flags.toNat_word (f : Flags) :
    f.word.toNat = f.bitI.toNat + f.bitQ.toNat * 2 ^ 2 + f.idValid.i.toNat * 2 ^ 4 +
      f.idValid.q.toNat * 2 ^ 5 + f.bitValid.toNat * 2 ^ 6 := by
  unfold Flags.word
  repeat rw [toNat_append_eq_add]
  simp only [BitVec.toNat_ofBool, BitVec.ofNat_eq_ofNat, BitVec.toNat_ofNat]
  omega

/-- The fields of `ERR_ACCESS` at their bits (10_state R29). -/
theorem AccessInfo.toNat_word (a : AccessInfo) :
    a.word.toNat = a.offset.toNat + a.size.code.toNat * 2 ^ 17 + a.write.toNat * 2 ^ 63 := by
  unfold AccessInfo.word
  repeat rw [toNat_append_eq_add]
  simp only [BitVec.toNat_ofBool, BitVec.ofNat_eq_ofNat, BitVec.toNat_ofNat]
  omega

end Sys2Proof.Machine
end

