-- ==== Sys2Proof/Laws/Memory.lean ====
section
/-! SUPPORT. The laws of `BUFMEM`: a read after a write gives the value written, a write leaves every
other byte alone, and every operation keeps the canonical form. -/

namespace Sys2Proof.Machine

/-! ### One byte -/

theorem byteAt_setByte (m : Memory) (a b : Nat) (v : Byte) :
    byteAt (setByte m a v) b = if b = a then some v else byteAt m b := by
  induction m with
  | nil => by_cases h : a = b <;> simp [setByte, byteAt, h, eq_comm]
  | cons cell m ih =>
    obtain ⟨k, c⟩ := cell
    by_cases h1 : a < k
    · by_cases h : b = a
      · subst h; simp [setByte, byteAt, h1]
      · simp [setByte, byteAt, h1, h, Ne.symm h]
    · by_cases h2 : a = k
      · subst h2
        by_cases h : b = a
        · subst h; simp [setByte, byteAt]
        · simp [setByte, byteAt, h, Ne.symm h]
      · by_cases h : b = a
        · subst h; simp [setByte, byteAt, h1, h2, Ne.symm h2, ih]
        · simp [setByte, byteAt, h1, h2, ih, h]

/-- Every address a store lists was listed before or is the one stored to. -/
theorem mem_keys_setByte {m : Memory} {a k : Nat} {v : Byte}
    (h : k ∈ (setByte m a v).map Prod.fst) : k = a ∨ k ∈ m.map Prod.fst := by
  induction m with
  | nil => simpa [setByte] using h
  | cons cell m ih =>
    obtain ⟨k', c⟩ := cell
    simp only [setByte] at h
    split at h
    · simpa using h
    · split at h
      · rename_i _ heq; subst heq; simp_all
      · simp only [List.map_cons, List.mem_cons] at h ⊢
        rcases h with rfl | h
        · exact .inr (.inl rfl)
        · rcases ih h with rfl | h
          · exact .inl rfl
          · exact .inr (.inr h)

theorem wf_setByte {m : Memory} (h : m.wf) (a : Nat) (v : Byte) : (setByte m a v).wf := by
  induction m with
  | nil => simp [Memory.wf, setByte]
  | cons cell m ih =>
    obtain ⟨k, c⟩ := cell
    simp only [Memory.wf, List.map_cons, List.pairwise_cons] at h
    simp only [setByte]
    split
    · rename_i hlt
      simp only [Memory.wf, List.map_cons, List.pairwise_cons, List.mem_cons]
      refine ⟨fun x hx => ?_, h⟩
      rcases hx with rfl | hx
      · exact hlt
      · exact lt_trans hlt (h.1 x hx)
    · split
      · rename_i _ heq
        subst heq
        simpa only [Memory.wf, List.map_cons, List.pairwise_cons] using h
      · rename_i hnlt hne
        simp only [Memory.wf, List.map_cons, List.pairwise_cons]
        refine ⟨fun x hx => ?_, ih h.2⟩
        rcases mem_keys_setByte hx with rfl | hx
        · omega
        · exact h.1 x hx

/-! ### A 64-bit value -/

theorem byteAt_setBytes (m : Memory) (a : Nat) (v : Word) (n b : Nat) :
    byteAt (setBytes m a v n) b =
      if a ≤ b ∧ b < a + n then some (wordByte v (b - a)) else byteAt m b := by
  induction n with
  | zero => simp only [setBytes]; split <;> [omega; rfl]
  | succ n ih =>
    rw [setBytes, byteAt_setByte, ih]
    by_cases h : b = a + n
    · subst h; simp
    · by_cases h' : a ≤ b ∧ b < a + n
      · have : a ≤ b ∧ b < a + (n + 1) := by omega
        simp [h, h', this]
      · have : ¬(a ≤ b ∧ b < a + (n + 1)) := by omega
        simp [h, h', this]

/-- What a read of one byte gives after an entry has been written (20_memory R71, R81). -/
theorem byteAt_bufWrite (m : Memory) (i : Nat) (v : Word) (b : Nat) :
    byteAt (bufWrite m i v) b =
      if bufOffset i ≤ b ∧ b < bufOffset i + 8 then some (wordByte v (b - bufOffset i))
      else byteAt m b :=
  byteAt_setBytes m (bufOffset i) v 8 b

theorem wf_setBytes {m : Memory} (h : m.wf) (a : Nat) (v : Word) (n : Nat) : (setBytes m a v n).wf := by
  induction n with
  | zero => exact h
  | succ n ih => exact wf_setByte ih _ _

theorem wf_bufWrite {m : Memory} (h : m.wf) (i : Nat) (v : Word) : (bufWrite m i v).wf :=
  wf_setBytes h _ _ _

/-- Nothing is listed at reset, for any sizes. -/
theorem wf_reset (p : Params) : (State.resetWith p).block.mem.wf := List.Pairwise.nil

theorem wf_bufWriteAll {m : Memory} (h : m.wf) (dst : Nat) (vs : List Word) :
    (bufWriteAll m dst vs).wf := by
  induction vs generalizing m dst with
  | nil => exact h
  | cons v vs ih => exact ih (wf_bufWrite h dst v) (dst + 1)

/-- A word is made of its eight bytes, the first least significant (20_memory R71). -/
theorem wordOfBytes_wordByte (v : Word) :
    wordOfBytes (wordByte v 0) (wordByte v 1) (wordByte v 2) (wordByte v 3) (wordByte v 4)
      (wordByte v 5) (wordByte v 6) (wordByte v 7) = v := by
  apply BitVec.eq_of_getLsbD_eq
  intro k hk
  simp only [wordOfBytes, wordByte, BitVec.getLsbD_append, BitVec.getLsbD_extractLsb']
  grind

/-- `wordAt` reads eight bytes only. -/
theorem wordAt_congr {m m' : Memory} {a : Nat}
    (h : ∀ b, a ≤ b → b < a + 8 → byteAt m' b = byteAt m b) : wordAt m' a = wordAt m a := by
  simp only [wordAt, h a (by omega) (by omega), h (a + 1) (by omega) (by omega),
    h (a + 2) (by omega) (by omega), h (a + 3) (by omega) (by omega), h (a + 4) (by omega) (by omega),
    h (a + 5) (by omega) (by omega), h (a + 6) (by omega) (by omega), h (a + 7) (by omega) (by omega)]

theorem wordAt_of_bytes {m : Memory} {a : Nat} {v : Word}
    (h : ∀ j, j < 8 → byteAt m (a + j) = some (wordByte v j)) : wordAt m a = some v := by
  have h0 := h 0 (by omega)
  rw [Nat.add_zero] at h0
  simp only [wordAt, h0, h 1 (by omega), h 2 (by omega), h 3 (by omega), h 4 (by omega),
    h 5 (by omega), h 6 (by omega), h 7 (by omega), wordOfBytes_wordByte]

theorem bufOffset_injective {i j : Nat} (h : bufOffset i = bufOffset j) : i = j := by
  simp only [bufOffset] at h; omega

/-- Reading an entry after a write to an entry (20_memory R81). -/
theorem wordAt_bufWrite (m : Memory) (i j : Nat) (v : Word) :
    wordAt (bufWrite m i v) (bufOffset j) = if j = i then some v else wordAt m (bufOffset j) := by
  by_cases h : j = i
  · subst h
    simp only [if_true]
    apply wordAt_of_bytes
    intro k hk
    rw [byteAt_bufWrite, if_pos (by omega), Nat.add_sub_cancel_left]
  · rw [if_neg h]
    apply wordAt_congr
    intro b h1 h2
    rw [byteAt_bufWrite, if_neg]
    simp only [bufOffset] at *
    omega

@[simp] theorem written_bufWrite (m : Memory) (i j : Nat) (v : Word) :
    written (bufWrite m i v) j = (decide (j = i) || written m j) := by
  by_cases h : j = i <;> simp [written, wordAt_bufWrite, h]

/-! ### A run of entries -/

/-- What a read of one byte gives after a run of entries has been written, outside the run. -/
theorem byteAt_bufWriteAll_outside (m : Memory) (dst : Nat) (vs : List Word) (b : Nat)
    (h : ¬(bufOffset dst ≤ b ∧ b < bufOffset (dst + vs.length))) :
    byteAt (bufWriteAll m dst vs) b = byteAt m b := by
  induction vs generalizing m dst with
  | nil => rfl
  | cons v vs ih =>
    simp only [List.length_cons, bufOffset] at h
    rw [bufWriteAll, ih, byteAt_bufWrite, if_neg]
    · simp only [bufOffset]; omega
    · simp only [bufOffset]; omega

/-- Reading an entry after a run of entries has been written. -/
theorem wordAt_bufWriteAll (m : Memory) (dst : Nat) (vs : List Word) (i : Nat) :
    wordAt (bufWriteAll m dst vs) (bufOffset i) =
      if dst ≤ i ∧ i < dst + vs.length then vs[i - dst]? else wordAt m (bufOffset i) := by
  induction vs generalizing m dst with
  | nil => simp only [bufWriteAll, List.length_nil]; split <;> [omega; rfl]
  | cons v vs ih =>
    rw [bufWriteAll, ih, wordAt_bufWrite]
    simp only [List.length_cons]
    by_cases h0 : i = dst
    · subst h0; simp
    · by_cases h1 : dst + 1 ≤ i ∧ i < dst + 1 + vs.length
      · have h2 : dst ≤ i ∧ i < dst + (vs.length + 1) := by omega
        obtain ⟨k, hk⟩ : ∃ k, i - dst = k + 1 := ⟨i - dst - 1, by omega⟩
        have hk' : i - (dst + 1) = k := by omega
        rw [if_pos h1, if_pos h2, hk, hk', List.getElem?_cons_succ]
      · have h2 : ¬(dst ≤ i ∧ i < dst + (vs.length + 1)) := by omega
        rw [if_neg h1, if_neg h2, if_neg h0]

theorem written_bufWriteAll (m : Memory) (dst : Nat) (vs : List Word) (i : Nat) :
    written (bufWriteAll m dst vs) i =
      (decide (dst ≤ i ∧ i < dst + vs.length) || written m i) := by
  simp only [written, wordAt_bufWriteAll]
  by_cases h : dst ≤ i ∧ i < dst + vs.length
  · have : i - dst < vs.length := by omega
    simp [h, this]
  · simp [h]

/-! ### Inputs -/

@[simp] theorem bulkInputs_length (s : State) (src count : Nat) :
    (bulkInputs s src count).length = count := by simp [bulkInputs]

/-- Input `j` of a bulk command: the entry, or the free value drawn for it (20_memory R81, R82). -/
theorem bulkInputs_getElem? (s : State) (src count j : Nat) (h : j < count) :
    (bulkInputs s src count)[j]? =
      some ((wordAt s.block.mem (bufOffset (src + j))).getD (Config.freeWord (s.draws + j))) := by
  simp [bulkInputs, bufRead, h]

end Sys2Proof.Machine
end

