-- ==== Sys2Proof/Laws/State.lean ====
section
/-! SUPPORT. The small lemmas of the named state updates: which fields each leaves alone, and what it
puts into the others. -/

namespace Sys2Proof.Machine

/-! ### Per-arm values -/

@[simp] theorem PerArm.get_i {α : Type} (p : PerArm α) : p.get .i = p.i := rfl
@[simp] theorem PerArm.get_q {α : Type} (p : PerArm α) : p.get .q = p.q := rfl
@[simp] theorem PerArm.set_i {α : Type} (p : PerArm α) (a : α) : p.set .i a = { p with i := a } := rfl
@[simp] theorem PerArm.set_q {α : Type} (p : PerArm α) (a : α) : p.set .q a = { p with q := a } := rfl
@[simp] theorem PerArm.both_i {α : Type} (a : α) : (PerArm.both a).i = a := rfl
@[simp] theorem PerArm.both_q {α : Type} (a : α) : (PerArm.both a).q = a := rfl

@[simp] theorem PerArm.get_set_same {α : Type} (p : PerArm α) (arm : Arm) (a : α) :
    (p.set arm a).get arm = a := by cases arm <;> rfl

theorem PerArm.get_set_other {α : Type} (p : PerArm α) {arm other : Arm} (h : other ≠ arm) (a : α) :
    (p.set arm a).get other = p.get other := by cases arm <;> cases other <;> simp_all

theorem PerArm.get_set {α : Type} (p : PerArm α) (arm other : Arm) (a : α) :
    (p.set arm a).get other = if other = arm then a else p.get other := by
  cases arm <;> cases other <;> simp

/-! ### Errors -/

@[simp] theorem raise_params (c : Cause) (r : ErrorRecord) (s : State) : (raise c r s).params = s.params := by cases r <;> rfl
@[simp] theorem raise_block (c : Cause) (r : ErrorRecord) (s : State) : (raise c r s).block = s.block := by cases r <;> rfl
@[simp] theorem raise_staged (c : Cause) (r : ErrorRecord) (s : State) : (raise c r s).staged = s.staged := by cases r <;> rfl
@[simp] theorem raise_din0 (c : Cause) (r : ErrorRecord) (s : State) : (raise c r s).din0 = s.din0 := by cases r <;> rfl
@[simp] theorem raise_din1 (c : Cause) (r : ErrorRecord) (s : State) : (raise c r s).din1 = s.din1 := by cases r <;> rfl
@[simp] theorem raise_irqEn (c : Cause) (r : ErrorRecord) (s : State) : (raise c r s).irqEn = s.irqEn := by cases r <;> rfl
@[simp] theorem raise_pending (c : Cause) (r : ErrorRecord) (s : State) : (raise c r s).pending = s.pending := by cases r <;> rfl
@[simp] theorem raise_moves (c : Cause) (r : ErrorRecord) (s : State) : (raise c r s).moves = s.moves := by cases r <;> rfl
@[simp] theorem raise_readData (c : Cause) (r : ErrorRecord) (s : State) : (raise c r s).readData = s.readData := by cases r <;> rfl
@[simp] theorem raise_draws (c : Cause) (r : ErrorRecord) (s : State) : (raise c r s).draws = s.draws := by cases r <;> rfl
@[simp] theorem raise_sticky (c : Cause) (r : ErrorRecord) (s : State) :
    (raise c r s).sticky = setSticky c s.sticky := by cases r <;> rfl
@[simp] theorem raise_command_errCmd (c : Cause) (w : Word) (s : State) : (raise c (.command w) s).errCmd = w := rfl
@[simp] theorem raise_command_errAccess (c : Cause) (w : Word) (s : State) :
    (raise c (.command w) s).errAccess = s.errAccess := rfl
@[simp] theorem raise_access_errCmd (c : Cause) (a : AccessInfo) (s : State) :
    (raise c (.access a) s).errCmd = s.errCmd := rfl
@[simp] theorem raise_access_errAccess (c : Cause) (a : AccessInfo) (s : State) :
    (raise c (.access a) s).errAccess = a := rfl

@[simp] theorem reject_params (r : Rejection) (w : Word) (s : State) : (reject r w s).params = s.params := by cases r <;> rfl
@[simp] theorem reject_staged (r : Rejection) (w : Word) (s : State) : (reject r w s).staged = s.staged := by cases r <;> rfl
@[simp] theorem reject_din0 (r : Rejection) (w : Word) (s : State) : (reject r w s).din0 = s.din0 := by cases r <;> rfl
@[simp] theorem reject_din1 (r : Rejection) (w : Word) (s : State) : (reject r w s).din1 = s.din1 := by cases r <;> rfl
@[simp] theorem reject_irqEn (r : Rejection) (w : Word) (s : State) : (reject r w s).irqEn = s.irqEn := by cases r <;> rfl
@[simp] theorem reject_errAccess (r : Rejection) (w : Word) (s : State) : (reject r w s).errAccess = s.errAccess := by cases r <;> rfl
@[simp] theorem reject_errCmd (r : Rejection) (w : Word) (s : State) : (reject r w s).errCmd = w := by cases r <;> rfl
@[simp] theorem reject_pending (r : Rejection) (w : Word) (s : State) : (reject r w s).pending = s.pending := by cases r <;> rfl
@[simp] theorem reject_moves (r : Rejection) (w : Word) (s : State) : (reject r w s).moves = s.moves := by cases r <;> rfl
@[simp] theorem reject_readData (r : Rejection) (w : Word) (s : State) : (reject r w s).readData = s.readData := by cases r <;> rfl
@[simp] theorem reject_draws (r : Rejection) (w : Word) (s : State) : (reject r w s).draws = s.draws := by cases r <;> rfl

/-- The cause a rejection raises. -/
def Rejection.cause : Rejection → Cause
  | .cfg _ => .cfg
  | .operand => .operand
  | .len => .len
  | .range => .range

@[simp] theorem reject_sticky (r : Rejection) (w : Word) (s : State) :
    (reject r w s).sticky = setSticky r.cause s.sticky := by cases r <;> rfl

theorem reject_block (r : Rejection) (w : Word) (s : State) :
    (reject r w s).block = s.block ∨
      ∃ f, r = .cfg f ∧ (reject r w s).block = { s.block with cfgFault := f } := by
  cases r with
  | cfg f => exact .inr ⟨f, rfl, rfl⟩
  | operand => exact .inl rfl
  | len => exact .inl rfl
  | range => exact .inl rfl

/-! ### Acknowledging -/

@[simp] theorem acknowledge_params (v : Word) (s : State) : (acknowledge v s).params = s.params := rfl
@[simp] theorem acknowledge_block (v : Word) (s : State) : (acknowledge v s).block = s.block := rfl
@[simp] theorem acknowledge_staged (v : Word) (s : State) : (acknowledge v s).staged = s.staged := rfl
@[simp] theorem acknowledge_din0 (v : Word) (s : State) : (acknowledge v s).din0 = s.din0 := rfl
@[simp] theorem acknowledge_din1 (v : Word) (s : State) : (acknowledge v s).din1 = s.din1 := rfl
@[simp] theorem acknowledge_sticky (v : Word) (s : State) : (acknowledge v s).sticky = ackSticky v s.sticky := rfl
@[simp] theorem acknowledge_irqEn (v : Word) (s : State) : (acknowledge v s).irqEn = s.irqEn := rfl
@[simp] theorem acknowledge_errCmd (v : Word) (s : State) : (acknowledge v s).errCmd = s.errCmd := rfl
@[simp] theorem acknowledge_errAccess (v : Word) (s : State) : (acknowledge v s).errAccess = s.errAccess := rfl
@[simp] theorem acknowledge_pending (v : Word) (s : State) : (acknowledge v s).pending = s.pending := rfl
@[simp] theorem acknowledge_moves (v : Word) (s : State) : (acknowledge v s).moves = s.moves := rfl
@[simp] theorem acknowledge_readData (v : Word) (s : State) : (acknowledge v s).readData = s.readData := rfl
@[simp] theorem acknowledge_draws (v : Word) (s : State) : (acknowledge v s).draws = s.draws := rfl

/-! ### Accepting -/

@[simp] theorem accept_params (w : Word) (e : Effects) (s : State) : (accept w e s).params = s.params := rfl
@[simp] theorem accept_block (w : Word) (e : Effects) (s : State) : (accept w e s).block = s.block := rfl
@[simp] theorem accept_staged (w : Word) (e : Effects) (s : State) : (accept w e s).staged = s.staged := rfl
@[simp] theorem accept_din0 (w : Word) (e : Effects) (s : State) : (accept w e s).din0 = s.din0 := rfl
@[simp] theorem accept_din1 (w : Word) (e : Effects) (s : State) : (accept w e s).din1 = s.din1 := rfl
@[simp] theorem accept_sticky (w : Word) (e : Effects) (s : State) : (accept w e s).sticky = s.sticky := rfl
@[simp] theorem accept_irqEn (w : Word) (e : Effects) (s : State) : (accept w e s).irqEn = s.irqEn := rfl
@[simp] theorem accept_errCmd (w : Word) (e : Effects) (s : State) : (accept w e s).errCmd = s.errCmd := rfl
@[simp] theorem accept_errAccess (w : Word) (e : Effects) (s : State) : (accept w e s).errAccess = s.errAccess := rfl
@[simp] theorem accept_pending (w : Word) (e : Effects) (s : State) :
    (accept w e s).pending = some { word := w, effects := e } := rfl
@[simp] theorem accept_moves (w : Word) (e : Effects) (s : State) : (accept w e s).moves = s.moves := rfl
@[simp] theorem accept_readData (w : Word) (e : Effects) (s : State) : (accept w e s).readData = s.readData := rfl
@[simp] theorem accept_draws (w : Word) (e : Effects) (s : State) : (accept w e s).draws = s.draws := rfl

/-! ### Completing -/

@[simp] theorem complete_params (e : Effects) (s : State) : (complete e s).params = s.params := rfl
@[simp] theorem complete_block (e : Effects) (s : State) : (complete e s).block = e.block := rfl
@[simp] theorem complete_staged (e : Effects) (s : State) : (complete e s).staged = s.staged := rfl
@[simp] theorem complete_din0 (e : Effects) (s : State) : (complete e s).din0 = s.din0 := rfl
@[simp] theorem complete_din1 (e : Effects) (s : State) : (complete e s).din1 = s.din1 := rfl
@[simp] theorem complete_sticky (e : Effects) (s : State) :
    (complete e s).sticky = completionSticky e s.sticky := rfl
@[simp] theorem complete_irqEn (e : Effects) (s : State) : (complete e s).irqEn = s.irqEn := rfl
@[simp] theorem complete_errCmd (e : Effects) (s : State) : (complete e s).errCmd = s.errCmd := rfl
@[simp] theorem complete_errAccess (e : Effects) (s : State) : (complete e s).errAccess = s.errAccess := rfl
@[simp] theorem complete_pending (e : Effects) (s : State) : (complete e s).pending = none := rfl
@[simp] theorem complete_moves (e : Effects) (s : State) : (complete e s).moves = s.moves := rfl
@[simp] theorem complete_readData (e : Effects) (s : State) : (complete e s).readData = s.readData := rfl
@[simp] theorem complete_draws (e : Effects) (s : State) : (complete e s).draws = s.draws := rfl

@[simp] theorem quiet_block (b : Block) : (quiet b).block = b := rfl
@[simp] theorem quiet_agcDegen (b : Block) : (quiet b).agcDegen = false := rfl
@[simp] theorem quiet_bitReady (b : Block) : (quiet b).bitReady = false := rfl

/-! ### The block's turn -/

theorem blockTurn_of_pending {s : State} {p : Pending} (h : s.pending = some p) :
    blockTurn s = complete p.effects s := by simp [blockTurn, h]

theorem blockTurn_of_idle {s : State} (h : s.pending = none) : blockTurn s = s := by simp [blockTurn, h]

/-! ### Reset -/

@[simp] theorem resetEvent_params (s : State) : (resetEvent s).params = s.params := rfl
@[simp] theorem resetEvent_block (s : State) : (resetEvent s).block = Block.reset s.params := rfl
@[simp] theorem resetEvent_staged (s : State) : (resetEvent s).staged = CfgCopy.reset s.params := rfl
@[simp] theorem resetEvent_din0 (s : State) : (resetEvent s).din0 = 0 := rfl
@[simp] theorem resetEvent_din1 (s : State) : (resetEvent s).din1 = 0 := rfl
@[simp] theorem resetEvent_sticky (s : State) : (resetEvent s).sticky = 0 := rfl
@[simp] theorem resetEvent_irqEn (s : State) : (resetEvent s).irqEn = 0 := rfl
@[simp] theorem resetEvent_errCmd (s : State) : (resetEvent s).errCmd = 0 := rfl
@[simp] theorem resetEvent_pending (s : State) : (resetEvent s).pending = none := rfl
@[simp] theorem resetEvent_moves (s : State) : (resetEvent s).moves = s.moves := rfl
@[simp] theorem resetEvent_readData (s : State) : (resetEvent s).readData = s.readData := rfl
@[simp] theorem resetEvent_draws (s : State) : (resetEvent s).draws = s.draws := rfl

end Sys2Proof.Machine
end

