-- ==== Sys2Proof/Laws/Issue.lean ====
section
/-! SUPPORT. What issuing a command can do: every command is `issue` of what its pseudocode gives on the
current state, and `issue` has four outcomes. Later proofs cite these and unfold neither. -/

namespace Sys2Proof.Machine

/-- What a command's pseudocode gives on the current state: its own rejection, or its effects
(70_reset_and_hazards R260). -/
def commandResult (i : Instr) (s : State) : Except Rejection Effects :=
  match i with
  | .nop => .ok (quiet s.block)
  | .clearAll => .ok (quiet (allCleared s.params s.block))
  | .step => withSample s fun x => stepped s.block x
  | .cfgCommit =>
    if configFault s.params s.staged = 0 then .ok (quiet (committed s.params s.staged s.block))
    else .error (.cfg (configFault s.params s.staged))
  | .agcUpdate =>
    withSample s fun x =>
      { block := agcStage s.block x, agcDegen := agcStageDegenerate s.block x, bitReady := false }
  | .agcClear => .ok (quiet (agcCleared s.params s.block))
  | .ddcUpdate => withSample s fun a => quiet (ddcStage s.block a)
  | .ddcClear => .ok (quiet (ddcCleared s.block))
  | .firUpdate arm => withSample s fun x => quiet (firStage arm s.block x)
  | .firClear arm => .ok (quiet (firCleared s.params arm s.block))
  | .firApply arm count src dst =>
    withBulk s count src dst count fun ins => quiet (firApplied s.params arm dst s.block ins)
  | .pgEval arm => withSample s fun v => quiet (pgStage arm s.block v)
  | .idUpdate arm => withSample s fun x => quiet (idStage arm s.block x)
  | .idClear arm => .ok (quiet (idCleared s.params arm s.block))
  | .idApply count src dst =>
    withBulk s count src dst (count / s.block.active.regs.l.toNat)
      fun ins => quiet (idApplied count dst s.block ins)
  | .bsyncUpdate v =>
    withSamplePair s fun vI vQ =>
      { block := bsStage s.block vI vQ v, agcDegen := false, bitReady := bsEmits s.block v }
  | .bsyncClear => .ok (quiet (bsCleared s.block))

/-- Every command answers a next state, the issue of what its pseudocode gives. -/
theorem exec_eq_issue (i : Instr) (s : State) : exec i s = .next (issue i (commandResult i s) s) := by
  cases i <;> rfl

/-- The pseudocode does not look at the schedule. -/
@[simp] theorem commandResult_moves (i : Instr) (s : State) (ms : List Move) :
    commandResult i { s with moves := ms } = commandResult i s := by cases i <;> rfl

/-! ### The four outcomes of issuing a command -/

theorem issue_busy {i : Instr} {r : Except Rejection Effects} {s : State} {p : Pending}
    (h : s.pending = some p) : issue i r s = raise .busy (.command (encode i)) s := by
  simp [issue, State.busy, h]

theorem issue_error {i : Instr} {r : Rejection} {s : State} (h : s.pending = none) :
    issue i (.error r) s = reject r (encode i) { s with draws := s.draws + readsOf i } := by
  simp [issue, State.busy, h]

theorem issue_ok_ready {i : Instr} {e : Effects} {s : State} (h : s.pending = none)
    (hm : completesAtOnce s.moves = true) :
    issue i (.ok e) s = complete e { s with draws := s.draws + readsOf i } := by
  simp [issue, State.busy, h, hm]

theorem issue_ok_deferred {i : Instr} {e : Effects} {s : State} (h : s.pending = none)
    (hm : completesAtOnce s.moves = false) :
    issue i (.ok e) s = accept (encode i) e { s with draws := s.draws + readsOf i } := by
  simp [issue, State.busy, h, hm]

/-- Everything that issuing a command can do. -/
theorem issue_cases (i : Instr) (r : Except Rejection Effects) (s : State) :
    (∃ p, s.pending = some p ∧ issue i r s = raise .busy (.command (encode i)) s) ∨
    (s.pending = none ∧ ∃ e, r = .error e ∧
      issue i r s = reject e (encode i) { s with draws := s.draws + readsOf i }) ∨
    (s.pending = none ∧ completesAtOnce s.moves = true ∧ ∃ e, r = .ok e ∧
      issue i r s = complete e { s with draws := s.draws + readsOf i }) ∨
    (s.pending = none ∧ completesAtOnce s.moves = false ∧ ∃ e, r = .ok e ∧
      issue i r s = accept (encode i) e { s with draws := s.draws + readsOf i }) := by
  by_cases hp : s.pending = none
  · cases r with
    | error e => exact .inr (.inl ⟨hp, e, rfl, issue_error hp⟩)
    | ok e =>
      by_cases hm : completesAtOnce s.moves = true
      · exact .inr (.inr (.inl ⟨hp, hm, e, rfl, issue_ok_ready hp hm⟩))
      · have hm' : completesAtOnce s.moves = false := by simpa using hm
        exact .inr (.inr (.inr ⟨hp, hm', e, rfl, issue_ok_deferred hp hm'⟩))
  · obtain ⟨p, hp⟩ := Option.ne_none_iff_exists'.1 hp
    exact .inl ⟨p, hp, issue_busy hp⟩

/-! ### Operand checks -/

theorem withSample_ok {s : State} {f : Word → Effects} (h : admissible s.din0 = true) :
    withSample s f = .ok (f s.din0) := by simp [withSample, h]

theorem withSample_error {s : State} {f : Word → Effects} (h : admissible s.din0 = false) :
    withSample s f = .error .operand := by simp [withSample, h]

theorem withSamplePair_ok {s : State} {f : Word → Word → Effects} (h0 : admissible s.din0 = true)
    (h1 : admissible s.din1 = true) : withSamplePair s f = .ok (f s.din0 s.din1) := by
  simp [withSamplePair, h0, h1]

theorem withSamplePair_error {s : State} {f : Word → Word → Effects}
    (h : admissible s.din0 = false ∨ admissible s.din1 = false) :
    withSamplePair s f = .error .operand := by
  rcases h with h | h <;> simp [withSamplePair, h]

theorem withBulk_ok {s : State} {count src dst outputs : Nat} {f : List Word → Effects}
    (h0 : 1 ≤ outputs) (h1 : src + count ≤ s.params.bufDepth) (h2 : dst + outputs ≤ s.params.bufDepth)
    (h3 : ∀ x ∈ bulkInputs s src count, admissible x = true) :
    withBulk s count src dst outputs f = .ok (f (bulkInputs s src count)) := by
  have h0' : outputs ≠ 0 := by omega
  have h12 : ¬(s.params.bufDepth < src + count ∨ s.params.bufDepth < dst + outputs) := by omega
  simp [withBulk, h0', h12, List.all_eq_true.2 h3]

theorem withBulk_len {s : State} {count src dst : Nat} {f : List Word → Effects} :
    withBulk s count src dst 0 f = .error .len := by simp [withBulk]

theorem withBulk_range {s : State} {count src dst outputs : Nat} {f : List Word → Effects}
    (h0 : 1 ≤ outputs) (h : s.params.bufDepth < src + count ∨ s.params.bufDepth < dst + outputs) :
    withBulk s count src dst outputs f = .error .range := by
  have h0' : outputs ≠ 0 := by omega
  simp [withBulk, h0', h]

theorem withBulk_operand {s : State} {count src dst outputs : Nat} {f : List Word → Effects}
    (h0 : 1 ≤ outputs) (h1 : src + count ≤ s.params.bufDepth) (h2 : dst + outputs ≤ s.params.bufDepth)
    (h3 : ∃ x ∈ bulkInputs s src count, admissible x = false) :
    withBulk s count src dst outputs f = .error .operand := by
  have h0' : outputs ≠ 0 := by omega
  have h12 : ¬(s.params.bufDepth < src + count ∨ s.params.bufDepth < dst + outputs) := by omega
  have hall : (bulkInputs s src count).all admissible = false := by
    obtain ⟨x, hx, hf⟩ := h3
    exact List.all_eq_false.2 ⟨x, hx, by simp [hf]⟩
  simp [withBulk, h0', h12, hall]

/-- Everything that the bulk checks can give. -/
theorem withBulk_cases (s : State) (count src dst outputs : Nat) (f : List Word → Effects) :
    (outputs = 0 ∧ withBulk s count src dst outputs f = .error .len) ∨
    withBulk s count src dst outputs f = .error .range ∨
    withBulk s count src dst outputs f = .error .operand ∨
    (1 ≤ outputs ∧ src + count ≤ s.params.bufDepth ∧ dst + outputs ≤ s.params.bufDepth ∧
      (∀ x ∈ bulkInputs s src count, admissible x = true) ∧
      withBulk s count src dst outputs f = .ok (f (bulkInputs s src count))) := by
  rcases Nat.eq_zero_or_pos outputs with rfl | h0
  · exact .inl ⟨rfl, withBulk_len⟩
  · by_cases hr : s.params.bufDepth < src + count ∨ s.params.bufDepth < dst + outputs
    · exact .inr (.inl (withBulk_range h0 hr))
    · have h1 : src + count ≤ s.params.bufDepth := by omega
      have h2 : dst + outputs ≤ s.params.bufDepth := by omega
      by_cases ha : ∀ x ∈ bulkInputs s src count, admissible x = true
      · exact .inr (.inr (.inr ⟨h0, h1, h2, ha, withBulk_ok h0 h1 h2 ha⟩))
      · refine .inr (.inr (.inl (withBulk_operand h0 h1 h2 ?_)))
        simpa using ha

/-! ### Fields that issuing a command leaves alone -/

@[simp] theorem issue_params (i : Instr) (r : Except Rejection Effects) (s : State) :
    (issue i r s).params = s.params := by
  obtain ⟨p, -, h⟩ | ⟨-, e, -, h⟩ | ⟨-, -, e, -, h⟩ | ⟨-, -, e, -, h⟩ := issue_cases i r s <;> simp [h]
@[simp] theorem issue_staged (i : Instr) (r : Except Rejection Effects) (s : State) :
    (issue i r s).staged = s.staged := by
  obtain ⟨p, -, h⟩ | ⟨-, e, -, h⟩ | ⟨-, -, e, -, h⟩ | ⟨-, -, e, -, h⟩ := issue_cases i r s <;> simp [h]
@[simp] theorem issue_din0 (i : Instr) (r : Except Rejection Effects) (s : State) :
    (issue i r s).din0 = s.din0 := by
  obtain ⟨p, -, h⟩ | ⟨-, e, -, h⟩ | ⟨-, -, e, -, h⟩ | ⟨-, -, e, -, h⟩ := issue_cases i r s <;> simp [h]
@[simp] theorem issue_din1 (i : Instr) (r : Except Rejection Effects) (s : State) :
    (issue i r s).din1 = s.din1 := by
  obtain ⟨p, -, h⟩ | ⟨-, e, -, h⟩ | ⟨-, -, e, -, h⟩ | ⟨-, -, e, -, h⟩ := issue_cases i r s <;> simp [h]
@[simp] theorem issue_irqEn (i : Instr) (r : Except Rejection Effects) (s : State) :
    (issue i r s).irqEn = s.irqEn := by
  obtain ⟨p, -, h⟩ | ⟨-, e, -, h⟩ | ⟨-, -, e, -, h⟩ | ⟨-, -, e, -, h⟩ := issue_cases i r s <;> simp [h]
@[simp] theorem issue_errAccess (i : Instr) (r : Except Rejection Effects) (s : State) :
    (issue i r s).errAccess = s.errAccess := by
  obtain ⟨p, -, h⟩ | ⟨-, e, -, h⟩ | ⟨-, -, e, -, h⟩ | ⟨-, -, e, -, h⟩ := issue_cases i r s <;> simp [h]
@[simp] theorem issue_moves (i : Instr) (r : Except Rejection Effects) (s : State) :
    (issue i r s).moves = s.moves := by
  obtain ⟨p, -, h⟩ | ⟨-, e, -, h⟩ | ⟨-, -, e, -, h⟩ | ⟨-, -, e, -, h⟩ := issue_cases i r s <;> simp [h]
@[simp] theorem issue_readData (i : Instr) (r : Except Rejection Effects) (s : State) :
    (issue i r s).readData = s.readData := by
  obtain ⟨p, -, h⟩ | ⟨-, e, -, h⟩ | ⟨-, -, e, -, h⟩ | ⟨-, -, e, -, h⟩ := issue_cases i r s <;> simp [h]

end Sys2Proof.Machine
end

