-- ==== Sys2Proof/Laws/Bus.lean ====
section
/-! SUPPORT. What one step and one host access can do, by the kind of the move. -/

namespace Sys2Proof.Machine

/-- The register map holds at every offset of its fixed part whatever the sizes are. -/
theorem locate_of_registerMap {p : Params} {o : Nat} {l : Loc} (ha : o % 8 = 0)
    (h : registerMap.lookup o = some l) : locate p o = some l := by
  simp [locate, ha, h]

theorem registerMap_lookup_none {o : Nat} (h : 0x1000 ≤ o) : registerMap.lookup o = none := by
  have hmap : ∀ e ∈ registerMap, e.1 < 0x1000 := by decide
  rw [List.lookup_eq_none_iff]
  intro e he
  have hlt := hmap e he
  simp only [bne_iff_ne, ne_eq]
  omega

theorem windowIndex_entry (base : Nat) {n k : Nat} (hk : k < n) : windowIndex base n (base + 8 * k) = some k := by
  rw [windowIndex, if_pos (by omega)]
  congr 1
  omega

theorem windowIndex_outside {base n o : Nat} (h : o < base ∨ base + 8 * n ≤ o) : windowIndex base n o = none := by
  rw [windowIndex, if_neg (by omega)]

/-- `TAP_STAGE[k]` stands at `0x1000 + 8k` (10_state R23). -/
theorem locate_tapStage {p : Params} {k : Nat} (hk : k < p.nTapsMax) :
    locate p (0x1000 + 8 * k) = some (.tapStage k) := by
  rw [locate, if_pos (by omega), registerMap_lookup_none (by omega), windowIndex_entry _ hk]

/-- `TAP_ACT[k]` stands at `0x2000 + 8k`, past the staged window (10_state R23). -/
theorem locate_tapAct {p : Params} (hp : p.Legal) {k : Nat} (hk : k < p.nTapsMax) :
    locate p (0x2000 + 8 * k) = some (.tapAct k) := by
  have htaps := hp.2.1.2
  rw [locate, if_pos (by omega), registerMap_lookup_none (by omega), windowIndex_outside (by omega)]
  simp only [windowIndex_entry _ hk]

/-- `BUFMEM[i]` stands at its offset, past both tap windows (10_state R23, 20_memory R80). -/
theorem locate_buf {p : Params} (hp : p.Legal) {i : Nat} (hi : i < p.bufDepth) :
    locate p (bufOffset i) = some (.buf i) := by
  have htaps := hp.2.1.2
  rw [bufOffset, locate, if_pos (by omega), registerMap_lookup_none (by omega), windowIndex_outside (by omega)]
  simp only [windowIndex_outside (base := 0x2000) (n := p.nTapsMax) (o := 0x10000 + 8 * i) (by omega),
    windowIndex_entry _ hi, Option.map_some]

/-! ### Words of the register map as sums of their fields -/

/-- The fields of `PARAMS` at their bits (10_state R22). -/
theorem toNat_paramsWord {p : Params} (h : p.Legal) :
    (paramsWord p).toNat =
      p.agcLenMax + p.nTapsMax * 2 ^ 16 + p.idLenMax * 2 ^ 32 + p.bufDepth * 2 ^ 48 := by
  obtain ⟨⟨_, h1⟩, ⟨_, h2⟩, ⟨_, h3⟩, _, h4⟩ := h
  unfold paramsWord
  repeat rw [toNat_append_eq_add]
  simp only [BitVec.toNat_ofNat]
  omega

/-- The fields of `CFG_CTRL` and `ACT_CTRL` at their bits (10_state R33). -/
theorem toNat_cfgWord_ctrl (c : CfgRegs) :
    (cfgWord c .ctrl).toNat = c.pgEn.toNat + 2 * c.pgCast.toNat := by
  unfold cfgWord
  simp only
  repeat rw [toNat_append_eq_add]
  simp only [BitVec.toNat_ofBool, BitVec.ofNat_eq_ofNat, BitVec.toNat_ofNat]
  omega

/-! ### Steps by move -/

theorem step_idle {s : State} (h : s.moves = []) : step s = .next (blockTurn s) := by simp [step, h]

theorem step_block {s : State} {rest : List Move} (h : s.moves = .block :: rest) :
    step s = .next (blockTurn { s with moves := rest }) := by simp [step, h]

theorem step_reset {s : State} {rest : List Move} (h : s.moves = .reset :: rest) :
    step s = .next (resetEvent { s with moves := rest }) := by simp [step, h]

theorem step_host {s : State} {a : Access} {rest : List Move} (h : s.moves = .host a :: rest) :
    step s = hostAccess a { s with moves := rest } := by simp [step, h]

/-! ### Host accesses -/

theorem hostAccess_rejected {a : Access} {s : State} (h : legalTarget s.params a = none) :
    hostAccess a s = .next (rejectAccess a s) := by simp [hostAccess, h]

theorem hostAccess_read {a : Access} {s : State} {l : Loc} (h : legalTarget s.params a = some l)
    (hr : a.op = .read) : hostAccess a s = .next (readLoc l s) := by simp [hostAccess, h, hr]

theorem hostAccess_write {a : Access} {s : State} {l : Loc} {v : Word}
    (h : legalTarget s.params a = some l) (hw : a.op = .write v) :
    hostAccess a s = writeLoc a l v s := by simp [hostAccess, h, hw]

theorem writeLoc_cmd (a : Access) (v : Word) (s : State) : writeLoc a .cmd v s = writeCmd v s := by
  simp [writeLoc]

theorem writeLoc_busy {a : Access} {l : Loc} {v : Word} {s : State} {p : Pending} (hc : l ≠ .cmd)
    (hb : s.pending = some p) (hl : writableWhileBusy l = false) :
    writeLoc a l v s = .next (raise .busy (.access a.info) s) := by
  simp [writeLoc, hc, State.busy, hb, hl]

theorem writeLoc_store {a : Access} {l : Loc} {v : Word} {s : State} (hc : l ≠ .cmd)
    (h : s.pending = none ∨ writableWhileBusy l = true) :
    writeLoc a l v s = .next (storeLoc l v s) := by
  rcases h with h | h <;> simp [writeLoc, hc, State.busy, h]

theorem writeCmd_ok {w : Word} {i : Instr} {s : State} (h : decode w = .ok i) :
    writeCmd w s = exec i s := by simp [writeCmd, h]

theorem writeCmd_illegal {w : Word} {e : DecodeError} {s : State} (h : decode w = .error e) :
    writeCmd w s = .next (raise (if s.busy then .busy else .illegal) (.command w) s) := by
  simp [writeCmd, h]

/-- Everything a write to `CMD` can do: it answers a next state, the issue of a command or one error. -/
theorem writeCmd_cases (w : Word) (s : State) :
    (∃ i, decode w = .ok i ∧ writeCmd w s = .next (issue i (commandResult i s) s)) ∨
    (∃ e, decode w = .error e ∧
      writeCmd w s = .next (raise (if s.busy then .busy else .illegal) (.command w) s)) := by
  cases h : decode w with
  | ok i => exact .inl ⟨i, rfl, by rw [writeCmd_ok h, exec_eq_issue]⟩
  | error e => exact .inr ⟨e, rfl, writeCmd_illegal h⟩

/-- A write to `CMD` at its offset is legal whatever the sizes are. -/
@[simp] theorem legalTarget_cmdWrite (p : Params) (w : Word) : legalTarget p (cmdWrite w) = some .cmd := by
  have h : locate p (cmdOffset).toNat = some .cmd := locate_of_registerMap (by decide) (by decide)
  simp [legalTarget, cmdWrite, h, writable]

/-- A write to `CMD` reaches the command. -/
theorem hostAccess_cmdWrite (w : Word) (s : State) : hostAccess (cmdWrite w) s = writeCmd w s := by
  rw [hostAccess_write (legalTarget_cmdWrite s.params w) rfl, writeLoc_cmd]

/-- Everything a host access can do. -/
theorem hostAccess_cases (a : Access) (s : State) :
    (legalTarget s.params a = none ∧ hostAccess a s = .next (rejectAccess a s)) ∨
    (∃ l, legalTarget s.params a = some l ∧ a.op = .read ∧ hostAccess a s = .next (readLoc l s)) ∨
    (∃ v, legalTarget s.params a = some .cmd ∧ a.op = .write v ∧ hostAccess a s = writeCmd v s) ∨
    (∃ l v p, legalTarget s.params a = some l ∧ a.op = .write v ∧ l ≠ .cmd ∧ s.pending = some p ∧
      writableWhileBusy l = false ∧ hostAccess a s = .next (raise .busy (.access a.info) s)) ∨
    (∃ l v, legalTarget s.params a = some l ∧ a.op = .write v ∧ l ≠ .cmd ∧
      (s.pending = none ∨ writableWhileBusy l = true) ∧ hostAccess a s = .next (storeLoc l v s)) := by
  cases ht : legalTarget s.params a with
  | none => exact .inl ⟨rfl, hostAccess_rejected ht⟩
  | some l =>
    cases ho : a.op with
    | read => exact .inr (.inl ⟨l, rfl, rfl, hostAccess_read ht ho⟩)
    | write v =>
      have hw := hostAccess_write ht ho
      by_cases hc : l = .cmd
      · subst hc
        exact .inr (.inr (.inl ⟨v, rfl, rfl, by rw [hw, writeLoc_cmd]⟩))
      · by_cases hs : s.pending = none ∨ writableWhileBusy l = true
        · exact .inr (.inr (.inr (.inr ⟨l, v, rfl, rfl, hc, hs, by rw [hw, writeLoc_store hc hs]⟩)))
        · cases hp : s.pending with
          | none => exact absurd (.inl hp) hs
          | some p =>
            have hl : writableWhileBusy l = false := by
              cases hb : writableWhileBusy l with
              | true => exact absurd (.inr hb) hs
              | false => rfl
            exact .inr (.inr (.inr (.inl ⟨l, v, p, rfl, rfl, hc, rfl, hl, by
              rw [hw, writeLoc_busy hc hp hl]⟩)))

/-- An idle read of a location returns its value, unless it is an entry of `BUFMEM` that nothing has
written. -/
theorem step_idle_read {s : State} {o : Offset} {rest : List Move} {l : Loc} (hi : s.pending = none)
    (hm : s.moves = .host { op := .read, size := .b8, offset := o } :: rest)
    (hl : locate s.params o.toNat = some l) (hb : ∀ i, l = .buf i → written s.block.mem i = true) :
    step s = .next { s with moves := rest, readData := locWord s l } := by
  have hf : readIsFree { s with moves := rest } l = false := by
    cases l <;> simp_all [readIsFree, State.busy]
  rw [step_host hm, hostAccess_read (l := l) (by simp [legalTarget, hl]) rfl, readLoc, if_neg (by simp [hf])]
  cases l <;> rfl

/-- An idle write to a writable location other than `CMD` is stored. -/
theorem step_idle_write {s : State} {o : Offset} {v : Word} {rest : List Move} {l : Loc}
    (hi : s.pending = none) (hm : s.moves = .host { op := .write v, size := .b8, offset := o } :: rest)
    (hl : locate s.params o.toNat = some l) (hw : writable l = true) (hc : l ≠ .cmd) :
    step s = .next (storeLoc l v { s with moves := rest }) := by
  rw [step_host hm, hostAccess_write (l := l) (v := v) (by simp [legalTarget, hl, hw]) rfl]
  exact writeLoc_store hc (.inl hi)

/-- Every host access answers a next state. -/
theorem hostAccess_next (a : Access) (s : State) : ∃ t, hostAccess a s = .next t := by
  obtain ⟨-, h⟩ | ⟨l, -, -, h⟩ | ⟨v, -, -, h⟩ | ⟨l, v, p, -, -, -, -, -, h⟩ | ⟨l, v, -, -, -, -, h⟩ :=
    hostAccess_cases a s
  · exact ⟨_, h⟩
  · exact ⟨_, h⟩
  · rw [h]
    obtain ⟨i, -, hi⟩ | ⟨e, -, he⟩ := writeCmd_cases v s
    · exact ⟨_, hi⟩
    · exact ⟨_, he⟩
  · exact ⟨_, h⟩
  · exact ⟨_, h⟩

/-- Every step answers a next state: the machine never stops (60_exceptions R228, log 17). -/
theorem step_next (s : State) : ∃ t, step s = .next t := by
  cases h : s.moves with
  | nil => exact ⟨_, step_idle h⟩
  | cons m rest =>
    cases m with
    | host a => rw [step_host h]; exact hostAccess_next a _
    | block => exact ⟨_, step_block h⟩
    | reset => exact ⟨_, step_reset h⟩

/-! ### What a read or a store leaves alone -/

theorem readLoc_frame (l : Loc) (s : State) :
    readLoc l s = { s with readData := (readLoc l s).readData, draws := (readLoc l s).draws } := by
  unfold readLoc; split <;> rfl

theorem rejectAccess_frame (a : Access) (s : State) :
    rejectAccess a s = { s with
      sticky := setSticky .addr s.sticky, errAccess := a.info,
      readData := (rejectAccess a s).readData } := by
  unfold rejectAccess; split <;> rfl

theorem storeLoc_pending (l : Loc) (v : Word) (s : State) : (storeLoc l v s).pending = s.pending := by
  cases l <;> rfl

theorem storeLoc_params (l : Loc) (v : Word) (s : State) : (storeLoc l v s).params = s.params := by
  cases l <;> rfl

/-- A legal write keeps the canonical form of `BUFMEM`. -/
theorem wf_storeLoc {l : Loc} {v : Word} {s : State} (h : s.block.mem.wf) : (storeLoc l v s).block.mem.wf := by
  cases l <;> first | exact h | exact wf_bufWrite h _ _

theorem storeLoc_busy_block {l : Loc} (h : writableWhileBusy l = true) (v : Word) (s : State) :
    (storeLoc l v s).block = s.block := by cases l <;> simp_all [writableWhileBusy] <;> rfl

end Sys2Proof.Machine
end

