-- ==== Sys2Proof/Laws/Decode.lean ====
section
/-! SUPPORT. The fields of a command word: packing and unpacking are inverse. -/

namespace Sys2Proof

@[simp] theorem unpackFields_packFields (f : Fields) : unpackFields (packFields f) = f := by
  cases f
  simp only [unpackFields, packFields, Fields.mk.injEq]
  refine ⟨?_, ?_, ?_, ?_, ?_, ?_, ?_⟩ <;>
    (apply BitVec.eq_of_getLsbD_eq; intro k hk
     simp only [BitVec.getLsbD_extractLsb', BitVec.getLsbD_append]
     grind)

@[simp] theorem packFields_unpackFields (w : Word) : packFields (unpackFields w) = w := by
  apply BitVec.eq_of_getLsbD_eq; intro k hk
  simp only [unpackFields, packFields, BitVec.getLsbD_extractLsb', BitVec.getLsbD_append]
  grind

theorem unpackFields_injective {v w : Word} (h : unpackFields v = unpackFields w) : v = w := by
  rw [← packFields_unpackFields v, h, packFields_unpackFields]

theorem bitOfArm_armOfBit (b : BitVec 1) : bitOfArm (armOfBit b) = b := by
  revert b; decide

@[simp] theorem armOfBit_bitOfArm (arm : Arm) : armOfBit (bitOfArm arm) = arm := by cases arm <;> decide

end Sys2Proof
end

