-- ==== Sys2Proof/Laws/Numerics.lean ====
section
/-! SUPPORT. The binary64 arithmetic: the value of a bit pattern, and that the one rounding is to the
nearest value, ties to even (40_numerics R121). -/

namespace Sys2Proof.Machine

/-! ### Bit patterns and their values -/

/-- The value in units of `2^-1074` of the 63 bits below the sign of a finite pattern. -/
def unitsOfBits (m : Nat) : Nat :=
  if m / 2 ^ 52 = 0 then m else (2 ^ 52 + m % 2 ^ 52) * 2 ^ (m / 2 ^ 52 - 1)

theorem infMag_eq : infMag = 2047 * 2 ^ 52 := by decide

theorem magBits_lt (a : Word) : magBits a < 2 ^ 63 := (a.extractLsb' 0 63).isLt

theorem magBits_eq (a : Word) : magBits a = a.toNat % 2 ^ 63 := by simp [magBits]

theorem expField_toNat (a : Word) : (expField a).toNat = magBits a / 2 ^ 52 := by
  simp only [expField, magBits_eq, BitVec.extractLsb'_toNat, Nat.shiftRight_eq_div_pow]
  omega

theorem fracField_toNat (a : Word) : (fracField a).toNat = magBits a % 2 ^ 52 := by
  simp only [fracField, magBits_eq, BitVec.extractLsb'_toNat, Nat.shiftRight_eq_div_pow]
  omega

theorem magUnits_eq (a : Word) : magUnits a = unitsOfBits (magBits a) := by
  simp only [magUnits, unitsOfBits, expField_toNat, fracField_toNat, Nat.shiftLeft_eq, one_mul]
  split
  · omega
  · rfl

theorem isfinite_iff (a : Word) : isfinite a = true ↔ magBits a < infMag := by
  have h1 := magBits_lt a
  have h2 := expField_toNat a
  have h3 : expField a = 0x7FF ↔ (expField a).toNat = 2047 := by
    constructor
    · intro h; rw [h]; decide
    · intro h; apply BitVec.eq_of_toNat_eq; rw [h]; decide
  unfold isfinite
  rw [bne_iff_ne, ne_eq, h3, h2, infMag_eq]
  omega

theorem toNat_packSign (neg : Bool) {m : Nat} (h : m < 2 ^ 63) :
    (packSign neg m).toNat = (if neg then 2 ^ 63 else 0) + m := by
  cases neg <;> simp [packSign, Nat.shiftLeft_eq] <;> omega

@[simp] theorem signBit_packSign (neg : Bool) {m : Nat} (h : m < 2 ^ 63) :
    signBit (packSign neg m) = neg := by
  simp only [signBit, BitVec.msb_eq_decide, toNat_packSign neg h]
  cases neg
  · simp; omega
  · simp

@[simp] theorem magBits_packSign (neg : Bool) {m : Nat} (h : m < 2 ^ 63) :
    magBits (packSign neg m) = m := by
  rw [magBits_eq, toNat_packSign neg h]
  cases neg <;> (simp; omega)

/-- A word is its sign and the 63 bits below it. -/
theorem packSign_signBit_magBits (a : Word) : packSign (signBit a) (magBits a) = a := by
  apply BitVec.eq_of_toNat_eq
  rw [toNat_packSign _ (magBits_lt a), magBits_eq]
  have h := a.isLt
  simp only [signBit, BitVec.msb_eq_decide]
  split <;> simp_all
  omega

theorem bit0_eq_magBits (a : Word) : a.getLsbD 0 = decide (magBits a % 2 = 1) := by
  rw [magBits_eq, BitVec.getLsbD, Nat.testBit_zero]
  congr 1
  simp only [eq_iff_iff]
  omega

/-! ### Order -/

/-- Larger bits below the sign, larger magnitude. -/
theorem unitsOfBits_strictMono : StrictMono unitsOfBits := by
  apply strictMono_nat_of_lt_succ
  intro m
  simp only [unitsOfBits]
  have hm : m = 2 ^ 52 * (m / 2 ^ 52) + m % 2 ^ 52 := (Nat.div_add_mod m (2 ^ 52)).symm
  have hr : m % 2 ^ 52 < 2 ^ 52 := Nat.mod_lt _ (by positivity)
  generalize m / 2 ^ 52 = e at hm
  generalize m % 2 ^ 52 = f at hm hr
  by_cases hf : f + 1 < 2 ^ 52
  · have h1 : (m + 1) / 2 ^ 52 = e := by omega
    have h2 : (m + 1) % 2 ^ 52 = f + 1 := by omega
    rw [h1, h2]
    split
    · omega
    · exact Nat.mul_lt_mul_of_pos_right (by omega) (by positivity)
  · have h1 : (m + 1) / 2 ^ 52 = e + 1 := by omega
    have h2 : (m + 1) % 2 ^ 52 = 0 := by omega
    rw [h1, h2, if_neg (Nat.succ_ne_zero e), Nat.add_sub_cancel]
    cases e with
    | zero => simp; omega
    | succ k =>
      have hp : 0 < 2 ^ k := by positivity
      rw [if_neg (Nat.succ_ne_zero k), Nat.add_sub_cancel, Nat.pow_succ 2 k]
      calc (2 ^ 52 + f) * 2 ^ k < (2 ^ 52 + 2 ^ 52) * 2 ^ k := Nat.mul_lt_mul_of_pos_right (by omega) hp
        _ = (2 ^ 52 + 0) * (2 ^ k * 2) := by ring

theorem unitsOfBits_lt_iff {m n : Nat} : unitsOfBits m < unitsOfBits n ↔ m < n :=
  unitsOfBits_strictMono.lt_iff_lt

@[simp] theorem unitsOfBits_zero : unitsOfBits 0 = 0 := by simp [unitsOfBits]

theorem magUnits_lt_iff (a b : Word) : magUnits a < magUnits b ↔ magBits a < magBits b := by
  rw [magUnits_eq, magUnits_eq, unitsOfBits_lt_iff]

theorem magUnits_eq_zero_iff (a : Word) : magUnits a = 0 ↔ magBits a = 0 := by
  rw [magUnits_eq]
  exact ⟨fun h => unitsOfBits_strictMono.injective (h.trans unitsOfBits_zero.symm),
    fun h => by rw [h, unitsOfBits_zero]⟩

/-- Values that are no NaN are ordered by their keys as by their units. -/
theorem orderKey_lt_iff (a b : Word) : orderKey a < orderKey b ↔ units a < units b := by
  have h1 := magUnits_lt_iff a b
  have h2 := magUnits_lt_iff b a
  have h3 := magUnits_eq_zero_iff a
  have h4 := magUnits_eq_zero_iff b
  simp only [orderKey, units]
  cases signBit a <;> cases signBit b <;> simp only [if_true, if_false, Bool.false_eq_true] <;> omega

theorem not_isNaN_of_isfinite {a : Word} (h : isfinite a = true) : isNaN a = false := by simp [isNaN, h]

theorem not_isInf_of_isfinite {a : Word} (h : isfinite a = true) : isInf a = false := by simp [isInf, h]

theorem flt_iff {a b : Word} (ha : isfinite a = true) (hb : isfinite b = true) :
    flt a b = true ↔ units a < units b := by
  unfold flt
  simp [not_isNaN_of_isfinite ha, not_isNaN_of_isfinite hb, orderKey_lt_iff]

theorem feq_iff {a b : Word} (ha : isfinite a = true) (hb : isfinite b = true) :
    feq a b = true ↔ units a = units b := by
  have h1 := orderKey_lt_iff a b
  have h2 := orderKey_lt_iff b a
  unfold feq
  simp [not_isNaN_of_isfinite ha, not_isNaN_of_isfinite hb]
  omega

theorem fle_iff {a b : Word} (ha : isfinite a = true) (hb : isfinite b = true) :
    fle a b = true ↔ units a ≤ units b := by
  rw [fle, Bool.or_eq_true, flt_iff ha hb, feq_iff ha hb]
  omega

/-! ### Negation and magnitude -/

@[simp] theorem signBit_fneg (a : Word) : signBit (fneg a) = !signBit a := by
  have h : (0x8000000000000000 : Word).msb = true := by decide
  rw [signBit, fneg, BitVec.msb_xor, h, Bool.xor_true, signBit]

@[simp] theorem magBits_fneg (a : Word) : magBits (fneg a) = magBits a := by
  have h : (0x8000000000000000 : Word).extractLsb' 0 63 = 0#63 := by decide
  rw [magBits, fneg, BitVec.extractLsb'_xor, h, BitVec.xor_zero, magBits]

@[simp] theorem isfinite_fneg (a : Word) : isfinite (fneg a) = isfinite a := by
  rw [Bool.eq_iff_iff, isfinite_iff, isfinite_iff, magBits_fneg]

@[simp] theorem magUnits_fneg (a : Word) : magUnits (fneg a) = magUnits a := by
  rw [magUnits_eq, magUnits_eq, magBits_fneg]

@[simp] theorem units_fneg (a : Word) : units (fneg a) = -units a := by
  simp only [units, signBit_fneg, magUnits_fneg]
  cases signBit a <;> simp

@[simp] theorem signBit_fabs (a : Word) : signBit (fabs a) = false := by
  have h : (0x7FFFFFFFFFFFFFFF : Word).msb = false := by decide
  rw [signBit, fabs, BitVec.msb_and, h, Bool.and_false]

@[simp] theorem magBits_fabs (a : Word) : magBits (fabs a) = magBits a := by
  have h : (0x7FFFFFFFFFFFFFFF : Word).extractLsb' 0 63 = BitVec.allOnes 63 := by decide
  rw [magBits, fabs, BitVec.extractLsb'_and, h, BitVec.and_allOnes, magBits]

@[simp] theorem isfinite_fabs (a : Word) : isfinite (fabs a) = isfinite a := by
  rw [Bool.eq_iff_iff, isfinite_iff, isfinite_iff, magBits_fabs]

@[simp] theorem units_fabs (a : Word) : units (fabs a) = magUnits a := by
  simp [units, magUnits_eq]

theorem natAbs_units (a : Word) : (units a).natAbs = magUnits a := by
  simp only [units]; split <;> simp

/-- A sample is admissible exactly when it is finite with a magnitude of at most `2^64` (40_numerics R134). -/
theorem admissible_iff (x : Word) :
    admissible x = true ↔ isfinite x = true ∧ magUnits x ≤ oneUnits <<< 64 := by
  have h1 : isfinite Config.twoPow64 = true := by decide +kernel
  have h2 : units Config.twoPow64 = ((oneUnits <<< 64 : Nat) : Int) := by decide +kernel
  rw [admissible, Bool.and_eq_true]
  constructor
  · rintro ⟨hf, hl⟩
    rw [fle_iff (by simpa using hf) h1, units_fabs, h2] at hl
    exact ⟨hf, by exact_mod_cast hl⟩
  · rintro ⟨hf, hl⟩
    refine ⟨hf, ?_⟩
    rw [fle_iff (by simpa using hf) h1, units_fabs, h2]
    exact_mod_cast hl

/-! ### Rounding -/

/-- The integer nearest to a quotient, ties to even. -/
theorem divNearestEven_spec (n : Nat) {d : Nat} (hd : 0 < d) :
    (2 * n ≤ 2 * (divNearestEven n d * d) + d ∧ 2 * (divNearestEven n d * d) ≤ 2 * n + d) ∧
    (2 * n = 2 * (divNearestEven n d * d) + d ∨ 2 * (divNearestEven n d * d) = 2 * n + d →
      divNearestEven n d % 2 = 0) := by
  have hn : n = d * (n / d) + n % d := (Nat.div_add_mod n d).symm
  have hr := Nat.mod_lt n hd
  simp only [divNearestEven]
  generalize n / d = k at *
  generalize n % d = r at *
  subst hn
  split
  · rw [Nat.add_mul, Nat.mul_comm k d]; omega
  · rw [Nat.mul_comm k d]; omega

/-- The exponent of the spacing that `roundUnits` uses at a quotient. -/
def ulpExponent (n d : Nat) : Nat := Nat.log2 (n / d) - 52

theorem ulpExponent_spec (n d : Nat) :
    n / d < 2 ^ (ulpExponent n d + 53) ∧ (ulpExponent n d = 0 ∨ 2 ^ (ulpExponent n d + 52) ≤ n / d) := by
  rw [ulpExponent]
  generalize n / d = k
  rcases Nat.eq_zero_or_pos k with rfl | hk
  · exact ⟨by positivity, .inl (by decide)⟩
  · have h1 : k < 2 ^ (k.log2 + 1) := Nat.lt_log2_self
    have h2 : 2 ^ k.log2 ≤ k := Nat.log2_self_le (by omega)
    refine ⟨h1.trans_le (Nat.pow_le_pow_right (by omega) (by omega)), ?_⟩
    by_cases h : k.log2 ≤ 52
    · exact .inl (by omega)
    · exact .inr (by rw [show k.log2 - 52 + 52 = k.log2 by omega]; exact h2)

/-- The significand that `roundUnits` takes at a quotient. -/
def roundedSignificand (n d : Nat) : Nat := divNearestEven n (d * 2 ^ ulpExponent n d)

theorem roundUnits_eq (n d : Nat) :
    roundUnits n d = min infMag (ulpExponent n d * 2 ^ 52 + roundedSignificand n d) := by
  unfold roundUnits
  simp only [Nat.shiftLeft_eq]
  rfl

/-- The significand stays within one binade, and the error is at most half the spacing. -/
theorem roundedSignificand_spec (n : Nat) {d : Nat} (hd : 0 < d) :
    let u := ulpExponent n d
    let m := roundedSignificand n d
    (u = 0 ∨ 2 ^ 52 ≤ m) ∧ m ≤ 2 ^ 53 ∧ (u = 0 ∨ 2 ^ 52 * (d * 2 ^ u) ≤ n) ∧ n < 2 ^ 53 * (d * 2 ^ u) := by
  intro u m
  obtain ⟨h1, h2⟩ := ulpExponent_spec n d
  have hD : 0 < d * 2 ^ u := by positivity
  obtain ⟨⟨e1, e2⟩, -⟩ := divNearestEven_spec n hD
  change 2 * n ≤ 2 * (m * (d * 2 ^ u)) + d * 2 ^ u at e1
  change 2 * (m * (d * 2 ^ u)) ≤ 2 * n + d * 2 ^ u at e2
  have hlt : n < 2 ^ 53 * (d * 2 ^ u) := by
    have := (Nat.div_lt_iff_lt_mul hd).1 h1
    calc n < 2 ^ (u + 53) * d := this
      _ = 2 ^ 53 * (d * 2 ^ u) := by ring
  have hle : u = 0 ∨ 2 ^ 52 * (d * 2 ^ u) ≤ n := by
    rcases h2 with h2 | h2
    · exact .inl h2
    · right
      have := (Nat.le_div_iff_mul_le hd).1 h2
      calc 2 ^ 52 * (d * 2 ^ u) = 2 ^ (u + 52) * d := by ring
        _ ≤ n := this
  generalize d * 2 ^ u = D at *
  refine ⟨?_, ?_, hle, hlt⟩
  · rcases hle with h | h
    · exact .inl h
    · right
      by_contra hc
      have : m + 1 ≤ 2 ^ 52 := by omega
      nlinarith
  · by_contra hc
    have : 2 ^ 53 + 1 ≤ m := by omega
    nlinarith

/-- A significand that fills its binade carries into the exponent field by itself. -/
theorem unitsOfBits_ulp {u m : Nat} (h1 : u = 0 ∨ 2 ^ 52 ≤ m) (h2 : m ≤ 2 ^ 53) :
    unitsOfBits (u * 2 ^ 52 + m) = m * 2 ^ u := by
  by_cases hm : m = 2 ^ 53
  · have hd : (u * 2 ^ 52 + m) / 2 ^ 52 = u + 2 := by omega
    have hr : (u * 2 ^ 52 + m) % 2 ^ 52 = 0 := by omega
    rw [unitsOfBits, hd, hr, if_neg (by omega), show u + 2 - 1 = u + 1 by omega, hm]
    ring
  · by_cases h52 : 2 ^ 52 ≤ m
    · have hd : (u * 2 ^ 52 + m) / 2 ^ 52 = u + 1 := by omega
      have hr : (u * 2 ^ 52 + m) % 2 ^ 52 = m - 2 ^ 52 := by omega
      rw [unitsOfBits, hd, hr, if_neg (by omega), Nat.add_sub_cancel, Nat.add_sub_cancel' h52]
    · have hu : u = 0 := by omega
      subst hu
      rw [unitsOfBits, if_pos (by omega)]
      ring

/-- A value that is no multiple of the spacing lies below the binade of that spacing. -/
theorem unitsOfBits_grid (c u : Nat) : 2 ^ u ∣ unitsOfBits c ∨ unitsOfBits c < 2 ^ 52 * 2 ^ u := by
  have hr : c % 2 ^ 52 < 2 ^ 52 := Nat.mod_lt _ (by positivity)
  have hp : 0 < 2 ^ u := by positivity
  rw [unitsOfBits]
  split
  · right; nlinarith [show c < 2 ^ 52 by omega]
  · generalize c / 2 ^ 52 = e at *
    by_cases h : u + 1 ≤ e
    · left
      exact Dvd.dvd.mul_left (pow_dvd_pow 2 (by omega)) _
    · right
      obtain ⟨k, rfl⟩ : ∃ k, e = k + 1 := ⟨e - 1, by omega⟩
      rw [Nat.add_sub_cancel]
      have h2 : 2 ^ (k + 1) ≤ 2 ^ u := Nat.pow_le_pow_right (by omega) (by omega)
      have h3 : 0 < 2 ^ k := by positivity
      calc (2 ^ 52 + c % 2 ^ 52) * 2 ^ k < (2 ^ 52 + 2 ^ 52) * 2 ^ k := Nat.mul_lt_mul_of_pos_right (by omega) h3
        _ = 2 ^ 52 * 2 ^ (k + 1) := by ring
        _ ≤ 2 ^ 52 * 2 ^ u := Nat.mul_le_mul_left _ h2

/-- THE ROUNDING LEMMA: a finite result of `roundUnits` is the value nearest to the quotient, and of two
nearest values the one whose last bit is 0. -/
theorem roundUnits_nearest (n : Nat) {d : Nat} (hd : 0 < d) (hf : roundUnits n d < infMag) (c : Nat)
    (hc : unitsOfBits c ≠ unitsOfBits (roundUnits n d)) :
    let err := fun v : Nat => |(n : Int) - d * v|
    err (unitsOfBits (roundUnits n d)) < err (unitsOfBits c) ∨
      (err (unitsOfBits (roundUnits n d)) = err (unitsOfBits c) ∧ roundUnits n d % 2 = 0) := by
  intro err
  obtain ⟨h1, h2, h3, -⟩ := roundedSignificand_spec n hd
  have hD : 0 < d * 2 ^ ulpExponent n d := by positivity
  obtain ⟨⟨e1, e2⟩, e3⟩ := divNearestEven_spec n hD
  rw [← roundedSignificand] at e1 e2 e3
  have hr : roundUnits n d = ulpExponent n d * 2 ^ 52 + roundedSignificand n d := by
    rw [roundUnits_eq] at hf ⊢; omega
  have hodd : roundUnits n d % 2 = roundedSignificand n d % 2 := by omega
  rw [hodd]
  rw [hr, unitsOfBits_ulp h1 h2] at hc ⊢
  have hgrid := unitsOfBits_grid c (ulpExponent n d)
  simp only [err]
  clear hf hr hodd err
  generalize unitsOfBits c = v at *
  generalize roundedSignificand n d = m at *
  generalize ulpExponent n d = u at *
  have hB : ((d : Int) * ((m * 2 ^ u : Nat) : Int)) = ((m * (d * 2 ^ u) : Nat) : Int) := by push_cast; ring
  rw [hB, Int.abs_eq_natAbs, Int.abs_eq_natAbs]
  rcases hgrid with ⟨k, rfl⟩ | hlow
  · have hA : ((d : Int) * ((2 ^ u * k : Nat) : Int)) = ((k * (d * 2 ^ u) : Nat) : Int) := by push_cast; ring
    rw [hA]
    have hne : k ≠ m := by rintro rfl; exact hc (by ring)
    rcases Nat.lt_or_gt_of_ne hne with hlt | hgt
    · have : k * (d * 2 ^ u) + d * 2 ^ u ≤ m * (d * 2 ^ u) := by
        calc k * (d * 2 ^ u) + d * 2 ^ u = (k + 1) * (d * 2 ^ u) := by ring
          _ ≤ m * (d * 2 ^ u) := Nat.mul_le_mul_right _ hlt
      generalize k * (d * 2 ^ u) = A at *
      generalize m * (d * 2 ^ u) = B at *
      generalize d * 2 ^ u = D at *
      omega
    · have : m * (d * 2 ^ u) + d * 2 ^ u ≤ k * (d * 2 ^ u) := by
        calc m * (d * 2 ^ u) + d * 2 ^ u = (m + 1) * (d * 2 ^ u) := by ring
          _ ≤ k * (d * 2 ^ u) := Nat.mul_le_mul_right _ hgt
      generalize k * (d * 2 ^ u) = A at *
      generalize m * (d * 2 ^ u) = B at *
      generalize d * 2 ^ u = D at *
      omega
  · by_cases hu : u = 0
    · subst hu
      have hne : v ≠ m := by simpa using hc
      simp only [Nat.pow_zero, Nat.mul_one] at *
      have hA : ((d : Int) * (v : Int)) = ((v * d : Nat) : Int) := by push_cast; ring
      rw [hA]
      rcases Nat.lt_or_gt_of_ne hne with hlt | hgt
      · have : v * d + d ≤ m * d := by
          calc v * d + d = (v + 1) * d := by ring
            _ ≤ m * d := Nat.mul_le_mul_right _ hlt
        generalize v * d = A at *
        generalize m * d = B at *
        omega
      · have : m * d + d ≤ v * d := by
          calc m * d + d = (m + 1) * d := by ring
            _ ≤ v * d := Nat.mul_le_mul_right _ hgt
        generalize v * d = A at *
        generalize m * d = B at *
        omega
    · have hA : ((d : Int) * (v : Int)) = ((d * v : Nat) : Int) := by push_cast; ring
      rw [hA]
      have hlt : d * v < 2 ^ 52 * (d * 2 ^ u) := by
        calc d * v < d * (2 ^ 52 * 2 ^ u) := Nat.mul_lt_mul_of_pos_left hlow hd
          _ = 2 ^ 52 * (d * 2 ^ u) := by ring
      have hE : 2 ^ 52 * (d * 2 ^ u) ≤ n := by omega
      have hm : m = 2 ^ 52 ∨ 2 ^ 52 + 1 ≤ m := by omega
      have hB' : m * (d * 2 ^ u) = 2 ^ 52 * (d * 2 ^ u) ∨ 2 ^ 52 * (d * 2 ^ u) + d * 2 ^ u ≤ m * (d * 2 ^ u) := by
        rcases hm with rfl | hm
        · exact .inl rfl
        · right
          calc 2 ^ 52 * (d * 2 ^ u) + d * 2 ^ u = (2 ^ 52 + 1) * (d * 2 ^ u) := by ring
            _ ≤ m * (d * 2 ^ u) := Nat.mul_le_mul_right _ hm
      generalize 2 ^ 52 * (d * 2 ^ u) = E at *
      generalize m * (d * 2 ^ u) = B at *
      generalize d * v = A at *
      generalize d * 2 ^ u = D at *
      omega

/-- The result is finite exactly when the quotient is below the midpoint past the largest finite value. -/
theorem roundUnits_lt_infMag_iff (n : Nat) {d : Nat} (hd : 0 < d) :
    roundUnits n d < infMag ↔ n < (((1 <<< 54) - 1) <<< 2044) * d := by
  obtain ⟨h1, h2, h3, h4⟩ := roundedSignificand_spec n hd
  have hD : 0 < d * 2 ^ ulpExponent n d := by positivity
  obtain ⟨⟨e1, e2⟩, e3⟩ := divNearestEven_spec n hD
  rw [← roundedSignificand] at e1 e2 e3
  have hlim : (((1 <<< 54) - 1) <<< 2044) * d = (2 ^ 54 - 1) * (d * 2 ^ 2044) := by
    rw [Nat.shiftLeft_eq, Nat.shiftLeft_eq, Nat.one_mul, Nat.mul_assoc, Nat.mul_comm (2 ^ 2044) d]
  rw [roundUnits_eq, hlim, infMag_eq]
  generalize roundedSignificand n d = m at *
  generalize ulpExponent n d = u at *
  have key : min (2047 * 2 ^ 52) (u * 2 ^ 52 + m) < 2047 * 2 ^ 52 ↔ u * 2 ^ 52 + m < 2047 * 2 ^ 52 := by omega
  rw [key]
  rcases lt_trichotomy u 2045 with hu | hu | hu
  · have hp : d * 2 ^ u ≤ d * 2 ^ 2044 := Nat.mul_le_mul_left _ (Nat.pow_le_pow_right (by omega) (by omega))
    have hq : 0 < d * 2 ^ 2044 := by positivity
    constructor
    · intro _
      generalize d * 2 ^ 2044 = Q at *
      generalize d * 2 ^ u = D at *
      omega
    · intro _; omega
  · have hp : d * 2 ^ u = 2 * (d * 2 ^ 2044) := by rw [hu, Nat.pow_succ]; ring
    rw [hp] at e1 e2 e3
    generalize d * 2 ^ 2044 = Q at *
    have : m = 2 ^ 53 ∨ m + 1 ≤ 2 ^ 53 := by omega
    rcases this with rfl | hm
    · constructor
      · intro h; omega
      · intro h; omega
    · have hle : m * (2 * Q) + 2 * Q ≤ 2 ^ 53 * (2 * Q) := by
        calc m * (2 * Q) + 2 * Q = (m + 1) * (2 * Q) := by ring
          _ ≤ 2 ^ 53 * (2 * Q) := Nat.mul_le_mul_right _ hm
      have hQ : 0 < Q := by omega
      constructor
      · intro _
        by_contra hc
        have heq : m * (2 * Q) + 2 * Q = 2 ^ 53 * (2 * Q) ∧ 2 * n = 2 * (m * (2 * Q)) + 2 * Q := by omega
        have : m + 1 = 2 ^ 53 := by
          have := heq.1
          rw [← Nat.succ_mul] at this
          exact Nat.eq_of_mul_eq_mul_right (by omega) this
        have := e3 (.inl heq.2)
        omega
      · intro _; omega
  · have hp : 2 * (2 * (d * 2 ^ 2044)) ≤ d * 2 ^ u := by
      calc 2 * (2 * (d * 2 ^ 2044)) = d * 2 ^ 2046 := by rw [show 2046 = 2044 + 2 from rfl, Nat.pow_add]; ring
        _ ≤ d * 2 ^ u := Nat.mul_le_mul_left _ (Nat.pow_le_pow_right (by omega) (by omega))
    have hq : 0 < d * 2 ^ 2044 := by positivity
    generalize d * 2 ^ 2044 = Q at *
    generalize d * 2 ^ u = D at *
    constructor
    · intro _; omega
    · intro _; omega

end Sys2Proof.Machine
end

