-- ==== Sys2Proof/Laws/PerInstr.lean ====
section
/-! SUPPORT. Families of statements made once for each command. -/

namespace Sys2Proof.Laws

/-- `RowMatch`: the encoding of a well-formed command matches the opcode table's row with its mnemonic
(30_encoding R103). -/
def RowMatch.Statement (i : Instr) : Prop :=
  WellFormed i → ∃ r ∈ opcodeRows, r.Matches (encode i) ∧ r.mnemonic = mnemonicOf i

/-- The bulk fields do not show under a row's mask that leaves them free. -/
theorem bulk_masked (op : BitVec 8) (arm : BitVec 1) (count src dst : BitVec 16) (m : Word)
    (h : m &&& 0xFFFFFFFFFFFF0000 = 0) :
    packFields { op := op, arm := arm, v := 0, rsv := 0, count := count, src := src, dst := dst } &&& m =
      packFields { op := op, arm := arm, v := 0, rsv := 0, count := 0, src := 0, dst := 0 } &&& m := by
  apply BitVec.eq_of_getLsbD_eq
  intro k hk
  have hb : (m &&& 0xFFFFFFFFFFFF0000).getLsbD k = false := by rw [h]; simp
  rw [BitVec.getLsbD_and] at hb
  simp only [packFields, BitVec.getLsbD_and, BitVec.getLsbD_append]
  by_cases hk16 : k < 16
  · grind
  · have hmask : (0xFFFFFFFFFFFF0000 : Word).getLsbD k = true := by
      have : ∀ j : Fin 64, ¬j.val < 16 → (0xFFFFFFFFFFFF0000 : Word).getLsbD j.val = true := by decide
      exact this ⟨k, hk⟩ hk16
    rw [hmask, Bool.and_true] at hb
    simp [hb]

theorem RowMatch.nop : RowMatch.Statement .nop := fun _ => ⟨_, List.getElem_mem (n := 0) (by decide), by decide⟩
theorem RowMatch.clearAll : RowMatch.Statement .clearAll :=
  fun _ => ⟨_, List.getElem_mem (n := 1) (by decide), by decide⟩
theorem RowMatch.step : RowMatch.Statement .step :=
  fun _ => ⟨_, List.getElem_mem (n := 2) (by decide), by decide⟩
theorem RowMatch.cfgCommit : RowMatch.Statement .cfgCommit :=
  fun _ => ⟨_, List.getElem_mem (n := 3) (by decide), by decide⟩
theorem RowMatch.agcUpdate : RowMatch.Statement .agcUpdate :=
  fun _ => ⟨_, List.getElem_mem (n := 4) (by decide), by decide⟩
theorem RowMatch.agcClear : RowMatch.Statement .agcClear :=
  fun _ => ⟨_, List.getElem_mem (n := 5) (by decide), by decide⟩
theorem RowMatch.ddcUpdate : RowMatch.Statement .ddcUpdate :=
  fun _ => ⟨_, List.getElem_mem (n := 6) (by decide), by decide⟩
theorem RowMatch.ddcClear : RowMatch.Statement .ddcClear :=
  fun _ => ⟨_, List.getElem_mem (n := 7) (by decide), by decide⟩
theorem RowMatch.firUpdate (arm : Arm) : RowMatch.Statement (.firUpdate arm) :=
  fun _ => ⟨_, List.getElem_mem (n := 8) (by decide), by cases arm <;> decide⟩
theorem RowMatch.firClear (arm : Arm) : RowMatch.Statement (.firClear arm) :=
  fun _ => ⟨_, List.getElem_mem (n := 9) (by decide), by cases arm <;> decide⟩
theorem RowMatch.firApply (arm : Arm) (count src dst : Nat) :
    RowMatch.Statement (.firApply arm count src dst) :=
  fun _ => ⟨_, List.getElem_mem (n := 10) (by decide),
    (bulk_masked _ _ _ _ _ _ (by decide)).trans (by cases arm <;> decide), rfl⟩
theorem RowMatch.pgEval (arm : Arm) : RowMatch.Statement (.pgEval arm) :=
  fun _ => ⟨_, List.getElem_mem (n := 11) (by decide), by cases arm <;> decide⟩
theorem RowMatch.idUpdate (arm : Arm) : RowMatch.Statement (.idUpdate arm) :=
  fun _ => ⟨_, List.getElem_mem (n := 12) (by decide), by cases arm <;> decide⟩
theorem RowMatch.idClear (arm : Arm) : RowMatch.Statement (.idClear arm) :=
  fun _ => ⟨_, List.getElem_mem (n := 13) (by decide), by cases arm <;> decide⟩
theorem RowMatch.idApply (count src dst : Nat) : RowMatch.Statement (.idApply count src dst) :=
  fun _ => ⟨_, List.getElem_mem (n := 14) (by decide),
    (bulk_masked _ _ _ _ _ _ (by decide)).trans (by decide), rfl⟩
theorem RowMatch.bsyncUpdate (v : Bool) : RowMatch.Statement (.bsyncUpdate v) :=
  fun _ => ⟨_, List.getElem_mem (n := 15) (by decide), by cases v <;> decide⟩
theorem RowMatch.bsyncClear : RowMatch.Statement .bsyncClear :=
  fun _ => ⟨_, List.getElem_mem (n := 16) (by decide), by decide⟩

end Sys2Proof.Laws
end

