-- ==== Sys2Proof/Laws/Runs.lean ====
section
/-! SUPPORT. Short runs of commands: what `nextOf`, `feed`, `feedAll` and `syncAll` answer, and that a ready
block stays ready. -/

namespace Sys2Proof.Machine

theorem nextOf_eq (i : Instr) (s : State) : nextOf i s = some (issue i (commandResult i s) s) := by
  simp [nextOf, exec_eq_issue]

theorem nextOf_eq_some_iff {i : Instr} {s t : State} : nextOf i s = some t ↔ exec i s = .next t := by
  simp [nextOf, exec_eq_issue]

theorem feed_eq (i : Instr) (x : Word) (s : State) :
    feed i x s = some (issue i (commandResult i { s with din0 := x }) { s with din0 := x }) := nextOf_eq _ _

/-- A ready block completes an accepted command in the step that issues it. -/
theorem exec_ready {i : Instr} {s : State} {e : Effects} (h : s.Ready) (hr : commandResult i s = .ok e) :
    exec i s = .next (complete e { s with draws := s.draws + readsOf i }) := by
  rw [exec_eq_issue, hr, issue_ok_ready h.1 h.2]

/-- An idle block rejects a command by its own checks whatever the schedule. -/
theorem exec_rejected {i : Instr} {s : State} {r : Rejection} (h : s.Idle)
    (hr : commandResult i s = .error r) :
    exec i s = .next (reject r (encode i) { s with draws := s.draws + readsOf i }) := by
  rw [exec_eq_issue, hr, issue_error h]

/-- Every command leaves a ready block ready. -/
theorem Ready_of_exec {i : Instr} {s t : State} (h : s.Ready) (he : exec i s = .next t) : t.Ready := by
  rw [exec_eq_issue] at he
  cases he
  cases hr : commandResult i s with
  | error r => rw [issue_error h.1]; exact ⟨by simp [h.1], by simp [h.2]⟩
  | ok e => rw [issue_ok_ready h.1 h.2]; exact ⟨rfl, h.2⟩

/-! ### What each accepted command leaves

One lemma for each command: on a ready block, with its operands in range, it completes with the effects of
its pseudocode. -/

theorem exec_nop_ready {s : State} (h : s.Ready) : exec .nop s = .next (complete (quiet s.block) s) :=
  exec_ready h rfl

theorem exec_clearAll_ready {s : State} (h : s.Ready) :
    exec .clearAll s = .next (complete (quiet (allCleared s.params s.block)) s) := exec_ready h rfl

theorem exec_step_ready {s : State} (h : s.Ready) (hx : admissible s.din0 = true) :
    exec .step s = .next (complete (stepped s.block s.din0) s) :=
  exec_ready (e := stepped s.block s.din0) h (by rw [commandResult]; exact withSample_ok hx)

theorem exec_cfgCommit_ready {s : State} (h : s.Ready) (hc : configFault s.params s.staged = 0) :
    exec .cfgCommit s = .next (complete (quiet (committed s.params s.staged s.block)) s) :=
  exec_ready h (by rw [commandResult, if_pos hc])

theorem exec_agcUpdate_ready {s : State} (h : s.Ready) (hx : admissible s.din0 = true) :
    exec .agcUpdate s = .next (complete
      { block := agcStage s.block s.din0, agcDegen := agcStageDegenerate s.block s.din0,
        bitReady := false } s) :=
  exec_ready h (by rw [commandResult, withSample_ok hx])

theorem exec_agcClear_ready {s : State} (h : s.Ready) :
    exec .agcClear s = .next (complete (quiet (agcCleared s.params s.block)) s) := exec_ready h rfl

theorem exec_ddcUpdate_ready {s : State} (h : s.Ready) (hx : admissible s.din0 = true) :
    exec .ddcUpdate s = .next (complete (quiet (ddcStage s.block s.din0)) s) :=
  exec_ready h (by rw [commandResult, withSample_ok hx])

theorem exec_ddcClear_ready {s : State} (h : s.Ready) :
    exec .ddcClear s = .next (complete (quiet (ddcCleared s.block)) s) := exec_ready h rfl

theorem exec_firUpdate_ready {arm : Arm} {s : State} (h : s.Ready) (hx : admissible s.din0 = true) :
    exec (.firUpdate arm) s = .next (complete (quiet (firStage arm s.block s.din0)) s) :=
  exec_ready h (by rw [commandResult, withSample_ok hx])

theorem exec_firClear_ready {arm : Arm} {s : State} (h : s.Ready) :
    exec (.firClear arm) s = .next (complete (quiet (firCleared s.params arm s.block)) s) := exec_ready h rfl

theorem exec_firApply_ready {arm : Arm} {count src dst : Nat} {s : State} (h : s.Ready) (h0 : 1 ≤ count)
    (h1 : src + count ≤ s.params.bufDepth) (h2 : dst + count ≤ s.params.bufDepth)
    (hx : ∀ x ∈ bulkInputs s src count, admissible x = true) :
    exec (.firApply arm count src dst) s = .next (complete
      (quiet (firApplied s.params arm dst s.block (bulkInputs s src count)))
      { s with draws := s.draws + count }) :=
  exec_ready h (by rw [commandResult, withBulk_ok h0 h1 h2 hx])

theorem exec_pgEval_ready {arm : Arm} {s : State} (h : s.Ready) (hx : admissible s.din0 = true) :
    exec (.pgEval arm) s = .next (complete (quiet (pgStage arm s.block s.din0)) s) :=
  exec_ready h (by rw [commandResult, withSample_ok hx])

theorem exec_idUpdate_ready {arm : Arm} {s : State} (h : s.Ready) (hx : admissible s.din0 = true) :
    exec (.idUpdate arm) s = .next (complete (quiet (idStage arm s.block s.din0)) s) :=
  exec_ready h (by rw [commandResult, withSample_ok hx])

theorem exec_idClear_ready {arm : Arm} {s : State} (h : s.Ready) :
    exec (.idClear arm) s = .next (complete (quiet (idCleared s.params arm s.block)) s) := exec_ready h rfl

theorem exec_idApply_ready {count src dst : Nat} {s : State} (h : s.Ready)
    (h0 : 1 ≤ count / s.block.active.regs.l.toNat) (h1 : src + count ≤ s.params.bufDepth)
    (h2 : dst + count / s.block.active.regs.l.toNat ≤ s.params.bufDepth)
    (hx : ∀ x ∈ bulkInputs s src count, admissible x = true) :
    exec (.idApply count src dst) s = .next (complete
      (quiet (idApplied count dst s.block (bulkInputs s src count))) { s with draws := s.draws + count }) :=
  exec_ready h (by rw [commandResult, withBulk_ok h0 h1 h2 hx])

theorem exec_bsyncUpdate_ready {v : Bool} {s : State} (h : s.Ready) (h0 : admissible s.din0 = true)
    (h1 : admissible s.din1 = true) :
    exec (.bsyncUpdate v) s = .next (complete
      { block := bsStage s.block s.din0 s.din1 v, agcDegen := false, bitReady := bsEmits s.block v } s) :=
  exec_ready h (by rw [commandResult, withSamplePair_ok h0 h1])

theorem exec_bsyncClear_ready {s : State} (h : s.Ready) :
    exec .bsyncClear s = .next (complete (quiet (bsCleared s.block)) s) := exec_ready h rfl

/-- The bits that the completion of a command without events of its own sets. -/
theorem StickyAdds_complete_quiet (b : Block) (s : State) : StickyAdds [.cmdDone] s (complete (quiet b) s) := by
  intro c
  simp [hasSticky_completionSticky]

/-- A completion changes the block and the sticky bits, and ends the command. -/
theorem complete_eq {s : State} (h : s.pending = none) (e : Effects) :
    complete e s = { s with block := e.block, sticky := completionSticky e s.sticky } := by
  rw [complete, h]

/-! ### Runs -/

@[simp] theorem feedAll_nil (i : Instr) (s : State) : feedAll i [] s = some [] := rfl

theorem feedAll_cons (i : Instr) (x : Word) (xs : List Word) (s t : State) (h : feed i x s = some t) :
    feedAll i (x :: xs) s = (feedAll i xs t).map (t :: ·) := by simp [feedAll, h]

@[simp] theorem syncAll_nil (s : State) : syncAll [] s = some [] := rfl

theorem syncAll_cons (v : Bool) (vs : List Bool) (s t : State) (h : nextOf (.bsyncUpdate v) s = some t) :
    syncAll (v :: vs) s = (syncAll vs t).map (t :: ·) := by simp [syncAll, h]

/-- A run of a sequence of samples answers one state for each sample. -/
theorem feedAll_length (i : Instr) (xs : List Word) (s : State) :
    ∃ ts, feedAll i xs s = some ts ∧ ts.length = xs.length := by
  induction xs generalizing s with
  | nil => exact ⟨[], rfl, rfl⟩
  | cons x xs ih =>
    obtain ⟨ts, h, hl⟩ := ih (issue i (commandResult i { s with din0 := x }) { s with din0 := x })
    exact ⟨_ :: ts, by rw [feedAll_cons i x xs s _ (feed_eq i x s), h]; rfl, by simp [hl]⟩

end Sys2Proof.Machine
end

