-- ==== Sys2Proof/Laws/Stages.lean ====
section
/-! SUPPORT. The stages of the datapath: the shapes of their buffers, and what each leaves alone. -/

namespace Sys2Proof.Machine

/-! ### FIR histories (43_fir R160) -/

theorem firShift_length {n : Nat} {hist : List Word} (x : Word) (h1 : 1 ≤ n) (h2 : n ≤ hist.length) :
    (firShift n hist x).length = hist.length := by
  simp [firShift]; omega

@[simp] theorem firShift_zero (n : Nat) (hist : List Word) (x : Word) : (firShift n hist x)[0]? = some x := by
  simp [firShift]

/-- Entry `k` of the active part is the entry before it in time. -/
theorem firShift_inside {n k : Nat} {hist : List Word} (x : Word) (h : n ≤ hist.length) (h1 : 1 ≤ k)
    (h2 : k < n) : (firShift n hist x)[k]? = hist[k - 1]? := by
  obtain ⟨j, rfl⟩ : ∃ j, k = j + 1 := ⟨k - 1, by omega⟩
  have hj : j < (hist.take (n - 1)).length := by rw [List.length_take]; omega
  simp only [firShift, List.cons_append, List.getElem?_cons_succ, Nat.add_sub_cancel]
  rw [List.getElem?_append_left hj, List.getElem?_take_of_lt (by omega)]

/-- The entries past the active part stay. -/
theorem firShift_outside {n k : Nat} {hist : List Word} (x : Word) (h1 : 1 ≤ n) (h : n ≤ hist.length)
    (h2 : n ≤ k) : (firShift n hist x)[k]? = hist[k]? := by
  obtain ⟨j, rfl⟩ : ∃ j, k = j + 1 := ⟨k - 1, by omega⟩
  have hl : (hist.take (n - 1)).length = n - 1 := by rw [List.length_take]; omega
  simp only [firShift, List.cons_append, List.getElem?_cons_succ]
  rw [List.getElem?_append_right (by omega), hl, List.getElem?_drop]
  congr 1; omega

/-- The active part after a shift. -/
theorem take_firShift {n : Nat} {hist : List Word} (x : Word) (h1 : 1 ≤ n) (h : n ≤ hist.length) :
    (firShift n hist x).take n = (x :: hist).take n := by
  obtain ⟨m, rfl⟩ : ∃ m, n = m + 1 := ⟨n - 1, by omega⟩
  simp [firShift, List.take_append, List.take_take]
  omega

theorem drop_firShift {n : Nat} {hist : List Word} (x : Word) (h1 : 1 ≤ n) (h : n ≤ hist.length) :
    (firShift n hist x).drop n = hist.drop n := by
  obtain ⟨m, rfl⟩ : ∃ m, n = m + 1 := ⟨n - 1, by omega⟩
  have hl : (hist.take m).length = m := by rw [List.length_take]; omega
  simp [firShift, hl]

theorem firHistory_append (c : CfgCopy) (hist xs ys : List Word) :
    firHistory c hist (xs ++ ys) = firHistory c (firHistory c hist xs) ys := by
  simp [firHistory, List.foldl_append]

theorem firHistory_length {c : CfgCopy} {hist : List Word} (xs : List Word) (h1 : 1 ≤ c.regs.n.toNat)
    (h2 : c.regs.n.toNat ≤ hist.length) : (firHistory c hist xs).length = hist.length := by
  induction xs generalizing hist with
  | nil => rfl
  | cons x xs ih =>
    have hl := firShift_length x h1 h2
    rw [show firHistory c hist (x :: xs) = firHistory c (firShift c.regs.n.toNat hist x) xs from rfl,
      ih (by omega), hl]

@[simp] theorem firOutputs_length (c : CfgCopy) (hist xs : List Word) :
    (firOutputs c hist xs).length = xs.length := by
  induction xs generalizing hist with
  | nil => rfl
  | cons x xs ih => simp [firOutputs, ih]

/-- Output `j` is the inner product over the history after the inputs up to `j`. -/
theorem firOutputs_getElem? (c : CfgCopy) (hist xs : List Word) {j : Nat} (h : j < xs.length) :
    (firOutputs c hist xs)[j]? = some (firOutput c (firHistory c hist (xs.take (j + 1)))) := by
  induction xs generalizing hist j with
  | nil => simp at h
  | cons x xs ih =>
    cases j with
    | zero => simp [firOutputs, firHistory]
    | succ j =>
      simp only [List.length_cons, Nat.add_lt_add_iff_right] at h
      simp only [firOutputs, List.getElem?_cons_succ, ih _ h]
      rfl

/-! ### Decimator windows (45_intdump R180) -/

theorem idShift_length {l : Nat} {buf : List Word} (x : Word) (h1 : 1 ≤ l) (h2 : l ≤ buf.length) :
    (idShift l buf x).length = buf.length := by
  simp [idShift]; omega

theorem idShift_inside {l k : Nat} {buf : List Word} (x : Word) (h : l ≤ buf.length) (hk : k + 1 < l) :
    (idShift l buf x)[k]? = buf[k + 1]? := by
  have hj : k < ((buf.take l).drop 1).length := by rw [List.length_drop, List.length_take]; omega
  rw [idShift, List.getElem?_append_left hj, List.getElem?_drop, List.getElem?_take_of_lt (by omega),
    Nat.add_comm]

theorem idShift_newest {l : Nat} {buf : List Word} (x : Word) (h1 : 1 ≤ l) (h : l ≤ buf.length) :
    (idShift l buf x)[l - 1]? = some x := by
  have hl : ((buf.take l).drop 1).length = l - 1 := by rw [List.length_drop, List.length_take]; omega
  rw [idShift, List.getElem?_append_right (by omega), hl]
  simp

theorem idShift_outside {l k : Nat} {buf : List Word} (x : Word) (h1 : 1 ≤ l) (h : l ≤ buf.length)
    (hk : l ≤ k) : (idShift l buf x)[k]? = buf[k]? := by
  have hl : ((buf.take l).drop 1).length = l - 1 := by rw [List.length_drop, List.length_take]; omega
  rw [idShift, List.getElem?_append_right (by omega), hl,
    show k - (l - 1) = (k - l) + 1 by omega, List.getElem?_cons_succ, List.getElem?_drop]
  congr 1; omega

/-- The window after a shift: the old one without its oldest sample, then the new sample. -/
theorem take_idShift {l : Nat} {buf : List Word} (x : Word) (h1 : 1 ≤ l) (h : l ≤ buf.length) :
    (idShift l buf x).take l = (buf.take l).drop 1 ++ [x] := by
  have hl : ((buf.take l).drop 1).length = l - 1 := by rw [List.length_drop, List.length_take]; omega
  rw [idShift, List.take_append, hl, List.take_of_length_le (by omega), show l - (l - 1) = 1 by omega]
  rfl

/-- An update that fills the window. -/
theorem idStep_full {l : Nat} {u : IntDump} (x : Word) (h : u.cnt + 1 = l) :
    idStep l u x = { unit := { buf := idShift l u.buf x, cnt := 0 },
                     out := mean ((idShift l u.buf x).take l), valid := true } := by
  simp [idStep, h]

/-- An update that does not. -/
theorem idStep_partial {l : Nat} {u : IntDump} (x : Word) (h : u.cnt + 1 ≠ l) :
    idStep l u x = { unit := { buf := idShift l u.buf x, cnt := u.cnt + 1 },
                     out := mean (u.buf.take l), valid := false } := by
  simp [idStep, h]

/-! ### The AGC window (41_agc R140, R141) -/

/-- The denominator of a gain recompute (41_agc R141). -/
def agcDenominator (c : CfgRegs) (a : Agc) : Word := fmul c.nsigma (pstd (a.buf.take c.k.toNat))

theorem agcRecompute_eq (c : CfgRegs) (a : Agc) : agcRecompute c a =
    if feq (agcDenominator c a) 0 || !isfinite (fdiv (fullScale c.w) (agcDenominator c a)) then
      { agc := a, degenerate := true }
    else { agc := { a with gain := fdiv (fullScale c.w) (agcDenominator c a) }, degenerate := false } := by
  unfold agcRecompute agcDenominator
  dsimp only

theorem agcRecompute_degenerate {c : CfgRegs} {a : Agc}
    (h : feq (agcDenominator c a) 0 = true ∨ isfinite (fdiv (fullScale c.w) (agcDenominator c a)) = false) :
    agcRecompute c a = { agc := a, degenerate := true } := by
  rw [agcRecompute_eq]
  rcases h with h | h <;> rw [h]
  · rw [Bool.true_or, if_pos rfl]
  · rw [Bool.not_false, Bool.or_true, if_pos rfl]

theorem agcRecompute_regular {c : CfgRegs} {a : Agc} (h1 : feq (agcDenominator c a) 0 = false)
    (h2 : isfinite (fdiv (fullScale c.w) (agcDenominator c a)) = true) :
    agcRecompute c a =
      { agc := { a with gain := fdiv (fullScale c.w) (agcDenominator c a) }, degenerate := false } := by
  rw [agcRecompute_eq, h1, h2]
  rfl

/-- A recompute touches only the gain, and not even that when it is degenerate. -/
theorem agcRecompute_cases (c : CfgRegs) (a : Agc) :
    agcRecompute c a = { agc := a, degenerate := true } ∨
    agcRecompute c a =
      { agc := { a with gain := fdiv (fullScale c.w) (agcDenominator c a) }, degenerate := false } := by
  cases h1 : feq (agcDenominator c a) 0 with
  | true => exact .inl (agcRecompute_degenerate (.inl h1))
  | false =>
    cases h2 : isfinite (fdiv (fullScale c.w) (agcDenominator c a)) with
    | false => exact .inl (agcRecompute_degenerate (.inr h2))
    | true => exact .inr (agcRecompute_regular h1 h2)

theorem agcPush_full {c : CfgRegs} {a : Agc} (x : Word) (h : a.pos + 1 = c.k.toNat) :
    agcPush c a x = agcRecompute c { a with buf := a.buf.set a.pos x, pos := 0 } := by
  simp [agcPush, h]

theorem agcPush_partial {c : CfgRegs} {a : Agc} (x : Word) (h : a.pos + 1 ≠ c.k.toNat) :
    agcPush c a x =
      { agc := { a with buf := a.buf.set a.pos x, pos := a.pos + 1 }, degenerate := false } := by
  simp [agcPush, h]

@[simp] theorem agcRecompute_buf (c : CfgRegs) (a : Agc) : (agcRecompute c a).agc.buf = a.buf := by
  rcases agcRecompute_cases c a with h | h <;> exact congrArg (·.agc.buf) h

@[simp] theorem agcRecompute_pos (c : CfgRegs) (a : Agc) : (agcRecompute c a).agc.pos = a.pos := by
  rcases agcRecompute_cases c a with h | h <;> exact congrArg (·.agc.pos) h

@[simp] theorem agcPush_buf (c : CfgRegs) (a : Agc) (x : Word) :
    (agcPush c a x).agc.buf = a.buf.set a.pos x := by
  by_cases h : a.pos + 1 = c.k.toNat
  · rw [agcPush_full x h, agcRecompute_buf]
  · rw [agcPush_partial x h]

theorem agcPush_pos (c : CfgRegs) (a : Agc) (x : Word) :
    (agcPush c a x).agc.pos = if a.pos + 1 = c.k.toNat then 0 else a.pos + 1 := by
  by_cases h : a.pos + 1 = c.k.toNat
  · rw [agcPush_full x h, agcRecompute_pos]; simp [h]
  · rw [agcPush_partial x h]; simp [h]

/-! ### What the stages leave alone -/

@[simp] theorem agcStage_active (b : Block) (x : Word) : (agcStage b x).active = b.active := rfl
@[simp] theorem ddcStage_active (b : Block) (x : Word) : (ddcStage b x).active = b.active := rfl
@[simp] theorem firStage_active (arm : Arm) (b : Block) (x : Word) : (firStage arm b x).active = b.active := rfl
@[simp] theorem pgStage_active (arm : Arm) (b : Block) (x : Word) : (pgStage arm b x).active = b.active := rfl
@[simp] theorem idStage_active (arm : Arm) (b : Block) (x : Word) : (idStage arm b x).active = b.active := rfl
@[simp] theorem bsStage_active (b : Block) (x y : Word) (v : Bool) : (bsStage b x y v).active = b.active := rfl
@[simp] theorem stepped_active (b : Block) (x : Word) : (stepped b x).block.active = b.active := by
  simp [stepped, pipelineFront]
@[simp] theorem firApplied_active (p : Params) (arm : Arm) (dst : Nat) (b : Block) (ins : List Word) :
    (firApplied p arm dst b ins).active = b.active := rfl
@[simp] theorem idApplied_active (count dst : Nat) (b : Block) (ins : List Word) :
    (idApplied count dst b ins).active = b.active := rfl
@[simp] theorem allCleared_active (p : Params) (b : Block) : (allCleared p b).active = b.active := rfl
@[simp] theorem committed_active (p : Params) (c : CfgCopy) (b : Block) : (committed p c b).active = c := rfl

@[simp] theorem agcStage_mem (b : Block) (x : Word) : (agcStage b x).mem = b.mem := rfl
@[simp] theorem ddcStage_mem (b : Block) (x : Word) : (ddcStage b x).mem = b.mem := rfl
@[simp] theorem firStage_mem (arm : Arm) (b : Block) (x : Word) : (firStage arm b x).mem = b.mem := rfl
@[simp] theorem pgStage_mem (arm : Arm) (b : Block) (x : Word) : (pgStage arm b x).mem = b.mem := rfl
@[simp] theorem idStage_mem (arm : Arm) (b : Block) (x : Word) : (idStage arm b x).mem = b.mem := rfl
@[simp] theorem bsStage_mem (b : Block) (x y : Word) (v : Bool) : (bsStage b x y v).mem = b.mem := rfl
@[simp] theorem stepped_mem (b : Block) (x : Word) : (stepped b x).block.mem = b.mem := by
  simp [stepped, pipelineFront]
@[simp] theorem allCleared_mem (p : Params) (b : Block) : (allCleared p b).mem = b.mem := rfl
@[simp] theorem committed_mem (p : Params) (c : CfgCopy) (b : Block) : (committed p c b).mem = b.mem := rfl

/-- `CLEAR_ALL` leaves the block as reset would, but for the configuration, `CFG_FAULT`, `BUFMEM` and the
synchronizer's delay (47_core R201). -/
theorem allCleared_eq (p : Params) (b : Block) :
    allCleared p b = { Block.reset p with
      active := b.active, cfgFault := b.cfgFault, mem := b.mem, bs := bsInitial b.active.regs.d } := rfl

end Sys2Proof.Machine
end

