-- ==== Sys2Proof/Tests/Slice0.lean ====
section
/-! SUPPORT. The model's own tests: refused terms, decoded words, one step of each command against the
vectors of 95_test_vectors, and a state that meets the hypotheses of each obligation. -/

namespace Sys2Proof.Tests

open Sys2Proof.Machine

set_option Elab.async false

/-! ### Well-formedness: each bulk field is checked (30_encoding R100) -/

theorem test_wf_firApply_count : wellFormed (.firApply .i 65536 0 0) = false := by decide
theorem test_wf_firApply_src : wellFormed (.firApply .i 1 65536 0) = false := by decide
theorem test_wf_firApply_dst : wellFormed (.firApply .i 1 0 65536) = false := by decide
theorem test_wf_idApply_count : wellFormed (.idApply 65536 0 0) = false := by decide
theorem test_wf_idApply_src : wellFormed (.idApply 1 65536 0) = false := by decide
theorem test_wf_idApply_dst : wellFormed (.idApply 1 0 65536) = false := by decide

/-! ### Decoding: the words of 30_encoding R103, written `DST SRC COUNT RSV V ARM OP` -/

theorem test_decode_nop :
    decode 0b0000000000000000_0000000000000000_0000000000000000_000000_0_0_00000000 =
      .ok (.nop) := by decide
theorem test_decode_clearAll :
    decode 0b0000000000000000_0000000000000000_0000000000000000_000000_0_0_00000001 =
      .ok (.clearAll) := by decide
theorem test_decode_step :
    decode 0b0000000000000000_0000000000000000_0000000000000000_000000_0_0_00000010 =
      .ok (.step) := by decide
theorem test_decode_cfgCommit :
    decode 0b0000000000000000_0000000000000000_0000000000000000_000000_0_0_00000011 =
      .ok (.cfgCommit) := by decide
theorem test_decode_agcUpdate :
    decode 0b0000000000000000_0000000000000000_0000000000000000_000000_0_0_00010000 =
      .ok (.agcUpdate) := by decide
theorem test_decode_agcClear :
    decode 0b0000000000000000_0000000000000000_0000000000000000_000000_0_0_00010001 =
      .ok (.agcClear) := by decide
theorem test_decode_ddcUpdate :
    decode 0b0000000000000000_0000000000000000_0000000000000000_000000_0_0_00100000 =
      .ok (.ddcUpdate) := by decide
theorem test_decode_ddcClear :
    decode 0b0000000000000000_0000000000000000_0000000000000000_000000_0_0_00100001 =
      .ok (.ddcClear) := by decide
theorem test_decode_firUpdate :
    decode 0b0000000000000000_0000000000000000_0000000000000000_000000_0_1_00110000 =
      .ok (.firUpdate .q) := by decide
theorem test_decode_firClear :
    decode 0b0000000000000000_0000000000000000_0000000000000000_000000_0_0_00110001 =
      .ok (.firClear .i) := by decide
theorem test_decode_firApply :
    decode 0b0000000000000000_0000111111111111_0000000000000010_000000_0_1_00110010 =
      .ok (.firApply .q 2 4095 0) := by decide
theorem test_decode_pgEval :
    decode 0b0000000000000000_0000000000000000_0000000000000000_000000_0_1_01000000 =
      .ok (.pgEval .q) := by decide
theorem test_decode_idUpdate :
    decode 0b0000000000000000_0000000000000000_0000000000000000_000000_0_1_01010000 =
      .ok (.idUpdate .q) := by decide
theorem test_decode_idClear :
    decode 0b0000000000000000_0000000000000000_0000000000000000_000000_0_0_01010001 =
      .ok (.idClear .i) := by decide
theorem test_decode_idApply :
    decode 0b0000000000010000_0000000000001000_0000000000000100_000000_0_0_01010010 =
      .ok (.idApply 4 8 16) := by decide
theorem test_decode_bsyncUpdate :
    decode 0b0000000000000000_0000000000000000_0000000000000000_000000_1_0_01100000 =
      .ok (.bsyncUpdate true) := by decide
theorem test_decode_bsyncClear :
    decode 0b0000000000000000_0000000000000000_0000000000000000_000000_0_0_01100001 =
      .ok (.bsyncClear) := by decide
/-- The illegal words of 95_test_vectors, L2. -/
theorem test_decode_illegal :
    ([0x102, 0x152, 0x400, 0x10010, 0x4, 0x7F, 0xFF] : List Word).any (fun w => (decode w).isOk) = false := by
  decide +kernel

/-- Every bit of `RSV` is checked (30_encoding R101). -/
theorem test_decode_reserved : ∀ k ∈ [10, 11, 12, 13, 14, 15], (decode (1 <<< k)).isOk = false := by
  decide +kernel

theorem test_decodeTableWord : decodeTableWord 64 0x0010000800040052 = some (.idApply 4 8 16) := by decide

/-! ### A small machine -/

/-- Small legal sizes. -/
def sizes : Params := { agcLenMax := 4, nTapsMax := 4, idLenMax := 4, bufDepth := 32 }

/-- The small machine right after reset. -/
def tiny : State := State.resetWith sizes

/-- Change the active configuration registers. -/
def withRegs (f : CfgRegs → CfgRegs) (s : State) : State :=
  { s with block := { s.block with active := { s.block.active with regs := f s.block.active.regs } } }

/-- Change the active taps and their number. -/
def withTaps (n : BitVec 16) (taps : List Word) (s : State) : State :=
  { s with block := { s.block with
      active := { s.block.active with regs := { s.block.active.regs with n := n }, taps := taps } } }

/-- Change the staged configuration registers. -/
def withStaged (f : CfgRegs → CfgRegs) (s : State) : State :=
  { s with staged := { s.staged with regs := f s.staged.regs } }

/-- Fill `BUFMEM` from entry `dst` on. -/
def withBuf (dst : Nat) (vs : List Word) (s : State) : State :=
  { s with block := { s.block with mem := bufWriteAll s.block.mem dst vs } }

/-- The next move. -/
def withMove (m : Move) (s : State) : State := { s with moves := [m] }

/-- A field of the state a command leaves. -/
def after {α : Type} (i : Instr) (s : State) (f : State → α) : Option α := (nextOf i s).map f

/-- A field of the state a step leaves. -/
def afterStep {α : Type} (s : State) (f : State → α) : Option α :=
  match step s with
  | .next t => some (f t)
  | .fault _ => none
  | .refused _ => none

/-! Binary64 literals: 0.1, 0.2, 0.3, 1, 2, 3, 4, 5, 6, 9, -1, -0, -2, infinity, a NaN. -/

def tenth : Word := 0x3FB999999999999A
def fifth : Word := 0x3FC999999999999A
def threeTenths : Word := 0x3FD3333333333333
def one : Word := 0x3FF0000000000000
def two : Word := 0x4000000000000000
def three : Word := 0x4008000000000000
def four : Word := 0x4010000000000000
def five : Word := 0x4014000000000000
def six : Word := 0x4018000000000000
def nine : Word := 0x4022000000000000
def minusOne : Word := 0xBFF0000000000000
def minusTwo : Word := 0xC000000000000000
def minusZero : Word := 0x8000000000000000
def infinity : Word := 0x7FF0000000000000
def aNaN : Word := 0x7FF8000000000000

/-! ### Numerics -/

/-- 95_test_vectors V-AGC-2: the population standard deviation of 1, 2, 3, 4. -/
theorem test_pstd : pstd [one, two, three, four] = 0x3FF1E3779B97F4A8 := by decide +kernel

/-- 95_test_vectors V-ID-1: (9 + 1 + 6) / 3. -/
theorem test_mean : mean [six, nine, one] = 0x4015555555555555 := by decide +kernel

/-- 95_test_vectors V-FIR-3: products are rounded before they are added. -/
theorem test_dot : dot [tenth, fifth, threeTenths] [one, one, one] = 0x3FE3333333333334 := by decide +kernel

/-- A product that underflows to zero keeps its sign, and subnormal values are exact (40_numerics R121). -/
theorem test_fmul_underflow :
    fmul 0x8000000000000001 0x0000000000000001 = minusZero ∧
    fadd 0x000FFFFFFFFFFFFF 0x0000000000000001 = 0x0010000000000000 := by decide +kernel

/-- 40_numerics R123: a nonzero value divided by a zero is an infinity; 2^1024 overflows. -/
theorem test_fdiv_by_zero :
    fdiv minusOne 0 = 0xFFF0000000000000 ∧ fmul 0x7FE0000000000000 two = infinity := by decide +kernel

/-! ### One step of each command -/

/-- 47_core R200. -/
theorem test_nop : after .nop tiny (fun t => (t.sticky, t.pending.isSome)) = some (0b0100000000, false) := by
  decide +kernel

/-- 47_core R201: the configured delay is reloaded. -/
theorem test_clearAll :
    after .clearAll (withRegs (fun c => { c with d := 7 }) tiny) (fun t => (t.block.bs, t.block.sampleCount)) =
      some ({ phase := .awaitingSettle, dcnt := 7, scnt := 0 }, 0) := by decide +kernel

/-- 95_test_vectors P1, step 0. -/
theorem test_step :
    after .step { tiny with din0 := five }
      (fun t => (t.block.agcOut, t.block.mix.i, t.block.mix.q, t.block.idOut.i, t.block.flags.word)) =
    some (five, five, 0, five, 0x71) := by decide +kernel

/-- 95_test_vectors V-CORE-3. -/
theorem test_step_operand :
    after .step { tiny with din0 := aNaN } (fun t => (t.block.sampleCount, t.sticky, t.errCmd)) =
      some (0, 0b0000000100, 2) := by decide +kernel

/-- 95_test_vectors V-CORE-1: `W = 54` and `S = 0`. -/
theorem test_cfgCommit_fault :
    after .cfgCommit (withStaged (fun c => { c with w := 54, s := 0 }) tiny)
      (fun t => (t.block.cfgFault, t.block.active.regs.w, t.sticky)) = some (0x101, 16, 0b0000000010) := by
  decide +kernel

/-- 95_test_vectors V-CORE-1: a tap past `N` is not checked. -/
theorem test_cfgCommit_unused_tap :
    after .cfgCommit
      { tiny with staged := { regs := { tiny.staged.regs with n := 2 }, taps := [one, one, aNaN, 0] } }
      (fun t => (t.block.cfgFault, t.block.active.regs.n)) = some (0, 2) := by decide +kernel

/-- 95_test_vectors V-AGC-2, the fourth input. -/
theorem test_agcUpdate :
    after .agcUpdate
      { withRegs (fun c => { c with k := 4 }) tiny with
        block := { (withRegs (fun c => { c with k := 4 }) tiny).block with
          agc := { buf := [one, two, three, 0], pos := 3, gain := one } }
        din0 := four }
      (fun t => (t.block.agc.gain, t.block.agc.pos, t.block.agcOut)) =
    some (0x40C3149DAFA2EC3B, 0, 0x40DFFFC000000000) := by decide +kernel

/-- 95_test_vectors V-AGC-5, the second input: the recompute is degenerate. -/
theorem test_agcUpdate_degenerate :
    after .agcUpdate
      { tiny with
        block := { (withRegs (fun c => { c with k := 2 }) tiny).block with
          agc := { buf := [three, 0, 0, 0], pos := 1, gain := one } }
        din0 := three }
      (fun t => (t.block.agc.gain, t.block.agcOut, t.sticky)) = some (one, three, 0b0110000000) := by
  decide +kernel

/-- 95_test_vectors V-AGC-8: `AGC_DEGEN` stays. -/
theorem test_agcClear :
    after .agcClear
      { tiny with sticky := 0b0010000000, block := { tiny.block with agc := { buf := [], pos := 3, gain := 0 } } }
      (fun t => (t.block.agc, t.sticky)) =
    some ({ buf := [0, 0, 0, 0], pos := 0, gain := one }, 0b0110000000) := by decide +kernel

/-- 95_test_vectors V-DDC-2, the second input. -/
theorem test_ddcUpdate :
    after .ddcUpdate { tiny with din0 := minusTwo, block := { tiny.block with ddcPhase := 1 } }
      (fun t => (t.block.mix, t.block.ddcPhase)) = some ({ i := minusZero, q := minusTwo }, 2) := by
  decide +kernel

/-- 42_ddc R150: the phase wraps after four samples. -/
theorem test_ddcUpdate_wrap :
    after .ddcUpdate { tiny with din0 := five, block := { tiny.block with ddcPhase := 3 } }
      (fun t => (t.block.mix, t.block.ddcPhase)) = some ({ i := 0, q := 0xC014000000000000 }, 0) := by
  decide +kernel

/-- 42_ddc R152. -/
theorem test_ddcClear :
    after .ddcClear { tiny with block := { tiny.block with ddcPhase := 3, mix := { i := five, q := five } } }
      (fun t => (t.block.mix, t.block.ddcPhase)) = some ({ i := 0, q := 0 }, 0) := by decide +kernel

/-- 95_test_vectors V-FIR-3, the third update; the entry past `N` stays. -/
theorem test_firUpdate :
    after (.firUpdate .i)
      { tiny with
        block := { (withTaps 3 [tenth, fifth, threeTenths, 0] tiny).block with
          firBuf := { i := [one, two, three, five], q := [] } }
        din0 := one }
      (fun t => (t.block.firBuf.i, t.block.firOut.q)) = some ([one, one, two, five], 0) := by decide +kernel

/-- 95_test_vectors V-FIR-2: the sign of a zero product. -/
theorem test_firUpdate_sign :
    after (.firUpdate .q) (withTaps 1 [minusOne] tiny) (fun t => t.block.firOut) =
      some { i := 0, q := minusZero } := by decide +kernel

/-- 43_fir R162: one arm only. -/
theorem test_firClear :
    after (.firClear .q) { tiny with block := { tiny.block with firOut := { i := one, q := two } } }
      (fun t => t.block.firOut) = some { i := one, q := 0 } := by decide +kernel

/-- 95_test_vectors V-FIR-4. -/
theorem test_firApply :
    after (.firApply .i 4 0 8)
      (withBuf 0 [one, one, one, one] (withTaps 3 [tenth, fifth, threeTenths, 0] tiny))
      (fun t => ((List.range 4).map fun j => wordAt t.block.mem (bufOffset (8 + j)), t.block.firBuf.i)) =
    some ([some tenth, some 0x3FD3333333333334, some 0x3FE3333333333334, some 0x3FE3333333333334],
      [one, one, one, 0]) := by decide +kernel

/-- 95_test_vectors V-FIR-6, with 32 entries. -/
theorem test_firApply_range :
    after (.firApply .q 2 31 0) tiny (fun t => (t.sticky, t.errCmd)) =
      some (0b0000010000, 0x0000001F00020132) := by decide +kernel

/-- 95_test_vectors V-PG-1: `-1.7` through `W = 4`, `G = 3` truncated is `-5`. -/
theorem test_pgEval_truncate :
    after (.pgEval .i) { withRegs (fun c => { c with w := 4, g := 3 }) tiny with din0 := 0xBFFB333333333333 }
      (fun t => t.block.pgOut) = some { i := 0xC014000000000000, q := 0 } := by decide +kernel

/-- 95_test_vectors V-PG-2: `2.5` rounds to even. -/
theorem test_pgEval_nearest :
    after (.pgEval .q)
      { withRegs (fun c => { c with w := 4, pgCast := 2 }) tiny with din0 := 0x4004000000000000 }
      (fun t => t.block.pgOut) = some { i := 0, q := two } := by decide +kernel

/-- 95_test_vectors V-ID-1, the third input. -/
theorem test_idUpdate_valid :
    after (.idUpdate .i)
      { tiny with
        block := { (withRegs (fun c => { c with l := 3 }) tiny).block with
          intDump := { i := { buf := [0, three, six, five], cnt := 2 }, q := { buf := [], cnt := 0 } } }
        din0 := nine }
      (fun t => (t.block.intDump.i, t.block.idOut.i, t.block.flags.word)) =
    some ({ buf := [three, six, nine, five], cnt := 0 }, six, 0x10) := by decide +kernel

/-- 95_test_vectors V-ID-1, the second input: the candidate is the mean before insertion. -/
theorem test_idUpdate_candidate :
    after (.idUpdate .i)
      { tiny with
        block := { (withRegs (fun c => { c with l := 3 }) tiny).block with
          intDump := { i := { buf := [0, 0, three, 0], cnt := 1 }, q := { buf := [], cnt := 0 } } }
        din0 := six }
      (fun t => (t.block.intDump.i.cnt, t.block.idOut.i, t.block.flags.word)) = some (2, one, 0) := by
  decide +kernel

/-- 45_intdump R182. -/
theorem test_idClear :
    after (.idClear .i) { tiny with block := { tiny.block with idOut := { i := one, q := two } } }
      (fun t => (t.block.idOut, t.block.intDump.i)) =
    some ({ i := 0, q := two }, { buf := [0, 0, 0, 0], cnt := 0 }) := by decide +kernel

/-- 95_test_vectors V-ID-3: a partial last window contributes nothing. -/
theorem test_idApply :
    after (.idApply 7 0 16)
      (withBuf 0 [three, six, nine, one, two, three, five] (withRegs (fun c => { c with l := 3 }) tiny))
      (fun t => (List.range 3).map fun j => wordAt t.block.mem (bufOffset (16 + j))) =
    some [some six, some two, none] := by decide +kernel

/-- 95_test_vectors V-ID-4. -/
theorem test_idApply_len :
    after (.idApply 2 0 16) (withRegs (fun c => { c with l := 3 }) tiny) (fun t => t.sticky) =
      some 0b0000001000 := by decide +kernel

/-- 95_test_vectors V-BS-1, the third input. -/
theorem test_bsyncUpdate_emits :
    after (.bsyncUpdate true)
      { withRegs (fun c => { c with d := 2, s := 3 }) tiny with din0 := two, din1 := minusTwo }
      (fun t => (t.block.flags.word, t.block.bs.scnt, t.block.bitCount, t.sticky)) =
    some (0x4D, 1, 1, 0b1100000000) := by decide +kernel

/-- 95_test_vectors V-BS-4: the operands are checked although `V = 0`. -/
theorem test_bsyncUpdate_operand :
    after (.bsyncUpdate false) { tiny with din1 := aNaN } (fun t => (t.sticky, t.errCmd)) =
      some (0b0000000100, 0x60) := by decide +kernel

/-- 46_bitsync R191. -/
theorem test_bsyncClear :
    after .bsyncClear
      { withRegs (fun c => { c with d := 1 }) tiny with sticky := 0b1000000000 }
      (fun t => (t.block.bs.phase, t.block.bs.dcnt, t.sticky)) = some (.awaitingSettle, 1, 0b1100000000) := by
  decide +kernel

/-! ### Bus accesses -/

/-- 95_test_vectors V-CORE-4: a misaligned read. -/
theorem test_bus_misaligned :
    afterStep { withMove (.host (readAccess 0x01C)) tiny with readData := 7 }
      (fun t => (t.readData, t.sticky, t.errAccess.word)) =
    some (0, 0b0001000000, 0x000000000006001C) := by decide +kernel

/-- 95_test_vectors V-CORE-4: a write of `ID`. -/
theorem test_bus_readOnly :
    afterStep (withMove (.host (writeAccess 0 1)) tiny) (fun t => t.errAccess.word) =
      some 0x8000000000060000 := by decide +kernel

/-- A word placed with `withFetchWord` is issued and completed by the very next step. -/
theorem test_withFetchWord :
    afterStep ({ tiny with din0 := five }.withFetchWord 64 0x20) (fun t => (t.block.mix.i, t.sticky)) =
      some (five, 0b0100000000) := by decide +kernel

/-! ### States that meet the hypotheses of the obligations

One theorem for each statement that has hypotheses, with a state for each of its clauses. -/

/-- The small machine with a command pending. -/
def busy : State := { tiny with pending := some { word := 0, effects := quiet tiny.block } }

/-- `K = 2` and one sample in the window, so that the next push recomputes the gain. -/
def almostFull : State :=
  { tiny with
    block := { (withRegs (fun c => { c with k := 2 }) tiny).block with
      agc := { buf := [one, 0, 0, 0], pos := 1, gain := one } } }

theorem witness_DecodeOfEncodeIsIdentity :
    WellFormed (.firApply .q 65535 65535 65535) ∧ WellFormed (.idApply 0 0 0) := by decide

theorem witness_AcceptedWordIsItsEncoding :
    decode 0xFFFFFFFFFFFF0132 = .ok (.firApply .q 65535 65535 65535) := by decide

theorem witness_DecoderFollowsOpcodeTable :
    decode 0xFFFFFFFFFFFF0052 = .ok (.idApply 65535 65535 65535) ∧
    ∃ r ∈ opcodeRows, r.Matches 0xFFFFFFFFFFFF0052 := by decide

theorem witness_StepIssuesDecodedCommand :
    (withMove (.host (cmdWrite 2)) tiny).moves = [.host (cmdWrite 2)] ∧ decode 2 = .ok .step := by decide

theorem witness_IllegalWordSetsOnlyItsError :
    (withMove (.host (cmdWrite 0x102)) tiny).moves = [.host (cmdWrite 0x102)] ∧
    (withMove (.host (cmdWrite 0x102)) tiny).Idle ∧ ∀ r ∈ opcodeRows, ¬r.Matches 0x102 := by decide

theorem witness_BusyTurnsWritesAway :
    busy.params.Legal ∧ busy.pending = some { word := 0, effects := quiet tiny.block } ∧
    (∀ o ∈ [0x010, 0x018, 0x020, 0x028, 0x030, 0x080, 0x0C0, 0x1000, 0x1018, 0x10000, 0x100F8],
      (withMove (.host (writeAccess (BitVec.ofNat 17 o) 1)) busy).moves =
        [.host (writeAccess (BitVec.ofNat 17 o) 1)] ∧
      writableOffset busy.params (BitVec.ofNat 17 o).toNat) ∧
    (withMove (.host (readAccess 0x1FFFF)) busy).moves =
      [.host { op := .read, size := .b8, offset := 0x1FFFF }] := by decide +kernel

theorem witness_DeferredCompletionEqualsImmediate :
    (∀ m ∈ [Move.host (readAccess 0x018), .reset],
      (withMove m tiny).Idle ∧ completesAtOnce (withMove m tiny).moves = false) := by decide +kernel

theorem witness_BusyFreezesTheDatapath :
    busy.pending = some { word := 0, effects := quiet tiny.block } ∧
    (withMove (.host (writeAccess 0x028 1)) busy).moves = [.host (writeAccess 0x028 1)] ∧
    ∃ t, step (withMove (.host (writeAccess 0x028 1)) busy) = .next t :=
  ⟨rfl, rfl, step_next _⟩

theorem witness_BlockTurnAppliesPendingEffects :
    (withMove .block busy).moves = [.block] ∧ busy.moves = [] ∧ busy.pending.isSome = true ∧
    tiny.moves = [] ∧ tiny.pending = none := by decide +kernel

theorem witness_ResetEventRestoresResetState : (withMove .reset busy).moves = [.reset] := rfl

theorem witness_ResetRegisterValues :
    ({ agcLenMax := 2, nTapsMax := 1, idLenMax := 1, bufDepth := 1 } : Params).Legal ∧
    ({ agcLenMax := 65535, nTapsMax := 512, idLenMax := 65535, bufDepth := 8192 } : Params).Legal := by decide

theorem witness_NopResult : tiny.Ready ∧ (withMove .block tiny).Ready := by decide +kernel

/-- A push into an empty window; one that fills it, regular; one that fills it, degenerate. -/
theorem witness_AgcUpdateResult :
    (tiny.Ready ∧ admissible tiny.din0 = true ∧
      tiny.block.agc.pos + 1 ≠ tiny.block.active.regs.k.toNat ∧ tiny.block.agc.pos < tiny.block.agc.buf.length) ∧
    (almostFull.Ready ∧ admissible almostFull.din0 = true ∧
      almostFull.block.agc.pos + 1 = almostFull.block.active.regs.k.toNat) ∧
    (feq (fmul three (pstd [one, 0])) 0 = false ∧
      isfinite (fdiv (fullScale 16) (fmul three (pstd [one, 0]))) = true) ∧
    feq (fmul three (pstd [one, one])) 0 = true ∧ admissible one = true := by decide +kernel

theorem witness_AgcClearResult : almostFull.Ready := by decide +kernel

theorem witness_DdcUpdateResult :
    tiny.Ready ∧ admissible tiny.din0 = true ∧
    ([one, 0, 0xBFF0000000000000, 0] : List Word)[tiny.block.ddcPhase.toNat]? = some one := by decide +kernel

theorem witness_DdcClearResult : tiny.Ready := by decide +kernel

theorem witness_FirUpdateResult :
    ∀ n ∈ [1, 4], let s := withTaps (BitVec.ofNat 16 n) [one, two, one, two] tiny
      s.Ready ∧ admissible s.din0 = true ∧ Arm.q ≠ .i ∧ 1 ≤ s.block.active.regs.n.toNat ∧
      s.block.active.regs.n.toNat ≤ (s.block.firBuf.get .i).length := by decide +kernel

theorem witness_FirClearResult : tiny.Ready ∧ Arm.i ≠ .q := by decide +kernel

/-- One input, and four, at the end of `BUFMEM`. -/
theorem witness_FirApplyResult :
    ∀ sc ∈ [(31, 1), (28, 4)],
      let s := withBuf 28 [one, two, five, minusZero] (withTaps 4 [one, two, one, two] tiny)
      s.Ready ∧ Arm.q ≠ .i ∧ 1 ≤ s.block.active.regs.n.toNat ∧
      s.block.active.regs.n.toNat ≤ s.params.nTapsMax ∧ 1 ≤ sc.2 ∧ sc.1 + sc.2 ≤ s.params.bufDepth ∧
      (bulkInputs s sc.1 sc.2).all admissible = true := by decide +kernel

theorem witness_PgEvalResult :
    (∀ cast ∈ [0, 1, 2], let s := withRegs (fun c => { c with pgCast := BitVec.ofNat 2 cast }) tiny
      s.Ready ∧ admissible s.din0 = true ∧ Arm.q ≠ .i ∧ s.block.active.regs.pgEn = true) ∧
    (withRegs (fun c => { c with pgEn := false }) tiny).block.active.regs.pgEn = false := by decide +kernel

/-- Windows of 1 and of 4 samples, the counter just before the end and not. -/
theorem witness_IdUpdateResult :
    (∀ l ∈ [1, 4], let s := withRegs (fun c => { c with l := BitVec.ofNat 16 l }) tiny
      s.Ready ∧ admissible s.din0 = true ∧ Arm.q ≠ .i ∧ 1 ≤ s.block.active.regs.l.toNat ∧
        s.block.active.regs.l.toNat ≤ (s.block.intDump.get .i).buf.length) ∧
    (tiny.block.intDump.get .i).cnt + 1 = tiny.block.active.regs.l.toNat ∧
    (tiny.block.intDump.get .i).cnt + 1 ≠ 4 := by decide +kernel

theorem witness_IdClearResult : tiny.Ready ∧ Arm.i ≠ .q := by decide +kernel

/-- As many inputs as one window, and one more, the output at the end of `BUFMEM`. -/
theorem witness_IdApplyWritesBlockMeans :
    ∀ scd ∈ [(0, 3, 31), (0, 4, 31)],
      let s := withBuf 0 [one, two, five, minusZero] (withRegs (fun c => { c with l := 3 }) tiny)
      s.Ready ∧ 1 ≤ s.block.active.regs.l.toNat ∧ s.block.active.regs.l.toNat ≤ scd.2.1 ∧
      scd.1 + scd.2.1 ≤ s.params.bufDepth ∧ scd.2.2 + scd.2.1 / s.block.active.regs.l.toNat ≤ s.params.bufDepth ∧
      (bulkInputs s scd.1 scd.2.1).all admissible = true := by decide +kernel

/-- Each phase, and a stride position that is 0 and one that is not. -/
theorem witness_BsyncUpdateResult :
    (tiny.Ready ∧ admissible tiny.din0 = true ∧ admissible tiny.din1 = true) ∧
    (tiny.block.bs.phase = .sampling ∧ tiny.block.bs.scnt = 0) ∧
    (∀ u ∈ [BitSync.mk .awaitingSettle 1 0, ⟨.awaitingSettle, 2, 0⟩, ⟨.sampling, 0, 1⟩],
      ({ tiny with block := { tiny.block with bs := u } } : State).Ready) := by decide +kernel

theorem witness_BsyncClearResult : tiny.Ready := by decide +kernel

theorem witness_ClearAllResult : tiny.Ready := by decide +kernel

/-- The staged configuration at the upper ends of its ranges. -/
def largest : State :=
  { tiny with
    staged :=
      { regs := { w := 53, g := 0xFFFFFFFF, pgEn := true, pgCast := 2, k := 4, nsigma := Config.twoPow64,
                  n := 4, l := 4, d := 0xFFFFFFFF, s := 0xFFFFFFFF }
        taps := [Config.twoPow64, one, minusOne, 0xC3F0000000000000] } }

/-- The staged configuration at the lower ends of its ranges. -/
def smallest : State :=
  { tiny with
    staged :=
      { regs := { w := 2, g := 1, pgEn := false, pgCast := 0, k := 2, nsigma := Config.twoPowNeg64,
                  n := 1, l := 1, d := 0, s := 1 }
        taps := [0, aNaN, 0, 0] } }

theorem witness_CfgCommitOfLegalConfiguration :
    ∀ s ∈ [largest, smallest], let c := s.staged.regs
      s.Ready ∧ 2 ≤ c.w.toNat ∧ c.w.toNat ≤ 53 ∧ c.g ≠ 0 ∧ c.pgCast ≠ 3 ∧ 2 ≤ c.k.toNat ∧
      c.k.toNat ≤ s.params.agcLenMax ∧ isfinite c.nsigma = true ∧
      fle 0x3BF0000000000000 c.nsigma = true ∧ fle c.nsigma 0x43F0000000000000 = true ∧
      1 ≤ c.n.toNat ∧ c.n.toNat ≤ s.params.nTapsMax ∧
      (∀ k, k < c.n.toNat → s.staged.taps[k]?.all admissible = true) ∧
      1 ≤ c.l.toNat ∧ c.l.toNat ≤ s.params.idLenMax ∧ c.s ≠ 0 := by decide +kernel

/-- Each field at a value just outside its range. -/
theorem witness_CfgCommitOfIllegalConfiguration :
    tiny.Idle ∧ tiny.params = sizes ∧
    ¬2 ≤ (1 : BitVec 6).toNat ∧ ¬(54 : BitVec 6).toNat ≤ 53 ∧ (0 : BitVec 32) = 0 ∧ (3 : BitVec 2) = 3 ∧
    ¬2 ≤ (1 : BitVec 16).toNat ∧ ¬(5 : BitVec 16).toNat ≤ sizes.agcLenMax ∧
    isfinite infinity = false ∧ fle 0x3BF0000000000000 0x3BEFFFFFFFFFFFFF = false ∧
    fle 0x43F0000000000001 0x43F0000000000000 = false ∧
    ¬1 ≤ (0 : BitVec 16).toNat ∧ ¬(5 : BitVec 16).toNat ≤ sizes.nTapsMax ∧
    (1 ≤ (2 : BitVec 16).toNat ∧ (2 : BitVec 16).toNat ≤ sizes.nTapsMax ∧
      ([one, aNaN, 0, 0] : List Word)[1]? = some aNaN ∧ admissible aNaN = false) ∧
    ¬1 ≤ (0 : BitVec 16).toNat ∧ ¬(5 : BitVec 16).toNat ≤ sizes.idLenMax := by decide +kernel

/-- A step that emits a bit, and one whose stride position is not 0. -/
theorem witness_StepCommandResult :
    (tiny.Ready ∧ admissible tiny.din0 = true ∧
      (idStep tiny.block.active.regs.l.toNat (tiny.block.intDump.get .i) 0).valid = true ∧
      tiny.block.bs.phase = .sampling ∧ tiny.block.bs.scnt = 0) ∧
    ({ tiny with block := { tiny.block with bs := ⟨.sampling, 0, 1⟩ } } : State).Ready := by decide +kernel

theorem witness_InadmissibleOperandRejected :
    ({ tiny with din0 := aNaN } : State).Idle ∧
    [aNaN, infinity, 0x43F0000000000001].any admissible = false ∧
    ({ tiny with din1 := aNaN } : State).Idle ∧
    admissible ({ tiny with din1 := aNaN } : State).din1 = false ∧
    Instr.idUpdate .q ∈ [Instr.agcUpdate, .ddcUpdate, .firUpdate .q, .pgEval .q, .idUpdate .q, .step] := by
  decide +kernel

theorem witness_InsufficientLengthRejected :
    let s := withRegs (fun c => { c with l := 3 }) tiny
    s.Idle ∧ 1 ≤ s.block.active.regs.l.toNat ∧ 2 < s.block.active.regs.l.toNat ∧
      s.block.active.regs.l.toNat ≤ 3 := by decide +kernel

theorem witness_BufferOverrunRejected :
    let s := withRegs (fun c => { c with l := 3 }) tiny
    s.Idle ∧ s.params.bufDepth < 31 + 2 ∧ 1 ≤ 2 ∧ s.params.bufDepth < 32 + 1 ∧
      1 ≤ s.block.active.regs.l.toNat ∧ s.block.active.regs.l.toNat ≤ 3 ∧
      s.params.bufDepth < 30 + 3 ∧ s.params.bufDepth < 32 + 3 / s.block.active.regs.l.toNat := by decide +kernel

theorem witness_InadmissibleBulkInputRejected :
    let s := withBuf 0 [one, infinity] tiny
    s.Idle ∧ 0 + 2 ≤ s.params.bufDepth ∧ 1 < 2 ∧
      admissible ((wordAt s.block.mem (bufOffset (0 + 1))).getD (Config.freeWord (s.draws + 1))) = false ∧
      30 + 2 ≤ s.params.bufDepth ∧ 1 ≤ s.block.active.regs.l.toNat ∧ s.block.active.regs.l.toNat ≤ 2 ∧
      30 + 2 / s.block.active.regs.l.toNat ≤ s.params.bufDepth := by decide +kernel

theorem witness_CommandFrame :
    (∃ t, exec .step tiny = .next t) ∧ Instr.step ≠ .cfgCommit ∧
    hasSticky .agcDegen (0b0010000000 : BitVec 10) = true :=
  ⟨⟨_, exec_eq_issue _ _⟩, by decide, by decide⟩

/-- Illegal by size, by alignment, unmapped at each gap, and by direction; and legal ones at the ends of
the mapped ranges. -/
theorem witness_AddrRaisedExactlyByIllegalAccesses :
    tiny.params.Legal ∧ (withMove (.host (readAccess 0x01C)) tiny).moves = [.host (readAccess 0x01C)] ∧
    AccessSize.b4 ≠ .b8 ∧
    (∀ o ∈ [0x01C, 0x050, 0x0C8, 0x148, 0x1D0, 0x258, 0x1020, 0x2020, 0x10100, 0x1FFF8],
      ¬mappedOffset sizes o) ∧
    (∀ o ∈ [0x000, 0x008, 0x038, 0x048, 0x100, 0x250, 0x2000], ¬writableOffset sizes o) ∧
    (∀ o ∈ [0x000, 0x048, 0x0C0, 0x140, 0x1C8, 0x250, 0x1018, 0x2018, 0x100F8], mappedOffset sizes o) ∧
    (∀ o ∈ [0x010, 0x030, 0x0C0, 0x1018, 0x100F8], writableOffset sizes o) := by
  refine ⟨?_, ?_, ?_, ?_, ?_, ?_, ?_⟩ <;> decide +kernel

theorem witness_IdleReadsAreExactAndSideEffectFree :
    tiny.Idle ∧ (withMove (.host (readAccess 0x100F8)) tiny).moves = [.host (readAccess 0x100F8)] ∧
    locate sizes 0x100F8 = some (.buf 31) ∧ locate sizes 0x250 = some .bitCount ∧
    wordAt (withBuf 31 [five] tiny).block.mem (bufOffset 31) = some five ∧
    written tiny.block.mem 31 = false := by decide +kernel

theorem witness_BusyReadsOfComputedStateAreFree :
    busy.params.Legal ∧ busy.pending = some { word := 0, effects := quiet tiny.block } ∧
    (withMove (.host (readAccess 0x048)) busy).moves = [.host (readAccess 0x048)] ∧
    (∀ o ∈ [0x048, 0x100, 0x140, 0x180, 0x1C8, 0x200, 0x250, 0x2000, 0x2018, 0x10000, 0x100F8],
      hiddenOffset sizes o) ∧
    (∀ o ∈ [0x000, 0x018, 0x040, 0x080, 0x0C0, 0x1000, 0x1018], mappedOffset sizes o ∧ ¬hiddenOffset sizes o) := by
  refine ⟨?_, ?_, ?_, ?_, ?_⟩ <;> decide +kernel

/-- The last configuration register, the first and the last tap, and the three registers. -/
theorem witness_ConfigurationWritesAreStaged :
    tiny.Idle ∧ tiny.params.Legal ∧ tiny.staged.taps.length = tiny.params.nTapsMax ∧
    0 < tiny.params.nTapsMax ∧ 3 < tiny.params.nTapsMax ∧
    ([(CfgReg.bitWidth, 0x3F), (.bitGain, 0xFFFFFFFF), (.ctrl, 0x7), (.agcLen, 0xFFFF),
      (.agcNsigma, 0xFFFFFFFFFFFFFFFF), (.nTaps, 0xFFFF), (.idLen, 0xFFFF), (.bsDelay, 0xFFFFFFFF),
      (.bsStride, 0xFFFFFFFF)] : List (CfgReg × Word))[8]? = some (.bsStride, 0xFFFFFFFF) ∧
    (∀ o ∈ [0x080 + 8 * 8, 0x1000 + 8 * 0, 0x1000 + 8 * 3, 0x028, 0x030, 0x020],
      (withMove (.host (writeAccess (BitVec.ofNat 17 o) 1)) tiny).moves =
        [.host (writeAccess (BitVec.ofNat 17 o) 1)]) := by decide +kernel

theorem witness_StatusIsWriteOneToClear :
    (withMove (.host (writeAccess 0x018 0x7FF)) busy).moves = [.host (writeAccess 0x018 0x7FF)] := rfl

/-- The least and the greatest code, and the bit above them. -/
theorem witness_IrqIsStatusAndEnable :
    (Cause.illegal, 1) ∈ [(Cause.illegal, 1), (.cfg, 2), (.operand, 3), (.len, 4), (.range, 5), (.busy, 6),
      (.addr, 7), (.agcDegen, 8), (.cmdDone, 9), (.bitReady, 10)] ∧
    (Cause.bitReady, 10) ∈ [(Cause.illegal, 1), (.cfg, 2), (.operand, 3), (.len, 4), (.range, 5), (.busy, 6),
      (.addr, 7), (.agcDegen, 8), (.cmdDone, 9), (.bitReady, 10)] ∧ 11 ≤ 11 := by decide

/-- The small machine is sound: the premise of the statements about sound states. -/
theorem tiny_sound : tiny.Sound where
  params := by decide
  taps := by decide
  block :=
    { config := by decide +kernel
      taps := by decide
      agcBuf := by decide
      agcPos := by decide
      firBuf := by intro arm; cases arm <;> decide
      idBuf := by intro arm; cases arm <;> decide
      idCnt := by intro arm; cases arm <;> decide
      bsScnt := by decide
      bsDcnt := by decide
      memWf := by decide
      memInside := by intro a h; simp [tiny, State.resetWith, Block.reset, byteAt] at h
      memWhole := by intro i j _ h; simp [tiny, State.resetWith, Block.reset, byteAt] at h
      bits := by decide }
  pending := by intro p h; exact absurd h (by simp [tiny, State.resetWith])

/-- The small machine holds finite values only. -/
theorem tiny_finite : tiny.Finite where
  block :=
    { agcBuf := List.all_eq_true.1 (by decide +kernel)
      agcGain := by decide +kernel
      firBuf := by intro arm; cases arm <;> exact List.all_eq_true.1 (by decide +kernel)
      idBuf := by intro arm; cases arm <;> exact List.all_eq_true.1 (by decide +kernel)
      agcOut := by decide +kernel
      mix := by intro arm; cases arm <;> decide +kernel
      firOut := by intro arm; cases arm <;> decide +kernel
      pgOut := by intro arm; cases arm <;> decide +kernel
      idOut := by intro arm; cases arm <;> decide +kernel }
  pending := by intro p h; exact absurd h (by simp [tiny, State.resetWith])

/-- The small machine with a word in the last entry of `BUFMEM` is sound. -/
theorem stored_sound : (withBuf 31 [five] tiny).Sound where
  params := tiny_sound.params
  taps := tiny_sound.taps
  block :=
    { tiny_sound.block with
      memWf := wf_bufWriteAll tiny_sound.block.memWf 31 [five]
      memInside := fun a h => by
        rw [show (withBuf 31 [five] tiny).block.mem = bufWrite [] 31 five from rfl, byteAt_bufWrite] at h
        split at h
        · rename_i ha
          have hd : (withBuf 31 [five] tiny).params.bufDepth = 32 := rfl
          simp only [bufOffset, hd] at ha ⊢
          omega
        · simp [byteAt] at h
      memWhole := fun i j hj h => by
        rw [show (withBuf 31 [five] tiny).block.mem = bufWrite [] 31 five from rfl] at h ⊢
        rw [byteAt_bufWrite] at h
        split at h
        · rename_i ha
          simp only [bufOffset] at ha
          obtain rfl : i = 31 := by omega
          rw [written_bufWrite]
          simp
        · simp [byteAt] at h }
  pending := tiny_sound.pending

/-- A sound idle state with a read at each offset, the ends of the tap windows and a written entry of
`BUFMEM` among them. -/
theorem witness_ReadbackRegistersShowInternalState (o : Offset) :
    let s := withMove (.host (readAccess o)) (withBuf 31 [five] tiny)
    s.Sound ∧ s.Idle ∧ s.moves = [.host (readAccess o)] ∧
    ((0x1018 : Offset).toNat = 0x1000 + 8 * 3 ∧ s.staged.taps[3]? = some 0) ∧
    ((0x2000 : Offset).toNat = 0x2000 + 8 * 0 ∧ s.block.active.taps[0]? = some one) ∧
    ((0x100F8 : Offset).toNat = 0x10000 + 8 * 31 ∧ 31 < s.params.bufDepth ∧
      wordAt s.block.mem (bufOffset 31) = some five) :=
  ⟨⟨stored_sound.params, stored_sound.taps, stored_sound.block, stored_sound.pending⟩, rfl, rfl,
    ⟨rfl, rfl⟩, ⟨rfl, rfl⟩, ⟨rfl, (by decide : 31 < sizes.bufDepth), wordAt_bufWrite [] 31 31 five⟩⟩

theorem witness_BufferWriteIsReadBack :
    let s := { tiny with moves := [.host (writeAccess 0x100F8 five), .host (readAccess 0x100F8)] }
    s.Idle ∧ 31 < s.params.bufDepth ∧ s.params.Legal ∧ BitVec.ofNat 17 (0x10000 + 8 * 31) = 0x100F8 ∧
      s.moves = [.host (writeAccess 0x100F8 five), .host (readAccess 0x100F8)] := by decide +kernel

theorem witness_ResetStateIsSoundAndFinite : sizes.Legal := by decide

theorem witness_StepKeepsSoundness : tiny.Sound ∧ ∃ t, step tiny = .next t := ⟨tiny_sound, step_next _⟩

theorem witness_StepKeepsFiniteValues : tiny.Sound ∧ tiny.Finite ∧ ∃ t, step tiny = .next t :=
  ⟨tiny_sound, tiny_finite, step_next _⟩

theorem witness_AgcOutputWithinFullScale :
    let s := { tiny with din0 := Config.twoPow64 }
    s.Ready ∧ admissible s.din0 = true ∧ isfinite s.block.agc.gain = true ∧
      [0, minusZero, 0xC3F0000000000000].all admissible = true := by decide +kernel

theorem witness_AgcGainCadence :
    let s := withRegs (fun c => { c with k := 4 }) tiny
    s.Ready ∧ [one, two, three, four, five].all admissible = true ∧
      1 ≤ s.block.active.regs.k.toNat ∧ s.block.active.regs.k.toNat ≤ s.params.agcLenMax := by decide +kernel

theorem witness_DdcOutputHasPeriodFour :
    tiny.Ready ∧ [one, two, three, four, five].all admissible = true := by decide +kernel

theorem witness_BulkFilterEqualsStreaming :
    let s := withBuf 0 [one, two, five] (withTaps 3 [tenth, fifth, threeTenths, 0] tiny)
    s.Ready ∧ 1 ≤ 3 ∧ 0 + 3 ≤ s.params.bufDepth ∧ 29 + 3 ≤ s.params.bufDepth ∧
      (bulkInputs s 0 3).all admissible = true := by decide +kernel

theorem witness_StreamingMeansEqualBulkMeans :
    let s := withBuf 0 [one, two, five] (withRegs (fun c => { c with l := 2 }) tiny)
    let l := s.block.active.regs.l.toNat
    s.Ready ∧ 1 ≤ l ∧ l ≤ s.params.idLenMax ∧ l ≤ 3 ∧ 0 + 3 ≤ s.params.bufDepth ∧
      31 + 3 / l ≤ s.params.bufDepth ∧ (bulkInputs s 0 3).all admissible = true := by decide +kernel

theorem witness_PostGainWithinFullScale :
    ∀ w ∈ [2, 53], ∀ cast ∈ [0, 1, 2],
      let c := { tiny.block.active.regs with w := BitVec.ofNat 6 w, pgCast := BitVec.ofNat 2 cast }
      c.pgEn = true ∧ c.pgCast ≠ 3 ∧ 2 ≤ c.w.toNat ∧ c.w.toNat ≤ 53 ∧ isfinite five = true := by decide +kernel

/-- Up to the delay, and past it. -/
theorem witness_BitCountLaw :
    let s := withRegs (fun c => { c with d := 2, s := 3 }) tiny
    s.Ready ∧ admissible s.din0 = true ∧ admissible s.din1 = true ∧ 1 ≤ s.block.active.regs.s.toNat ∧
      [true, false, true].count true < 2 ^ 64 ∧
      [true, false, true].count true ≤ s.block.active.regs.d.toNat ∧
      s.block.active.regs.d.toNat < [true, false, true, true].count true := by decide +kernel

theorem witness_StepEqualsItsStages :
    let s := { tiny with din0 := five }
    ∃ s1 s2 s3 s4 s5 s6 s7 s8 s9 : State, s.Ready ∧
      admissible s.din0 = true ∧ nextOf .agcUpdate s = some s1 ∧
      admissible s1.block.agcOut = true ∧ feed .ddcUpdate s1.block.agcOut s1 = some s2 ∧
      admissible s2.block.mix.i = true ∧ feed (.firUpdate .i) s2.block.mix.i s2 = some s3 ∧
      admissible s3.block.mix.q = true ∧ feed (.firUpdate .q) s3.block.mix.q s3 = some s4 ∧
      admissible s4.block.firOut.i = true ∧ feed (.pgEval .i) s4.block.firOut.i s4 = some s5 ∧
      admissible s5.block.firOut.q = true ∧ feed (.pgEval .q) s5.block.firOut.q s5 = some s6 ∧
      admissible s6.block.pgOut.i = true ∧ feed (.idUpdate .i) s6.block.pgOut.i s6 = some s7 ∧
      admissible s7.block.pgOut.q = true ∧ feed (.idUpdate .q) s7.block.pgOut.q s7 = some s8 ∧
      admissible s8.block.idOut.i = true ∧ admissible s8.block.idOut.q = true ∧
      feed (.bsyncUpdate s8.block.flags.idValid.i) s8.block.idOut.i { s8 with din1 := s8.block.idOut.q } =
        some s9 := by
  refine ⟨_, _, _, _, _, _, _, _, _, ?_, ?_, nextOf_eq _ _, ?_, feed_eq _ _ _, ?_, feed_eq _ _ _, ?_,
    feed_eq _ _ _, ?_, feed_eq _ _ _, ?_, feed_eq _ _ _, ?_, feed_eq _ _ _, ?_, feed_eq _ _ _, ?_, ?_,
    feed_eq _ _ _⟩ <;> decide +kernel

theorem witness_ArmsStayInLockstep :
    tiny.Ready ∧ tiny.block.intDump.i.cnt = tiny.block.intDump.q.cnt ∧
    [one, two, three].all admissible = true := by decide +kernel

/-- A tie, a subnormal operand, operands whose sum overflows on either side, and an exact zero. -/
theorem witness_AdditionRoundsToNearestEven :
    (isfinite one = true ∧ isfinite 0x3CA0000000000000 = true ∧ isfinite (fadd one 0x3CA0000000000000) = true ∧
      isfinite 0x3FF0000000000001 = true ∧ units 0x3FF0000000000001 ≠ units (fadd one 0x3CA0000000000000)) ∧
    isfinite 0x0000000000000001 = true ∧
    (∀ x ∈ [0x7FEFFFFFFFFFFFFF, 0xFFEFFFFFFFFFFFFF],
      isfinite (BitVec.ofNat 64 x) = true ∧
        isfinite (fadd (BitVec.ofNat 64 x) (BitVec.ofNat 64 x)) = false) ∧
    (isfinite minusZero = true ∧ units minusZero + units minusZero = 0 ∧ units one + units minusOne = 0) := by
  decide +kernel

theorem witness_MultiplicationRoundsToNearestEven :
    isfinite tenth = true ∧ isfinite three = true ∧ isfinite (fmul tenth three) = true ∧
    units one ≠ units (fmul tenth three) ∧
    isfinite 0x7FEFFFFFFFFFFFFF = true ∧ isfinite (fmul 0x7FEFFFFFFFFFFFFF minusTwo) = false ∧
    isfinite minusTwo = true := by decide +kernel

/-- A quotient in range, one past the largest finite value, and quotients by a zero. -/
theorem witness_DivisionRoundsToNearestEven :
    (isfinite one = true ∧ isfinite three = true ∧ units three ≠ 0 ∧ isfinite (fdiv one three) = true ∧
      units one ≠ units (fdiv one three)) ∧
    (isfinite 0x0000000000000001 = true ∧ units 0x0000000000000001 ≠ 0 ∧
      isfinite (fdiv minusTwo 0x0000000000000001) = false) ∧
    (isfinite minusZero = true ∧ units minusZero = 0 ∧ units one ≠ 0) := by decide +kernel

theorem witness_SquareRootRoundsToNearest :
    isfinite two = true ∧ 0 ≤ units two ∧ units minusZero = 0 ∧ units one ≠ units (fsqrt two) := by
  decide +kernel

/-- Below, above, at the bounds and between. -/
theorem witness_ClampKeepsOrBounds :
    [five, minusTwo, infinity, fullScale 2, fneg (fullScale 2), minusZero].any isNaN = false ∧
    flt minusTwo (fneg (fullScale 2)) = true ∧ fgt five (fullScale 2) = true ∧
    [fullScale 2, fneg (fullScale 2), minusZero].all (fun x =>
      fle (fneg (fullScale 2)) x && fle x (fullScale 2)) = true := by decide +kernel

end Sys2Proof.Tests
end

section
/-! The encoding examples of 30_encoding R105. Each example word is the packing of its fields (R100), so
decoding it is the opcode map (R103, R104) over those fields. -/

namespace Sys2Proof

/-- Decoding a packed word is the opcode map over the fields that were packed. -/
theorem decode_packFields (f : Fields) : decode (packFields f) = decodeFields f := by
  rw [decode, unpackFields_packFields]

/-- `FIR_APPLY` uses `ARM` and the bulk fields, so every value of them is accepted. -/
theorem decodeFields_firApply (arm : BitVec 1) (count src dst : BitVec 16) :
    decodeFields { plainFields 0x32 with arm := arm, count := count, src := src, dst := dst } =
      .ok (.firApply (armOfBit arm) count.toNat src.toNat dst.toNat) := rfl

/-- `ID_APPLY` uses the bulk fields, so every value of them is accepted. -/
theorem decodeFields_idApply (count src dst : BitVec 16) :
    decodeFields { plainFields 0x52 with count := count, src := src, dst := dst } =
      .ok (.idApply count.toNat src.toNat dst.toNat) := rfl

/-- `FIR_UPDATE` uses `ARM`, so both values of it are accepted. -/
theorem decodeFields_firUpdate (arm : BitVec 1) :
    decodeFields { plainFields 0x30 with arm := arm } = .ok (.firUpdate (armOfBit arm)) := rfl

/-- `BSYNC_UPDATE` uses `V`, so both values of it are accepted. -/
theorem decodeFields_bsyncUpdate (v : BitVec 1) :
    decodeFields { plainFields 0x60 with v := v } = .ok (.bsyncUpdate (v == 1)) := rfl

/-- `STEP` uses no field: with any other field set, the word is rejected (R101, R104). -/
theorem decodeFields_step_rejected {f : Fields} (hop : f.op = 0x02)
    (hused : unusedAreZero false false false f = false) :
    decodeFields f = .error (.reservedNotZero f) := by
  simp [decodeFields, hop, checkedCommand, hused]

/-- Settles O4: each example word is the packing of its fields, which the opcode map reads as stated;
the last sets `ARM`, which `STEP` does not use. -/
theorem encodingExamplesDecode : Obligations.EncodingExamplesDecode := by
  unfold Obligations.EncodingExamplesDecode
  have hfirApply : (0x0008000000040032 : Word) =
      packFields { plainFields 0x32 with arm := 0, count := 4, src := 0, dst := 8 } := by decide
  have hidApply : (0x0010000800040052 : Word) =
      packFields { plainFields 0x52 with count := 4, src := 8, dst := 16 } := by decide
  have hfirUpdate : (0x0000000000000130 : Word) = packFields { plainFields 0x30 with arm := 1 } := by
    decide
  have hbsyncUpdate : (0x0000000000000260 : Word) = packFields { plainFields 0x60 with v := 1 } := by
    decide
  have hstep : (0x0000000000000102 : Word) = packFields { plainFields 0x02 with arm := 1 } := by decide
  refine ⟨?firApply, ?idApply, ?firUpdate, ?bsyncUpdate, fun i => ?stepWithArm⟩
  case firApply => rw [hfirApply, decode_packFields, decodeFields_firApply]; rfl
  case idApply => rw [hidApply, decode_packFields, decodeFields_idApply]; rfl
  case firUpdate => rw [hfirUpdate, decode_packFields, decodeFields_firUpdate]; rfl
  case bsyncUpdate => rw [hbsyncUpdate, decode_packFields, decodeFields_bsyncUpdate]; rfl
  case stepWithArm =>
    rw [hstep, decode_packFields, decodeFields_step_rejected rfl (by decide)]
    simp

end Sys2Proof
end

section
/-! Clamping to the full scale (40_numerics R131). `flt` and `fle` are read on the number line of
`orderKey`, where `-FS` and `FS` lie symmetric about 0 and strictly between the infinities. -/

namespace Sys2Proof.Machine

/-! ### Comparisons of values that may be infinite (40_numerics R125) -/

theorem flt_iff_orderKey (a b : Word) :
    flt a b = true ↔ (isNaN a = false ∧ isNaN b = false) ∧ orderKey a < orderKey b := by
  unfold flt
  simp

theorem feq_iff_orderKey (a b : Word) :
    feq a b = true ↔ (isNaN a = false ∧ isNaN b = false) ∧ orderKey a = orderKey b := by
  unfold feq
  simp

theorem fle_iff_orderKey (a b : Word) :
    fle a b = true ↔ (isNaN a = false ∧ isNaN b = false) ∧ orderKey a ≤ orderKey b := by
  rw [fle, Bool.or_eq_true, flt_iff_orderKey, feq_iff_orderKey, ← and_or_left, le_iff_lt_or_eq]

theorem flt_eq_false_of_orderKey_le {a b : Word} (h : orderKey b ≤ orderKey a) : flt a b = false := by
  rw [Bool.eq_false_iff, ne_eq, flt_iff_orderKey]
  rintro ⟨-, hlt⟩
  omega

theorem flt_eq_false_of_fle {a b : Word} (h : fle b a = true) : flt a b = false :=
  flt_eq_false_of_orderKey_le ((fle_iff_orderKey b a).1 h).2

@[simp] theorem orderKey_fneg (a : Word) : orderKey (fneg a) = -orderKey a := by
  cases h : signBit a <;> simp [orderKey, h]

theorem orderKey_nonneg {a : Word} (h : signBit a = false) : 0 ≤ orderKey a := by
  simp [orderKey, h]

/-- A finite value lies strictly between the infinities. -/
theorem abs_orderKey_lt_infMag {a : Word} (h : isfinite a = true) :
    -(infMag : Int) < orderKey a ∧ orderKey a < infMag := by
  have hm := (isfinite_iff a).1 h
  cases hs : signBit a <;> simp [orderKey, hs] <;> omega

theorem flt_negInf {a : Word} (h : isfinite a = true) : flt 0xFFF0000000000000 a = true := by
  have hkey : orderKey 0xFFF0000000000000 = -(infMag : Int) := by decide
  have hnan : isNaN 0xFFF0000000000000 = false := by decide +kernel
  rw [flt_iff_orderKey, hkey]
  exact ⟨⟨hnan, not_isNaN_of_isfinite h⟩, (abs_orderKey_lt_infMag h).1⟩

theorem flt_posInf {a : Word} (h : isfinite a = true) : flt a 0x7FF0000000000000 = true := by
  have hkey : orderKey 0x7FF0000000000000 = (infMag : Int) := by decide
  have hnan : isNaN 0x7FF0000000000000 = false := by decide +kernel
  rw [flt_iff_orderKey, hkey]
  exact ⟨⟨not_isNaN_of_isfinite h, hnan⟩, (abs_orderKey_lt_infMag h).2⟩

/-! ### The full scale is finite and has no sign (10_state R43) -/

theorem infMag_lt : infMag < 2 ^ 63 := by decide

theorem roundUnits_le_infMag (n d : Nat) : roundUnits n d ≤ infMag := by
  rw [roundUnits_eq]
  exact Nat.min_le_left _ _

/-- An integer from 0 up converts to the rounding of its units with a clear sign bit; zero is no exception. -/
theorem i2f_natCast (n : Nat) : i2f n = packSign false (roundUnits (n * oneUnits) 1) := by
  rcases Nat.eq_zero_or_pos n with rfl | hn
  · rw [Nat.zero_mul]
    unfold i2f roundUnits
    decide +kernel
  · unfold i2f
    rw [if_neg (by omega), ← Int.natCast_mul, roundInt, Int.natAbs_natCast,
      decide_eq_false (Int.natCast_nonneg _).not_gt]

theorem signBit_i2f_natCast (n : Nat) : signBit (i2f n) = false := by
  rw [i2f_natCast, signBit_packSign _ ((roundUnits_le_infMag _ _).trans_lt infMag_lt)]

/-- `2^64` is far below the largest finite value. -/
theorem isfinite_i2f_natCast {n : Nat} (h : n < 2 ^ 64) : isfinite (i2f n) = true := by
  rw [isfinite_iff, i2f_natCast, magBits_packSign _ ((roundUnits_le_infMag _ _).trans_lt infMag_lt),
    roundUnits_lt_infMag_iff _ Nat.one_pos, Nat.mul_one]
  calc n * oneUnits < 2 ^ 64 * oneUnits := Nat.mul_lt_mul_of_pos_right h (by decide +kernel)
    _ ≤ ((1 <<< 54) - 1) <<< 2044 := by decide +kernel

theorem signBit_fullScale (w : BitVec 6) : signBit (fullScale w) = false := signBit_i2f_natCast _

theorem isfinite_fullScale (w : BitVec 6) : isfinite (fullScale w) = true := by
  have hw : 2 ^ (w.toNat - 1) ≤ 2 ^ 63 := Nat.pow_le_pow_right (by decide) (by omega)
  exact isfinite_i2f_natCast (by omega)

/-! ### The three branches of `clampFS` -/

theorem clampFS_of_flt {fs v : Word} (h : flt v (fneg fs) = true) : clampFS fs v = fneg fs := by
  rw [clampFS, if_pos h]

/-- A value above a bound with a clear sign is not below the negated bound, so the first test fails. -/
theorem clampFS_of_fgt {fs v : Word} (hs : signBit fs = false) (h : fgt v fs = true) :
    clampFS fs v = fs := by
  have hpos := orderKey_nonneg hs
  have hgt := ((flt_iff_orderKey fs v).1 h).2
  have hlow : flt v (fneg fs) = false :=
    flt_eq_false_of_orderKey_le (by rw [orderKey_fneg]; omega)
  simp [clampFS, hlow, h]

theorem clampFS_of_between {fs v : Word} (hlo : fle (fneg fs) v = true) (hhi : fle v fs = true) :
    clampFS fs v = v := by
  simp [clampFS, fgt, flt_eq_false_of_fle hlo, flt_eq_false_of_fle hhi]

/-- Settles O60: each range selects its branch, as the full scale has a clear sign; it is finite, so the
infinities fall in the outer ranges. -/
theorem clampKeepsOrBounds : Obligations.ClampKeepsOrBounds := by
  unfold Obligations.ClampKeepsOrBounds
  intro w v _ fs
  have hsign : signBit fs = false := signBit_fullScale w
  have hfin : isfinite fs = true := isfinite_fullScale w
  refine ⟨clampFS_of_flt, clampFS_of_fgt hsign, clampFS_of_between, ?negInf, ?posInf⟩
  case negInf => exact clampFS_of_flt (flt_negInf ((isfinite_fneg fs).trans hfin))
  case posInf => exact clampFS_of_fgt hsign (flt_posInf hfin)

end Sys2Proof.Machine
end

section
/-! The AGC output bound (41_agc R144). The gain stays finite and the sample is admissible, so their product
is no NaN; what `clampFS` does to any other value lies between `-FS` and `FS`. -/

namespace Sys2Proof.Machine

/-! ### NaNs by their bits; a product of finite values is none (40_numerics R121, R125) -/

/-- A NaN is a pattern past that of an infinity. -/
theorem isNaN_iff (a : Word) : isNaN a = true ↔ infMag < magBits a := by
  have hfin := isfinite_iff a
  have hfrac : fracField a = 0 ↔ magBits a % 2 ^ 52 = 0 := by
    rw [← fracField_toNat]
    exact BitVec.toNat_inj.symm
  have hlt := magBits_lt a
  rw [infMag_eq] at hfin ⊢
  rw [isNaN, Bool.and_eq_true, Bool.not_eq_true', bne_iff_ne, ne_eq, hfrac, Bool.eq_false_iff, ne_eq, hfin]
  omega

theorem isNaN_packSign (neg : Bool) {m : Nat} (h : m ≤ infMag) : isNaN (packSign neg m) = false := by
  rw [Bool.eq_false_iff, ne_eq, isNaN_iff, magBits_packSign neg (h.trans_lt infMag_lt)]
  exact h.not_gt

@[simp] theorem isNaN_fneg (a : Word) : isNaN (fneg a) = isNaN a := by
  rw [Bool.eq_iff_iff, isNaN_iff, isNaN_iff, magBits_fneg]

theorem fmul_of_isfinite {a b : Word} (ha : isfinite a = true) (hb : isfinite b = true) :
    fmul a b = packSign (signBit a != signBit b) (roundUnits (magUnits a * magUnits b) oneUnits) := by
  unfold fmul
  simp [not_isNaN_of_isfinite ha, not_isNaN_of_isfinite hb, not_isInf_of_isfinite ha, not_isInf_of_isfinite hb]

/-- A product of finite values may overflow to an infinity, but it is never a NaN. -/
theorem isNaN_fmul_of_isfinite {a b : Word} (ha : isfinite a = true) (hb : isfinite b = true) :
    isNaN (fmul a b) = false := by
  rw [fmul_of_isfinite ha hb]
  exact isNaN_packSign _ (roundUnits_le_infMag _ _)

/-! ### What `clampFS` returns lies between the bounds (40_numerics R131) -/

theorem fle_of_flt_eq_false {a b : Word} (ha : isNaN a = false) (hb : isNaN b = false)
    (h : flt a b = false) : fle b a = true := by
  rw [Bool.eq_false_iff, ne_eq, flt_iff_orderKey, not_and, not_lt] at h
  exact (fle_iff_orderKey b a).2 ⟨⟨hb, ha⟩, h ⟨ha, hb⟩⟩

theorem fle_refl {a : Word} (ha : isNaN a = false) : fle a a = true :=
  (fle_iff_orderKey a a).2 ⟨⟨ha, ha⟩, le_rfl⟩

theorem fle_fneg_self {a : Word} (hs : signBit a = false) (ha : isNaN a = false) :
    fle (fneg a) a = true := by
  have hpos := orderKey_nonneg hs
  rw [fle_iff_orderKey, isNaN_fneg, orderKey_fneg]
  exact ⟨⟨ha, ha⟩, by omega⟩

/-- Only a NaN escapes the clamp: both of its comparisons fail. -/
theorem clampFS_within {fs v : Word} (hs : signBit fs = false) (hfs : isNaN fs = false)
    (hv : isNaN v = false) :
    fle (fneg fs) (clampFS fs v) = true ∧ fle (clampFS fs v) fs = true := by
  have hneg : isNaN (fneg fs) = false := (isNaN_fneg fs).trans hfs
  cases hlow : flt v (fneg fs) with
  | true =>
    rw [clampFS_of_flt hlow]
    exact ⟨fle_refl hneg, fle_fneg_self hs hfs⟩
  | false =>
    cases hhigh : fgt v fs with
    | true =>
      rw [clampFS_of_fgt hs hhigh]
      exact ⟨fle_fneg_self hs hfs, fle_refl hfs⟩
    | false =>
      have hlo : fle (fneg fs) v = true := fle_of_flt_eq_false hv hneg hlow
      have hhi : fle v fs = true := fle_of_flt_eq_false hfs hv hhigh
      rw [clampFS_of_between hlo hhi]
      exact ⟨hlo, hhi⟩

/-! ### The gain stays finite (41_agc R141) -/

/-- A quotient that is not finite is not taken over: the recompute is degenerate and holds the gain. -/
theorem isfinite_agcRecompute_gain (c : CfgRegs) {a : Agc} (h : isfinite a.gain = true) :
    isfinite (agcRecompute c a).agc.gain = true := by
  cases hquot : isfinite (fdiv (fullScale c.w) (agcDenominator c a)) with
  | false =>
    rw [agcRecompute_degenerate (.inr hquot)]
    exact h
  | true =>
    rcases agcRecompute_cases c a with hheld | htaken
    · rw [hheld]
      exact h
    · rw [htaken]
      exact hquot

theorem isfinite_agcPush_gain (c : CfgRegs) {a : Agc} (x : Word) (h : isfinite a.gain = true) :
    isfinite (agcPush c a x).agc.gain = true := by
  by_cases hfull : a.pos + 1 = c.k.toNat
  · rw [agcPush_full x hfull]
    exact isfinite_agcRecompute_gain c h
  · rw [agcPush_partial x hfull]
    exact h

/-! ### `AGC_OUT` of `AGC_UPDATE` and of `STEP` (41_agc R144, 47_core R203) -/

theorem agcStage_agcOut_within {b : Block} {x : Word} (hx : isfinite x = true)
    (hg : isfinite b.agc.gain = true) :
    let fs := fullScale b.active.regs.w
    fle (fneg fs) (agcStage b x).agcOut = true ∧ fle (agcStage b x).agcOut fs = true := by
  have hgain := isfinite_agcPush_gain b.active.regs x hg
  exact clampFS_within (signBit_fullScale _) (not_isNaN_of_isfinite (isfinite_fullScale _))
    (isNaN_fmul_of_isfinite hx hgain)

/-- The stages of the pipeline after the AGC leave `AGC_OUT` alone. -/
theorem stepped_agcOut (b : Block) (x : Word) : (stepped b x).block.agcOut = (agcStage b x).agcOut := rfl

/-- Settles O47: both commands leave in `AGC_OUT` the output of the AGC stage, a clamped product of the
admissible sample and the finite gain. -/
theorem agcOutputWithinFullScale : Obligations.AgcOutputWithinFullScale := by
  unfold Obligations.AgcOutputWithinFullScale
  intro s i hready hx hgain hi fs
  have hbounds := agcStage_agcOut_within ((admissible_iff _).1 hx).1 hgain
  rcases hi with rfl | rfl
  · exact ⟨_, exec_agcUpdate_ready hready hx, hbounds⟩
  · refine ⟨_, exec_step_ready hready hx, ?_⟩
    rw [complete_block, stepped_agcOut]
    exact hbounds

end Sys2Proof.Machine
end

section
/-! The bulk filter against the streaming one (43_fir R164). A run of samples leaves the fold of the
command's stage over the block; the fold of `firStage` from a cleared arm is what `firApplied` leaves,
but for `BUFMEM`. -/

namespace Sys2Proof.Machine

/-! ### Runs of a sample command -/

/-- On a ready block and an admissible sample, the command applies the stage to the block. -/
def AppliesStage (i : Instr) (stage : Block → Word → Block) : Prop :=
  ∀ s : State, s.Ready → admissible s.din0 = true →
    ∃ t, exec i s = .next t ∧ t.block = stage s.block s.din0

/-- After the sample at index `j`, the block is the fold of the stage over the samples up to it. -/
theorem feedAll_block {i : Instr} {stage : Block → Word → Block} (hi : AppliesStage i stage)
    {xs : List Word} {s : State} (hs : s.Ready) (hx : ∀ x ∈ xs, admissible x = true) :
    ∃ ts, feedAll i xs s = some ts ∧ ts.length = xs.length ∧
      ∀ j u, ts[j]? = some u → u.block = (xs.take (j + 1)).foldl stage s.block := by
  induction xs generalizing s with
  | nil => exact ⟨[], rfl, rfl, fun j u hu => by simp at hu⟩
  | cons x xs ih =>
    rw [List.forall_mem_cons] at hx
    obtain ⟨hhead, htail⟩ := hx
    obtain ⟨t, ht, hblock⟩ := hi { s with din0 := x } hs hhead
    have htReady : t.Ready := Ready_of_exec (s := { s with din0 := x }) hs ht
    obtain ⟨ts, hrun, hlen, hts⟩ := ih htReady htail
    have hfeed : feed i x s = some t := nextOf_eq_some_iff.2 ht
    refine ⟨t :: ts, by rw [feedAll_cons i x xs s t hfeed, hrun]; rfl, by simp [hlen], fun j u hu => ?_⟩
    cases j with
    | zero =>
      obtain rfl : t = u := by simpa using hu
      exact hblock
    | succ j =>
      rw [List.getElem?_cons_succ] at hu
      rw [hts j u hu, hblock]
      rfl

theorem firUpdate_appliesStage (arm : Arm) : AppliesStage (.firUpdate arm) (firStage arm) :=
  fun _ hs hx => ⟨_, exec_firUpdate_ready hs hx, rfl⟩

/-! ### The fold of `firStep` (43_fir R160) -/

@[simp] theorem PerArm.set_set_same {α : Type} (p : PerArm α) (arm : Arm) (a b : α) :
    (p.set arm a).set arm b = p.set arm b := by cases arm <;> rfl

/-- Only the arm's history and its last output change over a sequence of samples. -/
theorem foldl_firStage (arm : Arm) (b : Block) {xs : List Word} (h : xs ≠ []) :
    xs.foldl (firStage arm) b =
      { b with
        firBuf := b.firBuf.set arm (firHistory b.active (b.firBuf.get arm) xs)
        firOut := b.firOut.set arm (firOutput b.active (firHistory b.active (b.firBuf.get arm) xs)) } := by
  induction xs generalizing b with
  | nil => exact absurd rfl h
  | cons x xs ih =>
    cases xs with
    | nil => rfl
    | cons y ys =>
      rw [List.foldl_cons, ih (firStage arm b x) (List.cons_ne_nil y ys)]
      simp [firStage, firHistory]

/-- The bulk outputs are the streamed values of `FIR_arm`. -/
theorem firOutputs_getElem?_eq_streamed (arm : Arm) (b : Block) {xs : List Word} {j : Nat}
    (h : j < xs.length) :
    (firOutputs b.active (b.firBuf.get arm) xs)[j]? =
      some (((xs.take (j + 1)).foldl (firStage arm) b).firOut.get arm) := by
  have hne : xs.take (j + 1) ≠ [] := by
    rw [← List.length_pos_iff, List.length_take]
    omega
  rw [firOutputs_getElem? _ _ _ h, foldl_firStage arm b hne, PerArm.get_set_same]

theorem firOutputs_getLastD (c : CfgCopy) (hist : List Word) {xs : List Word} (h : xs ≠ []) :
    (firOutputs c hist xs).getLastD 0 = firOutput c (firHistory c hist xs) := by
  have hpos := List.length_pos_iff.2 h
  rw [List.getLastD_eq_getLast?, List.getLast?_eq_getElem?, firOutputs_length,
    firOutputs_getElem? c hist xs (by omega), Nat.sub_add_cancel hpos, List.take_length,
    Option.getD_some]

/-- `FIR_APPLY` is `FIR_CLEAR` and `firStep` on each input, with the outputs stored from `dst` on. -/
theorem firApplied_eq_streamed (p : Params) (arm : Arm) (dst : Nat) (b : Block) {ins : List Word}
    (h : ins ≠ []) :
    firApplied p arm dst b ins =
      { ins.foldl (firStage arm) (firCleared p arm b) with
        mem := bufWriteAll b.mem dst
          (firOutputs b.active ((firCleared p arm b).firBuf.get arm) ins) } := by
  rw [foldl_firStage arm _ h, firApplied]
  simp only [firOutputs_getLastD _ _ h, firCleared, PerArm.get_set_same, PerArm.set_set_same]

/-- Entry `dst + j` after `FIR_APPLY` is the value of `FIR_arm` after the streamed input `j`. -/
theorem wordAt_firApplied (p : Params) (arm : Arm) (dst : Nat) (b : Block) {ins : List Word} {j : Nat}
    (h : j < ins.length) :
    wordAt (firApplied p arm dst b ins).mem (bufOffset (dst + j)) =
      some (((ins.take (j + 1)).foldl (firStage arm) (firCleared p arm b)).firOut.get arm) := by
  have hne : ins ≠ [] := List.ne_nil_of_length_pos (by omega)
  rw [firApplied_eq_streamed p arm dst b hne, wordAt_bufWriteAll, firOutputs_length, if_pos (by omega),
    Nat.add_sub_cancel_left]
  exact firOutputs_getElem?_eq_streamed arm (firCleared p arm b) h

/-- Settles O50: the run leaves the folds of `firStep` over the cleared block, whose outputs `FIR_APPLY`
stores and whose last arm state it leaves. -/
theorem bulkFilterEqualsStreaming : Obligations.BulkFilterEqualsStreaming := by
  unfold Obligations.BulkFilterEqualsStreaming
  intro s arm count src dst hready hcount hsrc hdst hins
  have hclear := exec_firClear_ready (arm := arm) hready
  have happly := exec_firApply_ready (arm := arm) hready hcount hsrc hdst hins
  obtain ⟨ts, hrun, hlen, hblock⟩ :=
    feedAll_block (firUpdate_appliesStage arm) (Ready_of_exec hready hclear) hins
  rw [bulkInputs_length] at hlen
  refine ⟨_, ts, _, nextOf_eq_some_iff.2 hclear, hrun, hlen, nextOf_eq_some_iff.2 happly,
    fun j u hu => ?output, fun u hu => ?armState⟩
  case output =>
    obtain ⟨hj, -⟩ := List.getElem?_eq_some_iff.1 hu
    rw [hblock j u hu]
    exact wordAt_firApplied _ arm dst _ (by rw [bulkInputs_length]; omega)
  case armState =>
    have hlenIns := bulkInputs_length s src count
    have hne : bulkInputs s src count ≠ [] := List.ne_nil_of_length_pos (by omega)
    have hall : (bulkInputs s src count).take (count - 1 + 1) = bulkInputs s src count :=
      List.take_of_length_le (by omega)
    rw [hblock _ u hu, hall, complete_block, quiet_block, firApplied_eq_streamed _ arm dst _ hne]
    exact ⟨rfl, rfl⟩

end Sys2Proof.Machine
end

section
/-! The post-gain bound (44_post_gain R172). `i2f` is exact on the integers a cast yields, so the bound
`FS = i2f(2^(W-1) - 1)` on the clamped product is a bound on the integer nearest to it. -/

namespace Sys2Proof.Machine

/-! ### A quotient by rounding (40_numerics R121) -/

theorem divNearestEven_mul_self (k : Nat) {d : Nat} (hd : 0 < d) : divNearestEven (k * d) d = k := by
  simp [divNearestEven, hd.ne']

/-- Rounding a quotient does not carry it past an integer. -/
theorem divNearestEven_le {n k d : Nat} (hd : 0 < d) (h : n ≤ k * d) : divNearestEven n d ≤ k := by
  obtain ⟨⟨-, hupper⟩, -⟩ := divNearestEven_spec n hd
  by_contra hlt
  have hnext : (k + 1) * d ≤ divNearestEven n d * d := Nat.mul_le_mul_right d (by omega)
  rw [Nat.succ_mul] at hnext
  omega

/-- A finite rounding of a multiple of the spacing loses nothing. -/
theorem unitsOfBits_roundUnits_of_dvd {n : Nat} (hdvd : 2 ^ ulpExponent n 1 ∣ n)
    (hfin : roundUnits n 1 < infMag) : unitsOfBits (roundUnits n 1) = n := by
  obtain ⟨hbinade, hmax, -, -⟩ := roundedSignificand_spec n Nat.one_pos
  have hbits : roundUnits n 1 = ulpExponent n 1 * 2 ^ 52 + roundedSignificand n 1 := by
    rw [roundUnits_eq] at hfin ⊢
    omega
  obtain ⟨k, hk⟩ := hdvd
  have hsig : roundedSignificand n 1 = k := by
    rw [roundedSignificand, Nat.one_mul]
    calc divNearestEven n (2 ^ ulpExponent n 1)
        = divNearestEven (k * 2 ^ ulpExponent n 1) (2 ^ ulpExponent n 1) := by rw [Nat.mul_comm k, ← hk]
      _ = k := divNearestEven_mul_self k (by positivity)
  rw [hbits, unitsOfBits_ulp hbinade hmax, hsig, Nat.mul_comm, ← hk]

/-! ### Integers as binary64 values (40_numerics R126) -/

theorem oneUnits_eq : oneUnits = 2 ^ 1074 := by decide +kernel

theorem oneUnits_pos : 0 < oneUnits := by rw [oneUnits_eq]; positivity

/-- An integer below `2^53` has no bit below the spacing of its binade. -/
theorem ulpExponent_dvd_mul_oneUnits {n : Nat} (h : n < 2 ^ 53) :
    2 ^ ulpExponent (n * oneUnits) 1 ∣ n * oneUnits := by
  obtain ⟨-, hzero | hbinade⟩ := ulpExponent_spec (n * oneUnits) 1
  · rw [hzero, Nat.pow_zero]
    exact one_dvd _
  · rw [Nat.div_one] at hbinade
    have hlt : 2 ^ (ulpExponent (n * oneUnits) 1 + 52) < 2 ^ (53 + 1074) :=
      calc 2 ^ (ulpExponent (n * oneUnits) 1 + 52) ≤ n * oneUnits := hbinade
        _ < 2 ^ 53 * oneUnits := Nat.mul_lt_mul_of_pos_right h oneUnits_pos
        _ = 2 ^ (53 + 1074) := by rw [oneUnits_eq, Nat.pow_add]
    have hexp := (Nat.pow_lt_pow_iff_right Nat.one_lt_two).1 hlt
    rw [oneUnits_eq] at hexp ⊢
    exact (pow_dvd_pow 2 (by omega)).mul_left n

theorem i2f_eq_packSign (n : Int) :
    i2f n = packSign (decide (n < 0)) (roundUnits (n.natAbs * oneUnits) 1) := by
  rcases Int.lt_or_le n 0 with hneg | hpos
  · unfold i2f
    rw [if_neg hneg.ne, roundInt, Int.natAbs_mul, Int.natAbs_natCast,
      decide_eq_true hneg, decide_eq_true (mul_neg_of_neg_of_pos hneg (Int.natCast_pos.2 oneUnits_pos))]
  · lift n to Nat using hpos
    rw [i2f_natCast, Int.natAbs_natCast, decide_eq_false (Int.natCast_nonneg n).not_gt]

theorem signBit_i2f (n : Int) : signBit (i2f n) = decide (n < 0) := by
  rw [i2f_eq_packSign, signBit_packSign _ ((roundUnits_le_infMag _ _).trans_lt infMag_lt)]

theorem magBits_i2f (n : Int) : magBits (i2f n) = magBits (i2f n.natAbs) := by
  have hlt := (roundUnits_le_infMag (n.natAbs * oneUnits) 1).trans_lt infMag_lt
  rw [i2f_eq_packSign, i2f_natCast, magBits_packSign _ hlt, magBits_packSign _ hlt]

theorem isfinite_i2f {n : Int} (h : n.natAbs < 2 ^ 64) : isfinite (i2f n) = true := by
  rw [isfinite_iff, magBits_i2f, ← isfinite_iff]
  exact isfinite_i2f_natCast h

/-- `i2f` is exact below `2^53`. -/
theorem units_i2f {n : Int} (h : n.natAbs < 2 ^ 53) : units (i2f n) = n * oneUnits := by
  have hfin := (isfinite_iff _).1 (isfinite_i2f (n := n) (by omega))
  have hmag : magUnits (i2f n) = n.natAbs * oneUnits := by
    rw [i2f_eq_packSign, magBits_packSign _ ((roundUnits_le_infMag _ _).trans_lt infMag_lt)] at hfin
    rw [magUnits_eq, i2f_eq_packSign, magBits_packSign _ (hfin.trans infMag_lt)]
    exact unitsOfBits_roundUnits_of_dvd (ulpExponent_dvd_mul_oneUnits h) hfin
  rw [units, signBit_i2f, hmag]
  push_cast
  rcases Int.lt_or_le n 0 with hneg | hpos
  · simp [hneg, abs_of_neg]
  · simp [hpos.not_gt, abs_of_nonneg hpos]

/-! ### The full scale as an integer (10_state R43) -/

/-- The integer `2^(W-1) - 1` whose binary64 is the full scale. -/
def fullScaleInt (w : BitVec 6) : Nat := 2 ^ (w.toNat - 1) - 1

theorem fullScale_eq_i2f (w : BitVec 6) : fullScale w = i2f (fullScaleInt w) := rfl

theorem fullScaleInt_lt {w : BitVec 6} (hw : w.toNat ≤ 53) : fullScaleInt w < 2 ^ 53 := by
  have hpow : 2 ^ (w.toNat - 1) ≤ 2 ^ 53 := Nat.pow_le_pow_right Nat.two_pos (by omega)
  rw [fullScaleInt]
  omega

theorem units_fullScale {w : BitVec 6} (hw : w.toNat ≤ 53) :
    units (fullScale w) = fullScaleInt w * oneUnits := by
  rw [fullScale_eq_i2f, units_i2f (by rw [Int.natAbs_natCast]; exact fullScaleInt_lt hw)]

/-- An integer within the bounds converts to a value within them. -/
theorem i2f_within_fullScale {w : BitVec 6} {n : Int} (hw : w.toNat ≤ 53)
    (hn : n.natAbs ≤ fullScaleInt w) :
    fle (fneg (fullScale w)) (i2f n) = true ∧ fle (i2f n) (fullScale w) = true := by
  have hlt : n.natAbs < 2 ^ 53 := hn.trans_lt (fullScaleInt_lt hw)
  have hfs := isfinite_fullScale w
  have hfin : isfinite (i2f n) = true := isfinite_i2f (by omega)
  rw [fle_iff ((isfinite_fneg _).trans hfs) hfin, fle_iff hfin hfs, units_fneg, units_fullScale hw,
    units_i2f hlt, ← neg_mul]
  constructor <;> exact mul_le_mul_of_nonneg_right (by omega) (Int.natCast_nonneg _)

/-! ### Values between `-FS` and `FS` (40_numerics R131) -/

theorem natAbs_orderKey (a : Word) : (orderKey a).natAbs = magBits a := by
  rw [orderKey]
  split <;> simp only [Int.natAbs_neg, Int.natAbs_natCast]

theorem isfinite_of_within {fs v : Word} (hfs : isfinite fs = true) (hlo : fle (fneg fs) v = true)
    (hhi : fle v fs = true) : isfinite v = true := by
  have hlo' := ((fle_iff_orderKey _ _).1 hlo).2
  have hhi' := ((fle_iff_orderKey _ _).1 hhi).2
  have hbound := abs_orderKey_lt_infMag hfs
  rw [orderKey_fneg] at hlo'
  rw [isfinite_iff, ← natAbs_orderKey]
  omega

theorem magUnits_le_of_within {w : BitVec 6} {v : Word} (hw : w.toNat ≤ 53)
    (hlo : fle (fneg (fullScale w)) v = true) (hhi : fle v (fullScale w) = true) :
    magUnits v ≤ fullScaleInt w * oneUnits := by
  have hfs := isfinite_fullScale w
  have hv := isfinite_of_within hfs hlo hhi
  rw [fle_iff ((isfinite_fneg _).trans hfs) hv, units_fneg, units_fullScale hw] at hlo
  rw [fle_iff hv hfs, units_fullScale hw] at hhi
  rw [← natAbs_units]
  zify
  exact abs_le.2 ⟨hlo, hhi⟩

/-! ### Integer casts (40_numerics R133) -/

theorem natAbs_ftrunc (v : Word) : (ftrunc v).natAbs = magUnits v / oneUnits := by
  rw [ftrunc]
  split <;> simp only [Int.natAbs_neg, Int.natAbs_natCast]

theorem natAbs_frne (v : Word) : (frne v).natAbs = divNearestEven (magUnits v) oneUnits := by
  rw [frne]
  split <;> simp only [Int.natAbs_neg, Int.natAbs_natCast]

theorem natAbs_ftrunc_le {v : Word} {k : Nat} (h : magUnits v ≤ k * oneUnits) : (ftrunc v).natAbs ≤ k := by
  rw [natAbs_ftrunc]
  exact Nat.div_le_of_le_mul (by rwa [Nat.mul_comm])

theorem natAbs_frne_le {v : Word} {k : Nat} (h : magUnits v ≤ k * oneUnits) : (frne v).natAbs ≤ k := by
  rw [natAbs_frne]
  exact divNearestEven_le oneUnits_pos h

theorem castInt_of_isfinite (toInt : Word → Int) {v : Word} (hv : isfinite v = true) :
    castInt toInt v = i2f (toInt v) := if_pos hv

/-! ### The result of the post-gain (44_post_gain R170) -/

theorem postGain_of_pgEn {c : CfgRegs} (v : Word) (h : c.pgEn = true) :
    postGain c v = postCast c.pgCast (clampFS (fullScale c.w) (fmul (i2f c.g.toNat) v)) := if_pos h

theorem postCast_zero (v : Word) : postCast 0 v = v := rfl

/-- A cast that can be active leaves an integer, truncated or nearest. -/
theorem postCast_cases {cast : BitVec 2} {v : Word} (h0 : cast ≠ 0) (h3 : cast ≠ 3)
    (hv : isfinite v = true) :
    postCast cast v = i2f (ftrunc v) ∨ postCast cast v = i2f (frne v) := by
  obtain rfl | rfl : cast = 1 ∨ cast = 2 := by bv_omega
  · exact .inl (castInt_of_isfinite ftrunc hv)
  · exact .inr (castInt_of_isfinite frne hv)

/-- A cast takes a value between `-FS` and `FS` to an integer of at most `2^(W-1) - 1`. -/
theorem postCast_eq_i2f_of_within {w : BitVec 6} {cast : BitVec 2} {v : Word} (h0 : cast ≠ 0)
    (h3 : cast ≠ 3) (hw : w.toNat ≤ 53) (hlo : fle (fneg (fullScale w)) v = true)
    (hhi : fle v (fullScale w) = true) :
    ∃ n : Int, postCast cast v = i2f n ∧ n.natAbs ≤ fullScaleInt w := by
  have hmag := magUnits_le_of_within hw hlo hhi
  rcases postCast_cases h0 h3 (isfinite_of_within (isfinite_fullScale w) hlo hhi) with htrunc | hnear
  · exact ⟨_, htrunc, natAbs_ftrunc_le hmag⟩
  · exact ⟨_, hnear, natAbs_frne_le hmag⟩

/-- Settles O52: the product of the integer gain and a finite value is no NaN, so the clamp bounds it, and
either cast keeps the bound, which is an integer. -/
theorem postGainWithinFullScale : Obligations.PostGainWithinFullScale := by
  unfold Obligations.PostGainWithinFullScale
  intro c v hen hcast _ hw hv
  have hgain : isfinite (i2f c.g.toNat) = true := isfinite_i2f_natCast (by omega)
  obtain ⟨hlo, hhi⟩ := clampFS_within (signBit_fullScale c.w)
    (not_isNaN_of_isfinite (isfinite_fullScale c.w)) (isNaN_fmul_of_isfinite hgain hv)
  rw [postGain_of_pgEn v hen]
  by_cases h0 : c.pgCast = 0
  · rw [h0, postCast_zero]
    exact ⟨hlo, hhi, fun hne => absurd rfl hne⟩
  · obtain ⟨n, hn, hle⟩ := postCast_eq_i2f_of_within h0 hcast hw hlo hhi
    rw [hn]
    obtain ⟨hlo', hhi'⟩ := i2f_within_fullScale hw hle
    refine ⟨hlo', hhi', fun _ => ⟨n, rfl, ?_⟩⟩
    calc |n| = (n.natAbs : Int) := Int.abs_eq_natAbs n
      _ ≤ (fullScaleInt c.w : Int) := Int.ofNat_le.2 hle
      _ = 2 ^ (c.w.toNat - 1) - 1 := by rw [fullScaleInt, Nat.cast_pred (by positivity)]; push_cast; rfl

end Sys2Proof.Machine
end

section
/-! The integrate-and-dump decimator (45_intdump R184, R185). A run of `idStep` keeps the last `L` of the
samples behind the initial window, and its counter counts them modulo `L`. An update is valid exactly when
it leaves the counter at 0, and its output is then the mean of that window, which is a window of
`ID_APPLY`. -/

namespace Sys2Proof.Machine

/-! ### What `ID_APPLY` stores (45_intdump R183) -/

/-- Entry `dst + j` after `ID_APPLY` is the mean of window `j`. -/
theorem wordAt_idApplied (dst : Nat) (b : Block) (ins : List Word) {count j : Nat}
    (h : j < count / b.active.regs.l.toNat) :
    wordAt (idApplied count dst b ins).mem (bufOffset (dst + j)) =
      some (blockMean b.active.regs.l.toNat ins j) := by
  rw [idApplied, wordAt_bufWriteAll, List.length_map, List.length_range, if_pos (by omega),
    Nat.add_sub_cancel_left, List.getElem?_map, List.getElem?_range h, Option.map_some]

theorem byteAt_idApplied_outside (count dst : Nat) (b : Block) (ins : List Word) {a : Nat}
    (h : ¬(bufOffset dst ≤ a ∧ a < bufOffset (dst + count / b.active.regs.l.toNat))) :
    byteAt (idApplied count dst b ins).mem a = byteAt b.mem a :=
  byteAt_bufWriteAll_outside _ _ _ _ (by rwa [List.length_map, List.length_range])

/-- Settles O24: the completion changes the block in `BUFMEM` only, where one mean for each window stands
from `dst` on. -/
theorem idApplyWritesBlockMeans : Obligations.IdApplyWritesBlockMeans := by
  unfold Obligations.IdApplyWritesBlockMeans
  intro s count src dst hready l ins hl hcount hsrc hdst hins
  have houtputs : 1 ≤ count / l := Nat.div_pos hcount hl
  refine ⟨_, exec_idApply_ready hready houtputs hsrc hdst hins, ?frame, fun j hj => ?means,
    fun a ha => ?outside, ?sticky⟩
  case frame => exact complete_eq (s := { s with draws := s.draws + count }) hready.1 _
  case means => exact wordAt_idApplied dst s.block ins hj
  case outside => exact byteAt_idApplied_outside count dst s.block ins ha
  case sticky => exact StickyAdds_complete_quiet _ _

/-! ### One `idStep` (45_intdump R180) -/

@[simp] theorem idStep_buf (l : Nat) (u : IntDump) (x : Word) :
    (idStep l u x).unit.buf = idShift l u.buf x := by
  by_cases h : u.cnt + 1 = l
  · rw [idStep_full x h]
  · rw [idStep_partial x h]

theorem idStep_cnt {l : Nat} {u : IntDump} (x : Word) (h : u.cnt < l) :
    (idStep l u x).unit.cnt = (u.cnt + 1) % l := by
  by_cases hfull : u.cnt + 1 = l
  · rw [idStep_full x hfull, hfull, Nat.mod_self]
  · rw [idStep_partial x hfull, Nat.mod_eq_of_lt (by omega)]

theorem idStep_valid_iff (l : Nat) (u : IntDump) (x : Word) :
    (idStep l u x).valid = true ↔ (idStep l u x).unit.cnt = 0 := by
  by_cases h : u.cnt + 1 = l
  · simp [idStep_full x h]
  · simp [idStep_partial x h]

/-- A valid output is the mean of the window as the update leaves it. -/
theorem idStep_out_of_valid {l : Nat} {u : IntDump} {x : Word} (h : (idStep l u x).valid = true) :
    (idStep l u x).out = mean ((idStep l u x).unit.buf.take l) := by
  by_cases hfull : u.cnt + 1 = l
  · rw [idStep_full x hfull]
  · simp [idStep_partial x hfull] at h

/-! ### A run of `idStep` -/

/-- The arm's window and counter after a sequence of samples. -/
def idRun (l : Nat) (u : IntDump) (xs : List Word) : IntDump :=
  xs.foldl (fun v x => (idStep l v x).unit) u

@[simp] theorem idRun_nil (l : Nat) (u : IntDump) : idRun l u [] = u := rfl

@[simp] theorem idRun_cons (l : Nat) (u : IntDump) (x : Word) (xs : List Word) :
    idRun l u (x :: xs) = idRun l (idStep l u x).unit xs := rfl

theorem idRun_cnt {l : Nat} {u : IntDump} (xs : List Word) (h : u.cnt < l) :
    (idRun l u xs).cnt = (u.cnt + xs.length) % l := by
  induction xs generalizing u with
  | nil => exact (Nat.mod_eq_of_lt h).symm
  | cons x xs ih =>
    have hcnt := idStep_cnt x h
    rw [idRun_cons, ih (hcnt ▸ Nat.mod_lt _ (by omega)), hcnt, Nat.mod_add_mod, List.length_cons,
      Nat.add_assoc, Nat.add_comm 1]

/-- The window after a run: the last `L` of the initial window followed by the samples. -/
theorem take_idRun_buf {l : Nat} {u : IntDump} (xs : List Word) (h1 : 1 ≤ l) (h : l ≤ u.buf.length) :
    (idRun l u xs).buf.take l = (u.buf.take l ++ xs).drop xs.length := by
  induction xs generalizing u with
  | nil => simp
  | cons x xs ih =>
    have hlen : (idStep l u x).unit.buf.length = u.buf.length := by rw [idStep_buf, idShift_length x h1 h]
    have hone : 1 ≤ (u.buf.take l).length := by rw [List.length_take]; omega
    rw [idRun_cons, ih (hlen ▸ h), idStep_buf, take_idShift x h1 h, List.append_assoc, List.singleton_append,
      ← List.drop_append_of_le_length hone, List.drop_drop, List.length_cons, Nat.add_comm 1]

/-- After `n` full windows the window holds the last of them, whatever it held at first. -/
theorem take_idRun_buf_take_mul {l n : Nat} {u : IntDump} {xs : List Word} (h1 : 1 ≤ l)
    (h : l ≤ u.buf.length) (hn : 1 ≤ n) (hxs : n * l ≤ xs.length) :
    (idRun l u (xs.take (n * l))).buf.take l = (xs.drop ((n - 1) * l)).take l := by
  have hmul : n * l = (n - 1) * l + l := by rw [← Nat.succ_mul, Nat.succ_eq_add_one, Nat.sub_add_cancel hn]
  have hold : (u.buf.take l).length = l := List.length_take_of_le h
  have hnew : (xs.take (n * l)).length = (n - 1) * l + l := by rw [List.length_take_of_le hxs, hmul]
  rw [take_idRun_buf _ h1 h, hnew, List.drop_append, hold, Nat.add_sub_cancel,
    List.drop_eq_nil_of_le (by omega), List.nil_append, hmul, List.drop_take, Nat.add_sub_cancel_left]

/-! ### The fold of `idStage` (45_intdump R181) -/

theorem idUpdate_appliesStage (arm : Arm) : AppliesStage (.idUpdate arm) (idStage arm) :=
  fun _ hs hx => ⟨_, exec_idUpdate_ready hs hx, rfl⟩

/-- The arm's window and counter go through `idStep` once for each sample. -/
theorem foldl_idStage_intDump (arm : Arm) (b : Block) (xs : List Word) :
    (xs.foldl (idStage arm) b).intDump.get arm =
      idRun b.active.regs.l.toNat (b.intDump.get arm) xs := by
  induction xs generalizing b with
  | nil => rfl
  | cons x xs ih =>
    rw [List.foldl_cons, ih, idStage_active, idRun_cons]
    simp [idStage]

theorem foldl_idStage_active (arm : Arm) (b : Block) (xs : List Word) :
    (xs.foldl (idStage arm) b).active = b.active := by
  induction xs generalizing b with
  | nil => rfl
  | cons x xs ih => rw [List.foldl_cons, ih, idStage_active]

/-- The last update of a run is valid exactly when the run leaves the counter at 0. -/
theorem foldl_idStage_valid_iff (arm : Arm) (b : Block) {xs : List Word} (h : xs ≠ []) :
    (xs.foldl (idStage arm) b).flags.idValid.get arm = true ↔
      ((xs.foldl (idStage arm) b).intDump.get arm).cnt = 0 := by
  obtain ⟨ys, x, rfl⟩ := (List.eq_nil_or_concat' xs).resolve_left h
  rw [List.foldl_append, List.foldl_cons, List.foldl_nil]
  simp [idStage, idStep_valid_iff]

/-- A valid last output of a run is the mean of the window that the run leaves. -/
theorem foldl_idStage_out {arm : Arm} {b : Block} {xs : List Word} (h : xs ≠ [])
    (hvalid : (xs.foldl (idStage arm) b).flags.idValid.get arm = true) :
    (xs.foldl (idStage arm) b).idOut.get arm =
      mean (((xs.foldl (idStage arm) b).intDump.get arm).buf.take b.active.regs.l.toNat) := by
  obtain ⟨ys, x, rfl⟩ := (List.eq_nil_or_concat' xs).resolve_left h
  rw [List.foldl_append, List.foldl_cons, List.foldl_nil] at hvalid ⊢
  simp only [idStage, PerArm.get_set_same, foldl_idStage_active] at hvalid ⊢
  exact idStep_out_of_valid hvalid

/-! ### A run from a cleared arm (45_intdump R182, R185) -/

@[simp] theorem idCleared_active (p : Params) (arm : Arm) (b : Block) :
    (idCleared p arm b).active = b.active := rfl

@[simp] theorem idCleared_intDump (p : Params) (arm : Arm) (b : Block) :
    (idCleared p arm b).intDump.get arm = { buf := List.replicate p.idLenMax 0, cnt := 0 } :=
  PerArm.get_set_same _ _ _

/-- From a cleared arm, the update of the last sample is valid exactly when the samples fill whole
windows. -/
theorem idCleared_run_valid_iff (p : Params) (arm : Arm) (b : Block) {xs : List Word} (h : xs ≠ [])
    (hl : 1 ≤ b.active.regs.l.toNat) :
    (xs.foldl (idStage arm) (idCleared p arm b)).flags.idValid.get arm = true ↔
      xs.length % b.active.regs.l.toNat = 0 := by
  rw [foldl_idStage_valid_iff arm _ h, foldl_idStage_intDump, idCleared_active, idCleared_intDump,
    idRun_cnt xs hl, Nat.zero_add]

/-- From a cleared arm, the output of update `nL` is output `n - 1` of `ID_APPLY` on the same inputs. -/
theorem idCleared_run_out {p : Params} {arm : Arm} {b : Block} {ins : List Word} {n : Nat}
    (hl : 1 ≤ b.active.regs.l.toNat) (hmax : b.active.regs.l.toNat ≤ p.idLenMax) (hn : 1 ≤ n)
    (hins : n * b.active.regs.l.toNat ≤ ins.length) :
    ((ins.take (n * b.active.regs.l.toNat)).foldl (idStage arm) (idCleared p arm b)).idOut.get arm =
      blockMean b.active.regs.l.toNat ins (n - 1) := by
  have hlen := List.length_take_of_le hins
  have hne : ins.take (n * b.active.regs.l.toNat) ≠ [] :=
    List.ne_nil_of_length_pos (by rw [hlen]; exact Nat.mul_pos hn hl)
  have hvalid := (idCleared_run_valid_iff p arm b hne hl).2 (by rw [hlen, Nat.mul_mod_left])
  rw [foldl_idStage_out hne hvalid, foldl_idStage_intDump, idCleared_active, idCleared_intDump,
    take_idRun_buf_take_mul hl (by rwa [List.length_replicate]) hn hins, blockMean]

/-- Settles O51: the run leaves the folds of `idStage` over the cleared block, which are valid at whole
windows and then hold the mean that `ID_APPLY` stores for the last window. -/
theorem streamingMeansEqualBulkMeans : Obligations.StreamingMeansEqualBulkMeans := by
  unfold Obligations.StreamingMeansEqualBulkMeans
  intro s arm count src dst hready l hl hmax hcount hsrc hdst hins
  have hclear := exec_idClear_ready (arm := arm) hready
  have happly := exec_idApply_ready hready (Nat.div_pos hcount hl) hsrc hdst hins
  obtain ⟨ts, hrun, hlen, hblock⟩ :=
    feedAll_block (idUpdate_appliesStage arm) (Ready_of_exec hready hclear) hins
  have hinputs := bulkInputs_length s src count
  rw [hinputs] at hlen
  refine ⟨_, ts, _, nextOf_eq_some_iff.2 hclear, hrun, hlen, nextOf_eq_some_iff.2 happly,
    fun j u hu => ?valid, fun n u hn hu => ?means⟩
  case valid =>
    obtain ⟨hj, -⟩ := List.getElem?_eq_some_iff.1 hu
    have htake : ((bulkInputs s src count).take (j + 1)).length = j + 1 :=
      List.length_take_of_le (by omega)
    have hne : (bulkInputs s src count).take (j + 1) ≠ [] := List.ne_nil_of_length_pos (by omega)
    rw [hblock j u hu, complete_block, quiet_block, idCleared_run_valid_iff s.params arm s.block hne hl,
      htake]
  case means =>
    obtain ⟨hj, -⟩ := List.getElem?_eq_some_iff.1 hu
    have hpos : 1 ≤ n * l := Nat.mul_pos hn hl
    have hfit : n * l ≤ count := by omega
    have houtput : n - 1 < count / l := Nat.sub_one_lt_of_le hn ((Nat.le_div_iff_mul_le hl).2 hfit)
    rw [hblock _ u hu, Nat.sub_add_cancel hpos, complete_block, quiet_block, complete_block, quiet_block,
      idCleared_run_out hl hmax hn (hinputs.symm ▸ hfit)]
    exact wordAt_idApplied dst s.block _ houtput

end Sys2Proof.Machine
end

section
/-! `STEP` against its nine single-stage commands (47_core R204). Two completions with only operand writes
between them are one completion with the events of both, so the run of the nine commands is one completion,
whose block is the pipeline of R203. -/

namespace Sys2Proof.Machine

/-! ### Completions in sequence (60_exceptions R231) -/

/-- The effects of a command followed by another's: the last block and the events of both. -/
def Effects.followedBy (e f : Effects) : Effects :=
  { block := f.block, agcDegen := e.agcDegen || f.agcDegen, bitReady := e.bitReady || f.bitReady }

theorem Effects.followedBy_quiet (e : Effects) (b : Block) : e.followedBy (quiet b) = { e with block := b } := by
  simp [Effects.followedBy]

/-- The sticky bits of two completions are those of their events together. -/
theorem completionSticky_completionSticky (e f : Effects) (x : BitVec 10) :
    completionSticky f (completionSticky e x) = completionSticky (e.followedBy f) x := by
  refine sticky_ext fun c => ?_
  simp only [hasSticky_completionSticky, Effects.followedBy, Bool.and_or_distrib_right]
  ac_rfl

/-- A completion after operand writes to the state that another left. -/
theorem complete_complete (e f : Effects) (s : State) (x y : Word) :
    complete f { complete e s with din0 := x, din1 := y } =
      complete (e.followedBy f) { s with din0 := x, din1 := y } := by
  simp only [complete, completionSticky_completionSticky]
  rfl

theorem complete_Ready {s : State} (h : s.Ready) (e : Effects) : (complete e s).Ready := ⟨rfl, h.2⟩

/-! ### Feeding a stage after a completion -/

/-- On a ready block and an admissible sample, the command applies the stage to the block and raises no
event of its own. -/
def AppliesQuietly (i : Instr) (stage : Block → Word → Block) : Prop :=
  ∀ s : State, s.Ready → admissible s.din0 = true →
    exec i s = .next (complete (quiet (stage s.block s.din0)) s)

theorem ddcUpdate_appliesQuietly : AppliesQuietly .ddcUpdate ddcStage := fun _ => exec_ddcUpdate_ready

theorem firUpdate_appliesQuietly (arm : Arm) : AppliesQuietly (.firUpdate arm) (firStage arm) :=
  fun _ => exec_firUpdate_ready

theorem pgEval_appliesQuietly (arm : Arm) : AppliesQuietly (.pgEval arm) (pgStage arm) :=
  fun _ => exec_pgEval_ready

theorem idUpdate_appliesQuietly (arm : Arm) : AppliesQuietly (.idUpdate arm) (idStage arm) :=
  fun _ => exec_idUpdate_ready

/-- A stage fed after a completion only takes that completion's block one stage further. -/
theorem feed_complete {i : Instr} {stage : Block → Word → Block} (hi : AppliesQuietly i stage)
    {s t : State} {e : Effects} {x : Word} (ht : t = complete e s) (hs : s.Ready) (hx : admissible x = true) :
    feed i x t = some (complete { e with block := stage e.block x } { s with din0 := x }) := by
  subst ht
  have hexec := hi { complete e s with din0 := x } (complete_Ready hs e) hx
  rw [feed, nextOf_eq_some_iff, hexec, ← Effects.followedBy_quiet]
  exact congrArg _ (complete_complete e _ s x s.din1)

/-- The synchronizer fed after a completion takes that completion's block one stage further and adds its
own event. -/
theorem feed_bsyncUpdate_complete {s t : State} {e : Effects} {x y : Word} (v : Bool) (ht : t = complete e s)
    (hs : s.Ready) (hx : admissible x = true) (hy : admissible y = true) :
    feed (.bsyncUpdate v) x { t with din1 := y } =
      some (complete { block := bsStage e.block x y v, agcDegen := e.agcDegen,
                       bitReady := e.bitReady || bsEmits e.block v }
        { s with din0 := x, din1 := y }) := by
  subst ht
  have hexec := exec_bsyncUpdate_ready (v := v) (s := { complete e s with din0 := x, din1 := y })
    (complete_Ready hs e) hx hy
  rw [feed, nextOf_eq_some_iff, hexec, complete_complete]
  simp [Effects.followedBy]

/-! ### `SAMPLE_COUNT` through the pipeline (47_core R203) -/

@[simp] theorem agcStage_sampleCount (b : Block) (x : Word) : (agcStage b x).sampleCount = b.sampleCount := rfl
@[simp] theorem ddcStage_sampleCount (b : Block) (x : Word) : (ddcStage b x).sampleCount = b.sampleCount := rfl
@[simp] theorem firStage_sampleCount (arm : Arm) (b : Block) (x : Word) :
    (firStage arm b x).sampleCount = b.sampleCount := rfl
@[simp] theorem pgStage_sampleCount (arm : Arm) (b : Block) (x : Word) :
    (pgStage arm b x).sampleCount = b.sampleCount := rfl
@[simp] theorem idStage_sampleCount (arm : Arm) (b : Block) (x : Word) :
    (idStage arm b x).sampleCount = b.sampleCount := rfl
@[simp] theorem pipelineFront_sampleCount (b : Block) (x : Word) :
    (pipelineFront b x).sampleCount = b.sampleCount := by simp [pipelineFront]

/-! ### The nine commands (47_core R204) -/

/-- The state `t` is what one completion on `s` leaves, with `d` for the AGC's event, no emitted bit, and
whatever block and sample `t` holds. -/
def OneCompletion (s : State) (d : Bool) (t : State) : Prop :=
  t = complete { block := t.block, agcDegen := d, bitReady := false } { s with din0 := t.din0 }

theorem OneCompletion_agcUpdate {s t : State} (hs : s.Ready) (hx : admissible s.din0 = true)
    (ht : nextOf .agcUpdate s = some t) :
    OneCompletion s (agcStageDegenerate s.block s.din0) t ∧ t.block = agcStage s.block s.din0 := by
  rw [nextOf_eq_some_iff.2 (exec_agcUpdate_ready hs hx)] at ht
  cases ht
  exact ⟨rfl, rfl⟩

theorem OneCompletion.feed {i : Instr} {stage : Block → Word → Block} (hi : AppliesQuietly i stage)
    {s t u : State} {d : Bool} {x : Word} (ht : OneCompletion s d t) (hs : s.Ready) (hx : admissible x = true)
    (hu : Machine.feed i x t = some u) : OneCompletion s d u ∧ u.block = stage t.block x := by
  rw [feed_complete hi ht hs hx] at hu
  cases hu
  exact ⟨rfl, rfl⟩

/-- Settles O54: each command of the sequence takes the block that `AGC_UPDATE` left one stage further, so
after the decimators it is the pipeline's, and the synchronizer completes it to that of `STEP`. -/
theorem stepEqualsItsStages : Obligations.StepEqualsItsStages := by
  unfold Obligations.StepEqualsItsStages
  intro s s1 s2 s3 s4 s5 s6 s7 s8 s9 hs hx h1 ha1 h2 ha2 h3 ha3 h4 ha4 h5 ha5 h6 ha6 h7 ha7 h8 hai haq h9
  obtain ⟨c1, hagc⟩ := OneCompletion_agcUpdate hs hx h1
  obtain ⟨c2, hddc⟩ := c1.feed ddcUpdate_appliesQuietly hs ha1 h2
  obtain ⟨c3, hfirI⟩ := c2.feed (firUpdate_appliesQuietly .i) hs ha2 h3
  obtain ⟨c4, hfirQ⟩ := c3.feed (firUpdate_appliesQuietly .q) hs ha3 h4
  obtain ⟨c5, hpgI⟩ := c4.feed (pgEval_appliesQuietly .i) hs ha4 h5
  obtain ⟨c6, hpgQ⟩ := c5.feed (pgEval_appliesQuietly .q) hs ha5 h6
  obtain ⟨c7, hidI⟩ := c6.feed (idUpdate_appliesQuietly .i) hs ha6 h7
  obtain ⟨c8, hidQ⟩ := c7.feed (idUpdate_appliesQuietly .q) hs ha7 h8
  have hfront : pipelineFront s.block s.din0 = s8.block := by
    simp only [pipelineFront, ← hagc, ← hddc, ← hfirI, ← hfirQ, ← hpgI, ← hpgQ, ← hidI, ← hidQ]
  have hcount : s8.block.sampleCount = s.block.sampleCount := by
    rw [← hfront, pipelineFront_sampleCount]
  rw [feed_bsyncUpdate_complete _ c8 hs hai haq] at h9
  cases h9
  rw [exec_step_ready hs hx, stepped, hfront, ← hcount]
  rfl

end Sys2Proof.Machine
end

section
/-! The decoder against the encoder and the opcode table (30_encoding R101 to R104): an accepted word is the
encoding of the command it is read as, hence matches a row of the table. -/

namespace Sys2Proof

/-- The fields a command uses, of `f`, under the opcode `op`, and zero elsewhere (30_encoding R101). -/
def usedFields (op : BitVec 8) (usesArm usesV usesBulk : Bool) (f : Fields) : Fields :=
  { op := op
    arm := if usesArm then f.arm else 0
    v := if usesV then f.v else 0
    rsv := 0
    count := if usesBulk then f.count else 0
    src := if usesBulk then f.src else 0
    dst := if usesBulk then f.dst else 0 }

theorem usedFields_of_unusedAreZero {usesArm usesV usesBulk : Bool} {f : Fields}
    (h : unusedAreZero usesArm usesV usesBulk f = true) :
    usedFields f.op usesArm usesV usesBulk f = f := by
  obtain ⟨op, arm, v, rsv, count, src, dst⟩ := f
  simp only [unusedAreZero, Bool.and_eq_true, Bool.or_eq_true, beq_iff_eq] at h
  obtain ⟨⟨⟨hrsv, harm⟩, hv⟩, hbulk⟩ := h
  simp only [usedFields, Fields.mk.injEq]
  refine ⟨trivial, ?_, ?_, hrsv.symm, ?_, ?_, ?_⟩ <;> grind

/-- The encoder writes back the `V` bit that the decoder read. -/
theorem ite_eq_one_bit (v : BitVec 1) : (if v = 1#1 then 1#1 else 0#1) = v := by
  revert v; decide

/-- The one step behind every row of the opcode map: if the command of a row encodes to the fields it uses,
a word accepted as that row's command has exactly the fields of the encoding. -/
theorem encodeFields_of_checkedCommand {op : Nat} {usesArm usesV usesBulk : Bool} {f : Fields} {i j : Instr}
    (hop : f.op.toNat = op) (h : checkedCommand usesArm usesV usesBulk f i = .ok j)
    (hi : WellFormed i ∧ encodeFields i = usedFields (BitVec.ofNat 8 op) usesArm usesV usesBulk f) :
    WellFormed j ∧ encodeFields j = f := by
  unfold checkedCommand at h
  split at h
  case isTrue hzero =>
    cases h
    have hop' : BitVec.ofNat 8 op = f.op := by rw [← hop, BitVec.ofNat_toNat, BitVec.setWidth_eq]
    exact ⟨hi.1, by rw [hi.2, hop', usedFields_of_unusedAreZero hzero]⟩
  case isFalse => cases h

theorem encodeFields_of_decodeFields {f : Fields} {i : Instr} (h : decodeFields f = .ok i) :
    WellFormed i ∧ encodeFields i = f := by
  have hfits (x : BitVec 16) : fitsField x.toNat = true := decide_eq_true x.isLt
  unfold decodeFields at h
  split at h
  case h_18 => cases h
  all_goals
    rename_i hop
    refine encodeFields_of_checkedCommand hop h ?_
    simp [WellFormed, wellFormed, hfits, encodeFields, plainFields, usedFields, bitOfArm_armOfBit,
      ite_eq_one_bit]

/-- An accepted word is the encoding of a well-formed command. -/
theorem encode_of_decode {w : Word} {i : Instr} (h : decode w = .ok i) : WellFormed i ∧ encode i = w := by
  obtain ⟨hwf, henc⟩ := encodeFields_of_decodeFields h
  exact ⟨hwf, by rw [encode, henc, packFields_unpackFields]⟩

/-- Every well-formed command's encoding matches its row of the opcode table. -/
theorem rowMatch : ∀ i : Instr, Laws.RowMatch.Statement i
  | .nop => Laws.RowMatch.nop
  | .clearAll => Laws.RowMatch.clearAll
  | .step => Laws.RowMatch.step
  | .cfgCommit => Laws.RowMatch.cfgCommit
  | .agcUpdate => Laws.RowMatch.agcUpdate
  | .agcClear => Laws.RowMatch.agcClear
  | .ddcUpdate => Laws.RowMatch.ddcUpdate
  | .ddcClear => Laws.RowMatch.ddcClear
  | .firUpdate arm => Laws.RowMatch.firUpdate arm
  | .firClear arm => Laws.RowMatch.firClear arm
  | .firApply arm count src dst => Laws.RowMatch.firApply arm count src dst
  | .pgEval arm => Laws.RowMatch.pgEval arm
  | .idUpdate arm => Laws.RowMatch.idUpdate arm
  | .idClear arm => Laws.RowMatch.idClear arm
  | .idApply count src dst => Laws.RowMatch.idApply count src dst
  | .bsyncUpdate v => Laws.RowMatch.bsyncUpdate v
  | .bsyncClear => Laws.RowMatch.bsyncClear

theorem exists_row_of_decode {w : Word} {i : Instr} (h : decode w = .ok i) :
    ∃ r ∈ opcodeRows, r.Matches w ∧ r.mnemonic = mnemonicOf i := by
  obtain ⟨hwf, rfl⟩ := encode_of_decode h
  exact rowMatch i hwf

end Sys2Proof
end

section
/-! Illegal words and insufficient or overrunning bulk commands (60_exceptions R221, R224, R225). An error sets
its own cause's bit, and issuing a command sets no other error's bit. -/

namespace Sys2Proof.Machine

/-! ### The sticky bits after an error -/

theorem StickyAdds_of_setSticky {c : Cause} {s t : State} (h : t.sticky = setSticky c s.sticky) :
    StickyAdds [c] s t := by
  intro d
  simp [h]

/-- Settles O6: a word that matches no row does not decode, so on an idle block the write to `CMD` raises
`Illegal`. -/
theorem illegalWordSetsOnlyItsError : Obligations.IllegalWordSetsOnlyItsError := by
  unfold Obligations.IllegalWordSetsOnlyItsError
  intro s w rest hmoves hidle hrows
  rw [step_host hmoves, hostAccess_cmdWrite]
  obtain ⟨i, hok, -⟩ | ⟨e, -, hwrite⟩ := writeCmd_cases w { s with moves := rest }
  · obtain ⟨r, hr, hmatch, -⟩ := exists_row_of_decode hok
    exact absurd hmatch (hrows r hr)
  · have hbusy : ({ s with moves := rest } : State).busy = false := by simp [State.busy, hidle]
    rw [hwrite, hbusy]
    exact ⟨_, rfl, rfl, StickyAdds_of_setSticky rfl⟩

/-! ### Commands rejected by their own checks -/

/-- On an idle block a command that fails a check other than `Cfg` sets that cause's bit and `ERR_CMD`,
whatever the schedule. -/
theorem exec_rejectedWith {i : Instr} {s : State} {r : Rejection} (hidle : s.Idle)
    (hr : commandResult i s = .error r) (hcfg : ∀ f, r ≠ .cfg f) :
    ∃ t, exec i s = .next t ∧ RejectedWith r.cause (encode i) s t := by
  refine ⟨_, exec_rejected hidle hr, ?frame, StickyAdds_of_setSticky (reject_sticky _ _ _)⟩
  cases r with
  | cfg f => exact absurd rfl (hcfg f)
  | operand => rfl
  | len => rfl
  | range => rfl

/-- Issuing a command leaves an error's bit alone unless the block is busy or the command's own checks raise
that error: accepting sets no bit, and completing sets those of events only (60_exceptions R220, R231). -/
theorem hasSticky_issue_of_not_raised {c : Cause} {i : Instr} {r : Except Rejection Effects} {s : State}
    (herror : c.code ≤ 7) (hbusy : c ≠ .busy ∨ s.Idle) (hr : ∀ e, r = .error e → c ≠ e.cause) :
    hasSticky c (issue i r s).sticky = hasSticky c s.sticky := by
  obtain ⟨p, hp, h⟩ | ⟨-, e, he, h⟩ | ⟨-, -, e, -, h⟩ | ⟨-, -, e, -, h⟩ := issue_cases i r s
  case inl =>
    have hc : c ≠ .busy := hbusy.resolve_right (by simp [State.Idle, hp])
    simp [h, hc]
  case inr.inl => simp [h, hr e he]
  case inr.inr.inl =>
    have hevent (d : Cause) (hd : 7 < d.code) : c ≠ d := by rintro rfl; omega
    simp [h, hasSticky_completionSticky, hevent .agcDegen (by decide), hevent .bitReady (by decide),
      hevent .cmdDone (by decide)]
  case inr.inr.inr => simp [h]

/-- `FIR_APPLY` yields one output for each of its `M` inputs (43_fir R163). -/
theorem commandResult_firApply (arm : Arm) (count src dst : Nat) (s : State) :
    commandResult (.firApply arm count src dst) s = withBulk s count src dst count
      fun ins => quiet (firApplied s.params arm dst s.block ins) := rfl

/-- `ID_APPLY` yields `floor(M / L)` outputs (45_intdump R183). -/
theorem commandResult_idApply (count src dst : Nat) (s : State) :
    commandResult (.idApply count src dst) s =
      withBulk s count src dst (count / s.block.active.regs.l.toNat)
        fun ins => quiet (idApplied count dst s.block ins) := rfl

theorem withBulk_ne_len {s : State} {count src dst outputs : Nat} {f : List Word → Effects}
    (h : 1 ≤ outputs) : withBulk s count src dst outputs f ≠ .error .len := by
  obtain ⟨h0, -⟩ | hr | hr | ⟨-, -, -, -, hr⟩ := withBulk_cases s count src dst outputs f
  · omega
  all_goals simp [hr]

/-- Settles O32: `Len` is the check that the command yields an output, which `ID_APPLY` does from `M = L` on.
-/
theorem insufficientLengthRejected : Obligations.InsufficientLengthRejected := by
  unfold Obligations.InsufficientLengthRejected
  intro s arm count src dst hidle hl
  refine ⟨?firApply, fun hshort => ?idApplyShort, fun henough => ?idApplyEnough⟩
  case firApply =>
    refine exec_rejectedWith (r := .len) hidle ?_ (by simp)
    rw [commandResult_firApply, withBulk_len]
  case idApplyShort =>
    refine exec_rejectedWith (r := .len) hidle ?_ (by simp)
    rw [commandResult_idApply, Nat.div_eq_of_lt hshort, withBulk_len]
  case idApplyEnough =>
    refine ⟨_, exec_eq_issue _ _, hasSticky_issue_of_not_raised (by decide) (.inr hidle) fun e he hcause => ?_⟩
    obtain rfl : e = .len := by cases e <;> simp_all [Rejection.cause]
    rw [commandResult_idApply] at he
    exact withBulk_ne_len (Nat.div_pos henough hl) he

/-- Settles O33: the length is sufficient, so the range check decides. -/
theorem bufferOverrunRejected : Obligations.BufferOverrunRejected := by
  unfold Obligations.BufferOverrunRejected
  intro s arm count src dst hidle l
  refine ⟨fun hcount hover => ?firApply, fun hl hcount hover => ?idApply⟩
  case firApply =>
    refine exec_rejectedWith (r := .range) hidle ?_ (by simp)
    rw [commandResult_firApply, withBulk_range hcount hover]
  case idApply =>
    refine exec_rejectedWith (r := .range) hidle ?_ (by simp)
    rw [commandResult_idApply, withBulk_range (Nat.div_pos hcount hl) hover]

end Sys2Proof.Machine
end

section
/-! Illegal and busy accesses (60_exceptions R226, R227). `locate` finds a location at exactly the mapped
offsets, and a writable one at exactly the writable ones, so `legalTarget` is the legality of R227. -/

namespace Sys2Proof.Machine

/-! ### Where a location stands (10_state R23) -/

/-- The offsets of the fixed part of the register map. -/
abbrev fixedOffset (o : Nat) : Prop :=
  o % 8 = 0 ∧ (o ≤ 0x048 ∨ (0x080 ≤ o ∧ o ≤ 0x0C0) ∨ (0x100 ≤ o ∧ o ≤ 0x140) ∨ (0x180 ≤ o ∧ o ≤ 0x1C8) ∨
    (0x200 ≤ o ∧ o ≤ 0x250))

theorem mem_registerMap_of_lookup {o : Nat} {l : Loc} (h : registerMap.lookup o = some l) :
    (o, l) ∈ registerMap := by
  obtain ⟨before, after, hmap, -⟩ := List.lookup_eq_some_iff.1 h
  simp [hmap]

theorem registerMap_fixedOffset : ∀ e ∈ registerMap, fixedOffset e.1 := by decide

/-- The writable locations of the fixed part: `CMD` to `DIN1` and `CFG_*`. -/
theorem registerMap_writable_iff : ∀ e ∈ registerMap,
    writable e.2 = true ↔ (0x010 ≤ e.1 ∧ e.1 ≤ 0x030) ∨ (0x080 ≤ e.1 ∧ e.1 ≤ 0x0C0) := by decide

/-- `CMD`, `STATUS` and `IRQ_EN`, which a write while busy treats apart, stand once each. -/
theorem registerMap_offset_of_cmd_status_irqEn : ∀ e ∈ registerMap,
    (e.2 = .cmd → e.1 = 0x010) ∧ (e.2 = .status → e.1 = 0x018) ∧ (e.2 = .irqEn → e.1 = 0x020) := by decide

theorem exists_lookup_of_fixedOffset {o : Nat} (h : fixedOffset o) : ∃ l, registerMap.lookup o = some l := by
  have hall : ∀ k < 75, fixedOffset (8 * k) → (registerMap.lookup (8 * k)).isSome = true := by decide
  have hk : 8 * (o / 8) = o := by omega
  have hsome := hall (o / 8) (by omega) (hk.symm ▸ h)
  rw [hk] at hsome
  exact Option.isSome_iff_exists.1 hsome

theorem windowIndex_eq_some {base n o k : Nat} (hbase : base % 8 = 0) (ho : o % 8 = 0)
    (h : windowIndex base n o = some k) : k < n ∧ o = base + 8 * k := by
  unfold windowIndex at h
  split at h
  case isTrue => cases h; omega
  case isFalse => cases h

/-- Everything `locate` can find: a location of the fixed part, or an entry of one of the three windows. -/
theorem locate_cases {p : Params} {o : Nat} {l : Loc} (h : locate p o = some l) :
    (o, l) ∈ registerMap ∨ (∃ k < p.nTapsMax, o = 0x1000 + 8 * k ∧ l = .tapStage k) ∨
      (∃ k < p.nTapsMax, o = 0x2000 + 8 * k ∧ l = .tapAct k) ∨
      (∃ i < p.bufDepth, o = bufOffset i ∧ l = .buf i) := by
  unfold locate at h
  split at h
  case isFalse => cases h
  case isTrue ho =>
  split at h
  next hl => cases h; exact .inl (mem_registerMap_of_lookup hl)
  next =>
  split at h
  next hk =>
    obtain ⟨hlt, rfl⟩ := windowIndex_eq_some (by decide) ho hk
    cases h
    exact .inr (.inl ⟨_, hlt, rfl, rfl⟩)
  next =>
  split at h
  next hk =>
    obtain ⟨hlt, rfl⟩ := windowIndex_eq_some (by decide) ho hk
    cases h
    exact .inr (.inr (.inl ⟨_, hlt, rfl, rfl⟩))
  next =>
    obtain ⟨i, hi, rfl⟩ := Option.map_eq_some_iff.1 h
    obtain ⟨hlt, rfl⟩ := windowIndex_eq_some (by decide) ho hi
    exact .inr (.inr (.inr ⟨i, hlt, rfl, rfl⟩))

theorem mappedOffset_of_locate {p : Params} {o : Nat} {l : Loc} (h : locate p o = some l) :
    mappedOffset p o := by
  obtain he | ⟨k, hk, rfl, -⟩ | ⟨k, hk, rfl, -⟩ | ⟨i, hi, rfl, -⟩ := locate_cases h
  case inl =>
    have hfixed : fixedOffset o := registerMap_fixedOffset _ he
    omega
  case inr.inr.inr => simp only [bufOffset]; omega
  all_goals omega

theorem exists_locate_of_mappedOffset {p : Params} (hp : p.Legal) {o : Nat} (h : mappedOffset p o) :
    ∃ l, locate p o = some l := by
  by_cases hfixed : fixedOffset o
  · obtain ⟨l, hl⟩ := exists_lookup_of_fixedOffset hfixed
    exact ⟨l, locate_of_registerMap h.1 hl⟩
  · obtain ⟨halign, hrange⟩ := h
    have hwindow : (0x1000 ≤ o ∧ o < 0x1000 + 8 * p.nTapsMax) ∨ (0x2000 ≤ o ∧ o < 0x2000 + 8 * p.nTapsMax) ∨
        (0x10000 ≤ o ∧ o < 0x10000 + 8 * p.bufDepth) := by omega
    obtain hstage | hact | hbuf := hwindow
    · obtain ⟨k, rfl⟩ : ∃ k, o = 0x1000 + 8 * k := ⟨(o - 0x1000) / 8, by omega⟩
      exact ⟨_, locate_tapStage (by omega)⟩
    · obtain ⟨k, rfl⟩ : ∃ k, o = 0x2000 + 8 * k := ⟨(o - 0x2000) / 8, by omega⟩
      exact ⟨_, locate_tapAct hp (by omega)⟩
    · obtain ⟨i, rfl⟩ : ∃ i, o = 0x10000 + 8 * i := ⟨(o - 0x10000) / 8, by omega⟩
      exact ⟨_, locate_buf hp (by omega)⟩

/-- `locate` finds a location at exactly the mapped offsets. -/
theorem exists_locate_iff {p : Params} (hp : p.Legal) {o : Nat} :
    (∃ l, locate p o = some l) ↔ mappedOffset p o :=
  ⟨fun ⟨_, h⟩ => mappedOffset_of_locate h, exists_locate_of_mappedOffset hp⟩

/-- The location at an offset is writable exactly at the writable offsets. -/
theorem writable_iff_of_locate {p : Params} (hp : p.Legal) {o : Nat} {l : Loc} (h : locate p o = some l) :
    writable l = true ↔ writableOffset p o := by
  have hmapped := mappedOffset_of_locate h
  have htaps : p.nTapsMax ≤ 512 := hp.2.1.2
  rw [writableOffset, and_iff_right hmapped]
  obtain he | ⟨k, hk, rfl, rfl⟩ | ⟨k, hk, rfl, rfl⟩ | ⟨i, hi, rfl, rfl⟩ := locate_cases h
  case inl =>
    have hfixed : fixedOffset o := registerMap_fixedOffset _ he
    rw [registerMap_writable_iff _ he]
    omega
  all_goals simp only [writable, bufOffset]; grind

theorem offset_of_cmd_status_irqEn {p : Params} {o : Nat} {l : Loc} (h : locate p o = some l) :
    (l = .cmd → o = 0x010) ∧ (l = .status → o = 0x018) ∧ (l = .irqEn → o = 0x020) := by
  obtain he | ⟨k, -, -, rfl⟩ | ⟨k, -, -, rfl⟩ | ⟨i, -, -, rfl⟩ := locate_cases h
  case inl => exact registerMap_offset_of_cmd_status_irqEn _ he
  all_goals simp

/-! ### Legal accesses (60_exceptions R227) -/

/-- The legality of an access in the terms of R227: 8 bytes, at a mapped offset, and at a writable one if it
writes. -/
abbrev LegalAccess (p : Params) (a : Access) : Prop :=
  a.size = .b8 ∧ mappedOffset p a.offset.toNat ∧ (a.op = .read ∨ writableOffset p a.offset.toNat)

theorem legalTarget_eq_some_iff {p : Params} (hp : p.Legal) {a : Access} {l : Loc} :
    legalTarget p a = some l ↔
      a.size = .b8 ∧ locate p a.offset.toNat = some l ∧ (a.op = .read ∨ writableOffset p a.offset.toNat) := by
  obtain ⟨op, size, o⟩ := a
  by_cases hsize : size = .b8
  case neg => simp [legalTarget, hsize]
  case pos =>
    cases op with
    | read => simp [legalTarget, hsize]
    | write v =>
      have hwritable (hl : locate p o.toNat = some l) := writable_iff_of_locate hp hl
      simp only [legalTarget, hsize, if_true, Option.filter_eq_some_iff, true_and, reduceCtorEq, false_or]
      exact and_congr_right hwritable

theorem exists_legalTarget_iff {p : Params} (hp : p.Legal) {a : Access} :
    (∃ l, legalTarget p a = some l) ↔ LegalAccess p a := by
  simp only [legalTarget_eq_some_iff hp, exists_and_left, exists_and_right, exists_locate_iff hp]

theorem legalTarget_eq_none_iff {p : Params} (hp : p.Legal) {a : Access} :
    legalTarget p a = none ↔ ¬LegalAccess p a := by
  rw [← exists_legalTarget_iff hp, ← Option.ne_none_iff_exists', not_not]

/-! ### What an access does to the sticky bits -/

@[simp] theorem readLoc_sticky (l : Loc) (s : State) : (readLoc l s).sticky = s.sticky := by
  rw [readLoc_frame]

@[simp] theorem rejectAccess_sticky (a : Access) (s : State) :
    (rejectAccess a s).sticky = setSticky .addr s.sticky := by
  rw [rejectAccess_frame]

theorem rejectAccess_readData (a : Access) (s : State) :
    (rejectAccess a s).readData = if a.op = .read then 0 else s.readData := by
  obtain ⟨op, size, o⟩ := a
  cases op <;> simp [rejectAccess]

theorem Access.info_eq (a : Access) :
    a.info = { write := decide (a.op ≠ .read), size := a.size, offset := a.offset } := by
  obtain ⟨op, size, o⟩ := a
  cases op <;> simp [Access.info]

/-- A store sets no bit: a write to `STATUS` clears some (10_state R25), any other store leaves them. -/
theorem hasSticky_storeLoc {c : Cause} {l : Loc} {v : Word} {s : State} (h : hasSticky c s.sticky = false) :
    hasSticky c (storeLoc l v s).sticky = false := by
  cases l
  case status => simp [storeLoc, hasSticky_ackSticky, h]
  all_goals exact h

/-- A write to `CMD` raises no `Addr`. -/
theorem hasSticky_addr_writeCmd {w : Word} {s t : State} (h : writeCmd w s = .next t) :
    hasSticky .addr t.sticky = hasSticky .addr s.sticky := by
  obtain ⟨i, -, hi⟩ | ⟨e, -, he⟩ := writeCmd_cases w s
  · rw [hi] at h
    cases h
    exact hasSticky_issue_of_not_raised (by decide) (.inl (by decide)) fun e _ => by cases e <;> simp [Rejection.cause]
  · rw [he] at h
    cases h
    cases s.busy <;> simp

/-- A legal access raises no `Addr`. -/
theorem hasSticky_addr_hostAccess {a : Access} {s t : State} {l : Loc} (hl : legalTarget s.params a = some l)
    (h : hostAccess a s = .next t) (hs : hasSticky .addr s.sticky = false) :
    hasSticky .addr t.sticky = false := by
  obtain ⟨hnone, -⟩ | ⟨l, -, -, hr⟩ | ⟨v, -, -, hr⟩ | ⟨l, v, p, -, -, -, -, -, hr⟩ | ⟨l, v, -, -, -, -, hr⟩ :=
    hostAccess_cases a s
  case inl => simp [hl] at hnone
  case inr.inl => cases hr.symm.trans h; simpa using hs
  case inr.inr.inl => rw [hasSticky_addr_writeCmd (hr.symm.trans h), hs]
  case inr.inr.inr.inl => cases hr.symm.trans h; simp [hs]
  case inr.inr.inr.inr => cases hr.symm.trans h; exact hasSticky_storeLoc hs

/-- Settles O36: the access is legal in the terms of R227 exactly if it has a target, and only one without a
target is rejected with `Addr`. -/
theorem addrRaisedExactlyByIllegalAccesses : Obligations.AddrRaisedExactlyByIllegalAccesses := by
  unfold Obligations.AddrRaisedExactlyByIllegalAccesses
  intro s a rest hp hmoves legal
  rw [step_host hmoves]
  refine ⟨fun hillegal => ?illegal, fun hlegal => ?legal⟩
  case illegal =>
    refine ⟨_, hostAccess_rejected ((legalTarget_eq_none_iff hp).2 hillegal), ?_,
      StickyAdds_of_setSticky (rejectAccess_sticky _ _), rejectAccess_readData _ _⟩
    rw [← Access.info_eq, rejectAccess_frame]
  case legal =>
    obtain ⟨l, hl⟩ := (exists_legalTarget_iff hp).2 hlegal
    obtain ⟨t, ht⟩ := hostAccess_next a { s with moves := rest }
    exact ⟨t, ht, hasSticky_addr_hostAccess (s := { s with moves := rest }) hl ht⟩

/-! ### Accesses while a command is pending (20_memory R79, 60_exceptions R226) -/

/-- A word written to `CMD` while busy is recorded whether or not it decodes: an accepted word is the encoding
of its command. -/
theorem writeCmd_busy {w : Word} {s : State} {p : Pending} (h : s.pending = some p) :
    writeCmd w s = .next (raise .busy (.command w) s) := by
  obtain ⟨i, hdecode, hi⟩ | ⟨e, -, he⟩ := writeCmd_cases w s
  · rw [hi, issue_busy h, (encode_of_decode hdecode).2]
  · rw [he]
    simp [State.busy, h]

/-- Writes to locations other than `STATUS` and `IRQ_EN` take no effect while busy. -/
theorem writableWhileBusy_eq_false {l : Loc} (hstatus : l ≠ .status) (hirqEn : l ≠ .irqEn) :
    writableWhileBusy l = false := by
  cases l
  case status => exact absurd rfl hstatus
  case irqEn => exact absurd rfl hirqEn
  all_goals rfl

/-- A read of any size, legal or not, leaves `ERR_BUSY` alone. -/
theorem hostAccess_read_hasSticky_busy {size : AccessSize} {o : Offset} {s : State} :
    ∃ t, hostAccess { op := .read, size := size, offset := o } s = .next t ∧
      hasSticky .busy t.sticky = hasSticky .busy s.sticky := by
  cases ht : legalTarget s.params { op := .read, size := size, offset := o } with
  | none => exact ⟨_, hostAccess_rejected ht, by simp⟩
  | some l => exact ⟨_, hostAccess_read ht rfl, by simp⟩

theorem hostAccess_write_of_writableWhileBusy {o : Offset} {v : Word} {s : State} {l : Loc}
    (hl : registerMap.lookup o.toNat = some l) (halign : o.toNat % 8 = 0) (hw : writable l = true)
    (hbusy : writableWhileBusy l = true) :
    hostAccess (writeAccess o v) s = .next (storeLoc l v s) := by
  have htarget : legalTarget s.params (writeAccess o v) = some l := by
    simp [legalTarget, writeAccess, locate_of_registerMap halign hl, hw]
  have hcmd : l ≠ .cmd := by rintro rfl; cases hbusy
  rw [hostAccess_write htarget rfl, writeLoc_store hcmd (.inr hbusy)]

theorem hostAccess_busy_discarded {o : Offset} {v : Word} {s : State} {p : Pending} (hp : s.params.Legal)
    (hpending : s.pending = some p) (hw : writableOffset s.params o.toNat) (hcmd : o ≠ 0x010)
    (hstatus : o ≠ 0x018) (hirqEn : o ≠ 0x020) :
    hostAccess (writeAccess o v) s =
      .next (raise .busy (.access { write := true, size := .b8, offset := o }) s) := by
  obtain ⟨l, hl⟩ := exists_locate_of_mappedOffset hp hw.1
  obtain ⟨atCmd, atStatus, atIrqEn⟩ := offset_of_cmd_status_irqEn hl
  have htarget : legalTarget s.params (writeAccess o v) = some l :=
    (legalTarget_eq_some_iff hp).2 ⟨rfl, hl, .inr hw⟩
  have hdiscard : writableWhileBusy l = false := writableWhileBusy_eq_false
    (fun h => hstatus (BitVec.eq_of_toNat_eq (atStatus h)))
    (fun h => hirqEn (BitVec.eq_of_toNat_eq (atIrqEn h)))
  rw [hostAccess_write htarget rfl,
    writeLoc_busy (fun h => hcmd (BitVec.eq_of_toNat_eq (atCmd h))) hpending hdiscard]
  rfl

/-- Settles O7: a write to `CMD` is turned away with its word recorded, one to `STATUS` or `IRQ_EN` is stored,
and every other writable location turns the write away with the access recorded. -/
theorem busyTurnsWritesAway : Obligations.BusyTurnsWritesAway := by
  unfold Obligations.BusyTurnsWritesAway
  intro s p o rest hp hpending
  refine ⟨fun v hmoves hw => ?write, fun size hmoves => ?read⟩
  case read =>
    rw [step_host hmoves]
    exact hostAccess_read_hasSticky_busy
  case write =>
    rw [step_host hmoves]
    split_ifs with hcmd hstatus hirqEn
    · subst hcmd
      have hwrite : hostAccess (writeAccess 0x010 v) { s with moves := rest } = _ :=
        (hostAccess_cmdWrite v _).trans (writeCmd_busy hpending)
      exact ⟨_, hwrite, rfl, StickyAdds_of_setSticky rfl⟩
    · subst hstatus
      exact ⟨_, hostAccess_write_of_writableWhileBusy (l := .status) rfl rfl rfl rfl, rfl⟩
    · subst hirqEn
      exact ⟨_, hostAccess_write_of_writableWhileBusy (l := .irqEn) rfl rfl rfl rfl, rfl⟩
    · exact ⟨_, hostAccess_busy_discarded hp hpending hw hcmd hstatus hirqEn, rfl, StickyAdds_of_setSticky rfl⟩

end Sys2Proof.Machine
end

section
/-! The encoder against the decoder and the opcode table (30_encoding R100 to R104). The mask of a row covers
every field that the row's command does not use, so a word that matches the row has the row's fields there. -/

namespace Sys2Proof

/-! ### The encoding of a command decodes to it (30_encoding R100 to R103) -/

/-- The encoder's 16-bit fields hold an operand that fits them. -/
theorem toNat_ofNat_of_fitsField {n : Nat} (h : fitsField n = true) : (BitVec.ofNat 16 n).toNat = n := by
  rw [BitVec.toNat_ofNat, Nat.mod_eq_of_lt (of_decide_eq_true h)]

theorem decodeFields_encodeFields {i : Instr} (h : WellFormed i) : decodeFields (encodeFields i) = .ok i := by
  cases i with
  | firApply arm count src dst =>
    simp only [WellFormed, wellFormed, Bool.and_eq_true] at h
    obtain ⟨⟨hcount, hsrc⟩, hdst⟩ := h
    rw [encodeFields, decodeFields_firApply, armOfBit_bitOfArm, toNat_ofNat_of_fitsField hcount,
      toNat_ofNat_of_fitsField hsrc, toNat_ofNat_of_fitsField hdst]
  | idApply count src dst =>
    simp only [WellFormed, wellFormed, Bool.and_eq_true] at h
    obtain ⟨⟨hcount, hsrc⟩, hdst⟩ := h
    rw [encodeFields, decodeFields_idApply, toNat_ofNat_of_fitsField hcount, toNat_ofNat_of_fitsField hsrc,
      toNat_ofNat_of_fitsField hdst]
  | firUpdate arm | firClear arm | pgEval arm | idUpdate arm | idClear arm => cases arm <;> rfl
  | bsyncUpdate v => cases v <;> rfl
  | nop | clearAll | step | cfgCommit | agcUpdate | agcClear | ddcUpdate | ddcClear | bsyncClear => rfl

/-- Settles O1: the encoding is the packing of the command's fields, which the opcode map reads back. -/
theorem decodeOfEncodeIsIdentity : Obligations.DecodeOfEncodeIsIdentity := by
  unfold Obligations.DecodeOfEncodeIsIdentity
  intro i hwf
  rw [encode, decode_packFields, decodeFields_encodeFields hwf]

/-- Settles O2. -/
theorem acceptedWordIsItsEncoding : Obligations.AcceptedWordIsItsEncoding := by
  unfold Obligations.AcceptedWordIsItsEncoding
  exact fun _ _ => encode_of_decode

/-! ### A word that matches a row decodes to the row's command (30_encoding R103) -/

/-- Where the mask of a row is all ones, a word that matches the row has the row's bits. -/
theorem extractLsb'_of_matches {r : OpcodeRow} {w : Word} (h : r.Matches w) {start len : Nat}
    (hmask : r.mask.extractLsb' start len = BitVec.allOnes len) :
    w.extractLsb' start len = r.bits.extractLsb' start len := by
  rw [← show w &&& r.mask = r.bits from h, BitVec.extractLsb'_and, hmask, BitVec.and_allOnes]

/-- The bits of a row in a field that its command does not use: masked, and 0 (30_encoding R101). -/
abbrev OpcodeRow.FixedZero (r : OpcodeRow) (start len : Nat) : Prop :=
  r.mask.extractLsb' start len = BitVec.allOnes len ∧ r.bits.extractLsb' start len = 0

/-- The mask of the row covers the opcode, `RSV`, and each of `ARM`, `V` and the bulk fields that the row's
command does not use. -/
abbrev OpcodeRow.Covers (r : OpcodeRow) (usesArm usesV usesBulk : Bool) : Prop :=
  r.mask.extractLsb' 0 8 = BitVec.allOnes 8 ∧ r.FixedZero 10 6 ∧
  (usesArm = true ∨ r.FixedZero 8 1) ∧ (usesV = true ∨ r.FixedZero 9 1) ∧
  (usesBulk = true ∨ r.FixedZero 16 16 ∧ r.FixedZero 32 16 ∧ r.FixedZero 48 16)

theorem unusedAreZero_of_matches {r : OpcodeRow} {w : Word} {usesArm usesV usesBulk : Bool}
    (h : r.Matches w) (hr : r.Covers usesArm usesV usesBulk) :
    unusedAreZero usesArm usesV usesBulk (unpackFields w) = true := by
  have hzero {start len : Nat} (hf : r.FixedZero start len) : w.extractLsb' start len = 0 :=
    (extractLsb'_of_matches h hf.1).trans hf.2
  obtain ⟨-, hrsv, harm, hv, hbulk⟩ := hr
  simp only [unusedAreZero, unpackFields, Bool.and_eq_true, Bool.or_eq_true, beq_iff_eq]
  exact ⟨⟨⟨hzero hrsv, harm.imp_right hzero⟩, hv.imp_right hzero⟩,
    hbulk.imp_right fun ⟨hcount, hsrc, hdst⟩ => ⟨⟨hzero hcount, hzero hsrc⟩, hzero hdst⟩⟩

/-- A word that matches a row decodes to the command that the opcode map has for the row's opcode. -/
theorem exists_decode_of_matches {r : OpcodeRow} {w : Word} {usesArm usesV usesBulk : Bool}
    (h : r.Matches w) (command : Fields → Instr) (hr : r.Covers usesArm usesV usesBulk)
    (hmap : ∀ f, f.op = r.bits.extractLsb' 0 8 →
      decodeFields f = checkedCommand usesArm usesV usesBulk f (command f))
    (hname : ∀ f, mnemonicOf (command f) = r.mnemonic) :
    ∃ i, decode w = .ok i ∧ mnemonicOf i = r.mnemonic := by
  refine ⟨command (unpackFields w), ?_, hname _⟩
  rw [decode, hmap _ (extractLsb'_of_matches h hr.1), checkedCommand,
    if_pos (unusedAreZero_of_matches h hr)]

theorem exists_decode_of_opcodeRow {r : OpcodeRow} (hr : r ∈ opcodeRows) {w : Word} (h : r.Matches w) :
    ∃ i, decode w = .ok i ∧ mnemonicOf i = r.mnemonic := by
  simp only [opcodeRows, List.mem_cons, List.not_mem_nil, or_false] at hr
  rcases hr with
    rfl | rfl | rfl | rfl | rfl | rfl | rfl | rfl | rfl | rfl | rfl | rfl | rfl | rfl | rfl | rfl | rfl
  all_goals
    apply exists_decode_of_matches h
    case hmap => intro f hop; rw [decodeFields, hop]; rfl
    case hr => decide
    case hname => exact fun _ => rfl

/-- Rows that match the same word have the same opcode, and no two rows of the table do. -/
theorem opcodeRow_eq_of_matches {r r' : OpcodeRow} (hr : r ∈ opcodeRows) (hr' : r' ∈ opcodeRows) {w : Word}
    (h : r.Matches w) (h' : r'.Matches w) : r = r' := by
  have hmask : ∀ r ∈ opcodeRows, r.mask.extractLsb' 0 8 = BitVec.allOnes 8 := by decide
  have hdistinct : ∀ r ∈ opcodeRows, ∀ r' ∈ opcodeRows,
      r.bits.extractLsb' 0 8 = r'.bits.extractLsb' 0 8 → r = r' := by decide
  refine hdistinct r hr r' hr' ?_
  rw [← extractLsb'_of_matches h (hmask r hr), extractLsb'_of_matches h' (hmask r' hr')]

/-- Settles O3: an accepted word is its command's encoding, which matches the command's row; a word that
matches a row has the opcode of the row and zeros where its command reads nothing. -/
theorem decoderFollowsOpcodeTable : Obligations.DecoderFollowsOpcodeTable := by
  unfold Obligations.DecoderFollowsOpcodeTable
  exact ⟨fun _ _ => exists_row_of_decode, fun _ _ hr hmatch => exists_decode_of_opcodeRow hr hmatch,
    fun _ _ hr _ hr' h h' => opcodeRow_eq_of_matches hr hr' h h'⟩

end Sys2Proof
end

section
/-! The checks of `CFG_COMMIT` (47_core R202) and the two ways it answers: `CFG_FAULT` has one bit for each
illegal field (10_state R40), and a configuration with none becomes active. -/

namespace Sys2Proof.Machine

/-! ### `CFG_FAULT` bit by bit (10_state R40) -/

theorem getLsbD_faultBit {j : Nat} (hj : j < 9) (legal : Bool) (k : Nat) :
    (faultBit j legal).getLsbD k = true ↔ k = j ∧ legal = false := by
  cases legal with
  | true => simp [faultBit]
  | false =>
    simp only [faultBit, BitVec.getLsbD_shiftLeft, BitVec.getLsbD_one, Bool.false_eq_true, if_false,
      Bool.and_eq_true, Bool.not_eq_true', decide_eq_true_eq, decide_eq_false_iff_not, and_true]
    omega

/-- The field that bit `k` of `CFG_FAULT` stands for is illegal (10_state R40, 47_core R202). -/
def IllegalField (p : Params) (c : CfgCopy) (k : Nat) : Prop :=
  let r := c.regs
  let nLegal : Prop := 1 ≤ r.n.toNat ∧ r.n.toNat ≤ p.nTapsMax
  (k = 0 ∧ ¬(2 ≤ r.w.toNat ∧ r.w.toNat ≤ 53)) ∨ (k = 1 ∧ r.g = 0) ∨ (k = 2 ∧ r.pgCast = 3) ∨
  (k = 3 ∧ ¬(2 ≤ r.k.toNat ∧ r.k.toNat ≤ p.agcLenMax)) ∨
  (k = 4 ∧ ¬(isfinite r.nsigma = true ∧ fle 0x3BF0000000000000 r.nsigma = true ∧
    fle r.nsigma 0x43F0000000000000 = true)) ∨
  (k = 5 ∧ ¬nLegal) ∨
  (k = 6 ∧ nLegal ∧ ∃ j x, j < r.n.toNat ∧ c.taps[j]? = some x ∧ admissible x = false) ∨
  (k = 7 ∧ ¬(1 ≤ r.l.toNat ∧ r.l.toNat ≤ p.idLenMax)) ∨ (k = 8 ∧ r.s = 0)

theorem nsigmaLegal_eq_false_iff (x : Word) :
    nsigmaLegal x = false ↔ ¬(isfinite x = true ∧ fle 0x3BF0000000000000 x = true ∧
      fle x 0x43F0000000000000 = true) := by
  rw [nsigmaLegal, Bool.eq_false_iff, ne_eq, Bool.and_eq_true, Bool.and_eq_true, and_assoc]
  rfl

theorem tapCountLegal_eq_true_iff (p : Params) (r : CfgRegs) :
    tapCountLegal p r = true ↔ 1 ≤ r.n.toNat ∧ r.n.toNat ≤ p.nTapsMax := decide_eq_true_iff

/-- Some of the first `n` taps is not admissible. -/
theorem all_take_eq_false_iff (taps : List Word) (n : Nat) :
    (taps.take n).all admissible = false ↔
      ∃ j x, j < n ∧ taps[j]? = some x ∧ admissible x = false := by
  simp only [List.all_eq_false, List.mem_iff_getElem?, Bool.not_eq_true]
  constructor
  · rintro ⟨x, ⟨j, hj⟩, hx⟩
    rw [List.getElem?_take] at hj
    split at hj
    case isTrue hlt => exact ⟨j, x, hlt, hj, hx⟩
    case isFalse => cases hj
  · rintro ⟨j, x, hlt, hj, hx⟩
    exact ⟨x, ⟨j, by rwa [List.getElem?_take_of_lt hlt]⟩, hx⟩

theorem getLsbD_configFault (p : Params) (c : CfgCopy) (k : Nat) :
    (configFault p c).getLsbD k = true ↔ IllegalField p c k := by
  have htaps : (!tapCountLegal p c.regs || (c.taps.take c.regs.n.toNat).all admissible) = false ↔
      (1 ≤ c.regs.n.toNat ∧ c.regs.n.toNat ≤ p.nTapsMax) ∧
        ∃ j x, j < c.regs.n.toNat ∧ c.taps[j]? = some x ∧ admissible x = false := by
    rw [Bool.or_eq_false_iff, Bool.not_eq_false', tapCountLegal_eq_true_iff, all_take_eq_false_iff]
  have hn : tapCountLegal p c.regs = false ↔ ¬(1 ≤ c.regs.n.toNat ∧ c.regs.n.toNat ≤ p.nTapsMax) := by
    rw [← tapCountLegal_eq_true_iff, Bool.not_eq_true]
  simp only [configFault, IllegalField, BitVec.getLsbD_or, Bool.or_eq_true, or_assoc]
  simp only [getLsbD_faultBit (show 0 < 9 by decide), getLsbD_faultBit (show 1 < 9 by decide),
    getLsbD_faultBit (show 2 < 9 by decide), getLsbD_faultBit (show 3 < 9 by decide),
    getLsbD_faultBit (show 4 < 9 by decide), getLsbD_faultBit (show 5 < 9 by decide),
    getLsbD_faultBit (show 6 < 9 by decide), getLsbD_faultBit (show 7 < 9 by decide),
    getLsbD_faultBit (show 8 < 9 by decide), htaps, hn, nsigmaLegal_eq_false_iff, decide_eq_false_iff_not,
    bne_eq_false_iff_eq]

theorem configFault_eq_zero_iff (p : Params) (c : CfgCopy) :
    configFault p c = 0 ↔ ∀ k, ¬IllegalField p c k := by
  simp only [← getLsbD_configFault, Bool.not_eq_true]
  exact ⟨fun h k => by rw [h]; simp, fun h => BitVec.eq_of_getLsbD_eq fun k _ => by rw [h k]; simp⟩

/-! ### A legal configuration (47_core R202) -/

/-- Every field of the configuration passes its check. -/
structure CfgCopy.Legal (p : Params) (c : CfgCopy) : Prop where
  w : 2 ≤ c.regs.w.toNat ∧ c.regs.w.toNat ≤ 53
  g : c.regs.g ≠ 0
  pgCast : c.regs.pgCast ≠ 3
  k : 2 ≤ c.regs.k.toNat ∧ c.regs.k.toNat ≤ p.agcLenMax
  nsigma : isfinite c.regs.nsigma = true ∧ fle 0x3BF0000000000000 c.regs.nsigma = true ∧
    fle c.regs.nsigma 0x43F0000000000000 = true
  n : 1 ≤ c.regs.n.toNat ∧ c.regs.n.toNat ≤ p.nTapsMax
  taps : ∀ j x, j < c.regs.n.toNat → c.taps[j]? = some x → admissible x = true
  l : 1 ≤ c.regs.l.toNat ∧ c.regs.l.toNat ≤ p.idLenMax
  s : c.regs.s ≠ 0

theorem configFault_eq_zero_iff_legal (p : Params) (c : CfgCopy) : configFault p c = 0 ↔ c.Legal p := by
  rw [configFault_eq_zero_iff]
  constructor
  · intro h
    have hn : 1 ≤ c.regs.n.toNat ∧ c.regs.n.toNat ≤ p.nTapsMax := by
      by_contra hn
      exact h 5 (by simp [IllegalField, hn])
    constructor
    case w => by_contra hw; exact h 0 (by simp [IllegalField, hw])
    case g => intro hg; exact h 1 (by simp [IllegalField, hg])
    case pgCast => intro hc; exact h 2 (by simp [IllegalField, hc])
    case k => by_contra hk; exact h 3 (by simp [IllegalField, hk])
    case nsigma => by_contra hs; exact h 4 (.inr (.inr (.inr (.inr (.inl ⟨rfl, hs⟩)))))
    case n => exact hn
    case taps =>
      intro j x hj hx
      by_contra hadm
      have hfalse : admissible x = false := by simpa using hadm
      exact h 6 (.inr (.inr (.inr (.inr (.inr (.inr (.inl ⟨rfl, hn, j, x, hj, hx, hfalse⟩)))))))
    case l => by_contra hl; exact h 7 (by simp [IllegalField, hl])
    case s => intro hs; exact h 8 (by simp [IllegalField, hs])
  · rintro h k (⟨-, hw⟩ | ⟨-, hg⟩ | ⟨-, hc⟩ | ⟨-, hk⟩ | ⟨-, hs⟩ | ⟨-, hn⟩ |
      ⟨-, -, j, x, hj, hx, hadm⟩ | ⟨-, hl⟩ | ⟨-, hs⟩)
    · exact hw h.w
    · exact h.g hg
    · exact h.pgCast hc
    · exact hk h.k
    · exact hs h.nsigma
    · exact hn h.n
    · simp [h.taps j x hj hx] at hadm
    · exact hl h.l
    · exact h.s hs

end Sys2Proof.Machine
end

section
/-! The structural invariant (10_state R61). A step puts into the block or into the pending effects a block of
one of five kinds (what a command's pseudocode gives, a new `CFG_FAULT`, a `BUFMEM` entry stored by the host,
the reset block, or a block that the state held before), so an invariant of blocks has one goal for each. -/

namespace Sys2Proof.Machine

/-! ### The effects of accepted commands (70_reset_and_hazards R260) -/

/-- The command passes its own checks on the state, and these are the effects of its pseudocode. -/
inductive Accepted (s : State) : Instr → Effects → Prop where
  | nop : Accepted s .nop (quiet s.block)
  | clearAll : Accepted s .clearAll (quiet (allCleared s.params s.block))
  | step (hx : admissible s.din0 = true) : Accepted s .step (stepped s.block s.din0)
  | cfgCommit (hlegal : configFault s.params s.staged = 0) :
      Accepted s .cfgCommit (quiet (committed s.params s.staged s.block))
  | agcUpdate (hx : admissible s.din0 = true) :
      Accepted s .agcUpdate { block := agcStage s.block s.din0,
                              agcDegen := agcStageDegenerate s.block s.din0, bitReady := false }
  | agcClear : Accepted s .agcClear (quiet (agcCleared s.params s.block))
  | ddcUpdate (hx : admissible s.din0 = true) : Accepted s .ddcUpdate (quiet (ddcStage s.block s.din0))
  | ddcClear : Accepted s .ddcClear (quiet (ddcCleared s.block))
  | firUpdate (arm : Arm) (hx : admissible s.din0 = true) :
      Accepted s (.firUpdate arm) (quiet (firStage arm s.block s.din0))
  | firClear (arm : Arm) : Accepted s (.firClear arm) (quiet (firCleared s.params arm s.block))
  | firApply (arm : Arm) {count src dst : Nat} (hcount : 1 ≤ count) (hsrc : src + count ≤ s.params.bufDepth)
      (hdst : dst + count ≤ s.params.bufDepth) (hins : ∀ x ∈ bulkInputs s src count, admissible x = true) :
      Accepted s (.firApply arm count src dst)
        (quiet (firApplied s.params arm dst s.block (bulkInputs s src count)))
  | pgEval (arm : Arm) (hx : admissible s.din0 = true) :
      Accepted s (.pgEval arm) (quiet (pgStage arm s.block s.din0))
  | idUpdate (arm : Arm) (hx : admissible s.din0 = true) :
      Accepted s (.idUpdate arm) (quiet (idStage arm s.block s.din0))
  | idClear (arm : Arm) : Accepted s (.idClear arm) (quiet (idCleared s.params arm s.block))
  | idApply {count src dst : Nat} (hcount : 1 ≤ count / s.block.active.regs.l.toNat)
      (hsrc : src + count ≤ s.params.bufDepth)
      (hdst : dst + count / s.block.active.regs.l.toNat ≤ s.params.bufDepth)
      (hins : ∀ x ∈ bulkInputs s src count, admissible x = true) :
      Accepted s (.idApply count src dst) (quiet (idApplied count dst s.block (bulkInputs s src count)))
  | bsyncUpdate (v : Bool) (hx : admissible s.din0 = true) (hy : admissible s.din1 = true) :
      Accepted s (.bsyncUpdate v) { block := bsStage s.block s.din0 s.din1 v, agcDegen := false,
                                    bitReady := bsEmits s.block v }
  | bsyncClear : Accepted s .bsyncClear (quiet (bsCleared s.block))

theorem withSample_eq_ok_iff {s : State} {f : Word → Effects} {e : Effects} :
    withSample s f = .ok e ↔ admissible s.din0 = true ∧ f s.din0 = e := by
  cases h : admissible s.din0 with
  | true => simp [withSample_ok h]
  | false => simp [withSample_error h]

theorem withSamplePair_eq_ok_iff {s : State} {f : Word → Word → Effects} {e : Effects} :
    withSamplePair s f = .ok e ↔
      (admissible s.din0 = true ∧ admissible s.din1 = true) ∧ f s.din0 s.din1 = e := by
  unfold withSamplePair
  split <;> simp_all

theorem withBulk_eq_ok_iff {s : State} {count src dst outputs : Nat} {f : List Word → Effects} {e : Effects} :
    withBulk s count src dst outputs f = .ok e ↔
      (1 ≤ outputs ∧ src + count ≤ s.params.bufDepth ∧ dst + outputs ≤ s.params.bufDepth ∧
        ∀ x ∈ bulkInputs s src count, admissible x = true) ∧ f (bulkInputs s src count) = e := by
  constructor
  · intro h
    obtain ⟨-, hr⟩ | hr | hr | ⟨hout, hsrc, hdst, hins, hr⟩ := withBulk_cases s count src dst outputs f
    case inr.inr.inr => cases hr.symm.trans h; exact ⟨⟨hout, hsrc, hdst, hins⟩, rfl⟩
    all_goals cases hr.symm.trans h
  · rintro ⟨⟨hout, hsrc, hdst, hins⟩, rfl⟩
    exact withBulk_ok hout hsrc hdst hins

theorem accepted_of_commandResult {s : State} {i : Instr} {e : Effects} (h : commandResult i s = .ok e) :
    Accepted s i e := by
  cases i <;> rw [commandResult] at h
  case step => obtain ⟨hx, rfl⟩ := withSample_eq_ok_iff.1 h; exact .step hx
  case cfgCommit =>
    split at h
    case isTrue hlegal => cases h; exact .cfgCommit hlegal
    case isFalse => cases h
  case agcUpdate => obtain ⟨hx, rfl⟩ := withSample_eq_ok_iff.1 h; exact .agcUpdate hx
  case ddcUpdate => obtain ⟨hx, rfl⟩ := withSample_eq_ok_iff.1 h; exact .ddcUpdate hx
  case firUpdate arm => obtain ⟨hx, rfl⟩ := withSample_eq_ok_iff.1 h; exact .firUpdate arm hx
  case firApply arm count src dst =>
    obtain ⟨⟨hcount, hsrc, hdst, hins⟩, rfl⟩ := withBulk_eq_ok_iff.1 h
    exact .firApply arm hcount hsrc hdst hins
  case pgEval arm => obtain ⟨hx, rfl⟩ := withSample_eq_ok_iff.1 h; exact .pgEval arm hx
  case idUpdate arm => obtain ⟨hx, rfl⟩ := withSample_eq_ok_iff.1 h; exact .idUpdate arm hx
  case idApply count src dst =>
    obtain ⟨⟨hcount, hsrc, hdst, hins⟩, rfl⟩ := withBulk_eq_ok_iff.1 h
    exact .idApply hcount hsrc hdst hins
  case bsyncUpdate v => obtain ⟨⟨hx, hy⟩, rfl⟩ := withSamplePair_eq_ok_iff.1 h; exact .bsyncUpdate v hx hy
  all_goals cases h; constructor

theorem commandResult_of_accepted {s : State} {i : Instr} {e : Effects} (h : Accepted s i e) :
    commandResult i s = .ok e := by
  cases h <;> rw [commandResult]
  case step hx | agcUpdate hx | ddcUpdate hx | firUpdate arm hx | pgEval arm hx | idUpdate arm hx =>
    rw [withSample_ok hx]
  case cfgCommit hlegal => rw [if_pos hlegal]
  case firApply hcount hsrc hdst hins | idApply hcount hsrc hdst hins => rw [withBulk_ok hcount hsrc hdst hins]
  case bsyncUpdate v hx hy => rw [withSamplePair_ok hx hy]

/-- `Accepted` is what the pseudocode of a command answers when it does not reject. -/
theorem accepted_iff {s : State} {i : Instr} {e : Effects} : Accepted s i e ↔ commandResult i s = .ok e :=
  ⟨commandResult_of_accepted, accepted_of_commandResult⟩

/-! ### The blocks that a step leaves -/

/-- Every block that the state holds, now or in the effects of its pending command, has the property. -/
structure State.Blocks (P : Block → Prop) (s : State) : Prop where
  now : P s.block
  pending : ∀ p, s.pending = some p → P p.effects.block

/-- A property of blocks that a state's commands, host stores and reset give. -/
structure BlockInvariant (P : Block → Prop) (s : State) : Prop where
  command : ∀ i e, commandResult i s = .ok e → P e.block
  cfgFault : ∀ f, P { s.block with cfgFault := f }
  store : ∀ i v, i < s.params.bufDepth → P { s.block with mem := bufWrite s.block.mem i v }
  reset : P (Block.reset s.params)

theorem Blocks_issue {P : Block → Prop} {s : State} (hs : s.Blocks P) (hinv : BlockInvariant P s) (i : Instr) :
    (issue i (commandResult i s) s).Blocks P := by
  obtain ⟨p, -, h⟩ | ⟨hp, e, -, h⟩ | ⟨-, -, e, he, h⟩ | ⟨-, -, e, he, h⟩ := issue_cases i (commandResult i s) s
  case inl => exact h ▸ ⟨by simpa using hs.now, by simpa using hs.pending⟩
  case inr.inl =>
    refine h ▸ ⟨?_, by simp [hp]⟩
    obtain hb | ⟨f, -, hb⟩ := reject_block e (encode i) { s with draws := s.draws + readsOf i }
    · rw [hb]; exact hs.now
    · rw [hb]; exact hinv.cfgFault f
  case inr.inr.inl => exact h ▸ ⟨hinv.command i e he, by simp⟩
  case inr.inr.inr =>
    refine h ▸ ⟨hs.now, fun p hp => ?_⟩
    cases hp
    exact hinv.command i e he

theorem locate_of_legalTarget {p : Params} {a : Access} {l : Loc} (h : legalTarget p a = some l) :
    locate p a.offset.toNat = some l := by
  obtain ⟨op, size, o⟩ := a
  unfold legalTarget at h
  split at h
  case isFalse => cases h
  case isTrue =>
    cases op with
    | read => exact h
    | write v => exact (Option.filter_eq_some_iff.1 h).1

/-- An entry of `BUFMEM` that an access reaches lies within its depth. -/
theorem lt_bufDepth_of_locate {p : Params} {o i : Nat} (h : locate p o = some (.buf i)) : i < p.bufDepth := by
  obtain he | ⟨k, -, -, hl⟩ | ⟨k, -, -, hl⟩ | ⟨j, hj, -, hl⟩ := locate_cases h
  case inl =>
    have hfixed : ∀ e ∈ registerMap, ∀ i, e.2 ≠ .buf i := by simp [registerMap]
    exact absurd rfl (hfixed _ he i)
  case inr.inl => cases hl
  case inr.inr.inl => cases hl
  case inr.inr.inr => cases hl; exact hj

/-- A store changes the block in an entry of `BUFMEM` only. -/
theorem storeLoc_block (l : Loc) (v : Word) (s : State) :
    (storeLoc l v s).block = s.block ∨
      ∃ i, l = .buf i ∧ (storeLoc l v s).block = { s.block with mem := bufWrite s.block.mem i v } := by
  cases l
  case buf i => exact .inr ⟨i, rfl, rfl⟩
  all_goals exact .inl rfl

theorem Blocks_hostAccess {P : Block → Prop} {s t : State} (hs : s.Blocks P) (hinv : BlockInvariant P s)
    {a : Access} (h : hostAccess a s = .next t) : t.Blocks P := by
  obtain ⟨-, hr⟩ | ⟨l, -, -, hr⟩ | ⟨v, -, -, hr⟩ | ⟨l, v, p, -, -, -, -, -, hr⟩ | ⟨l, v, hl, -, -, -, hr⟩ :=
    hostAccess_cases a s
  case inl => cases hr.symm.trans h; rw [rejectAccess_frame]; exact ⟨hs.now, hs.pending⟩
  case inr.inl => cases hr.symm.trans h; rw [readLoc_frame]; exact ⟨hs.now, hs.pending⟩
  case inr.inr.inl =>
    obtain ⟨i, -, hi⟩ | ⟨e, -, he⟩ := writeCmd_cases v s
    · cases (hr.trans hi).symm.trans h; exact Blocks_issue hs hinv i
    · cases (hr.trans he).symm.trans h; exact ⟨by simpa using hs.now, by simpa using hs.pending⟩
  case inr.inr.inr.inl =>
    cases hr.symm.trans h; exact ⟨by simpa using hs.now, by simpa using hs.pending⟩
  case inr.inr.inr.inr =>
    cases hr.symm.trans h
    refine ⟨?_, by simpa [storeLoc_pending] using hs.pending⟩
    obtain hb | ⟨i, rfl, hb⟩ := storeLoc_block l v s
    · rw [hb]; exact hs.now
    · rw [hb]; exact hinv.store i v (lt_bufDepth_of_locate (locate_of_legalTarget hl))

theorem Blocks_blockTurn {P : Block → Prop} {s : State} (hs : s.Blocks P) : (blockTurn s).Blocks P := by
  cases hp : s.pending with
  | none => rwa [blockTurn_of_idle hp]
  | some p => rw [blockTurn_of_pending hp]; exact ⟨hs.pending p hp, by simp⟩

/-- THE INVARIANT RULE: a property of blocks that the four kinds of new blocks have holds after a step of every
block that the state holds. -/
theorem Blocks_step {P : Block → Prop} {s t : State} (hs : s.Blocks P) (hinv : BlockInvariant P s)
    (h : step s = .next t) : t.Blocks P := by
  cases hm : s.moves with
  | nil => cases (step_idle hm).symm.trans h; exact Blocks_blockTurn hs
  | cons m rest =>
    cases m with
    | host a =>
      have hinv' : BlockInvariant P { s with moves := rest } :=
        ⟨fun i e he => hinv.command i e (by simpa using he), hinv.cfgFault, hinv.store, hinv.reset⟩
      exact Blocks_hostAccess (s := { s with moves := rest }) ⟨hs.now, hs.pending⟩ hinv'
        ((step_host hm).symm.trans h)
    | block => cases (step_block hm).symm.trans h; exact Blocks_blockTurn ⟨hs.now, hs.pending⟩
    | reset => cases (step_reset hm).symm.trans h; exact ⟨hinv.reset, by simp⟩

/-! ### The sizes and the staged taps -/

theorem storeLoc_staged_taps_length (l : Loc) (v : Word) (s : State) :
    (storeLoc l v s).staged.taps.length = s.staged.taps.length := by
  cases l
  case tapStage k => exact List.length_set
  all_goals rfl

theorem hostAccess_params_staged {s t : State} {a : Access} (h : hostAccess a s = .next t) :
    t.params = s.params ∧ t.staged.taps.length = s.staged.taps.length := by
  obtain ⟨-, hr⟩ | ⟨l, -, -, hr⟩ | ⟨v, -, -, hr⟩ | ⟨l, v, p, -, -, -, -, -, hr⟩ | ⟨l, v, hl, -, -, -, hr⟩ :=
    hostAccess_cases a s
  case inl => cases hr.symm.trans h; rw [rejectAccess_frame]; exact ⟨rfl, rfl⟩
  case inr.inl => cases hr.symm.trans h; rw [readLoc_frame]; exact ⟨rfl, rfl⟩
  case inr.inr.inl =>
    obtain ⟨i, -, hi⟩ | ⟨e, -, he⟩ := writeCmd_cases v s
    · cases (hr.trans hi).symm.trans h; simp
    · cases (hr.trans he).symm.trans h; simp
  case inr.inr.inr.inl => cases hr.symm.trans h; simp
  case inr.inr.inr.inr =>
    cases hr.symm.trans h
    exact ⟨storeLoc_params l v s, storeLoc_staged_taps_length l v s⟩

@[simp] theorem blockTurn_params (s : State) : (blockTurn s).params = s.params := by
  unfold blockTurn; split <;> rfl

@[simp] theorem blockTurn_staged (s : State) : (blockTurn s).staged = s.staged := by
  unfold blockTurn; split <;> rfl

theorem CfgCopy.reset_taps_length (p : Params) : (CfgCopy.reset p).taps.length = p.nTapsMax := by
  simp [CfgCopy.reset]

/-- A step keeps the sizes and the physical size of the staged tap memory. -/
theorem step_params_staged {s t : State} (htaps : s.staged.taps.length = s.params.nTapsMax)
    (h : step s = .next t) : t.params = s.params ∧ t.staged.taps.length = s.params.nTapsMax := by
  cases hm : s.moves with
  | nil => cases (step_idle hm).symm.trans h; simp [htaps]
  | cons m rest =>
    cases m with
    | host a =>
      obtain ⟨hp, hl⟩ := hostAccess_params_staged ((step_host hm).symm.trans h)
      exact ⟨hp, hl.trans htaps⟩
    | block => cases (step_block hm).symm.trans h; simp [htaps]
    | reset => cases (step_reset hm).symm.trans h; exact ⟨rfl, CfgCopy.reset_taps_length _⟩

end Sys2Proof.Machine
end

section
/-! Every stage, clear and commit keeps the structural invariant of the block (10_state R61), so every step
does. -/

namespace Sys2Proof.Machine

/-! ### `BUFMEM` (20_memory R80 to R82) -/

/-- The part of the structural invariant about `BUFMEM`: canonical, inside its window, whole entries only. -/
structure Memory.Sound (p : Params) (m : Memory) : Prop where
  wf : m.wf
  inside : ∀ a, (byteAt m a).isSome → 0x10000 ≤ a ∧ a < bufOffset p.bufDepth
  whole : ∀ i j, j < 8 → (byteAt m (bufOffset i + j)).isSome → written m i = true

theorem Block.Sound.mem {p : Params} {b : Block} (h : b.Sound p) : Memory.Sound p b.mem :=
  ⟨h.memWf, h.memInside, h.memWhole⟩

theorem Memory.sound_nil (p : Params) : Memory.Sound p [] :=
  ⟨List.Pairwise.nil, fun _ h => absurd h (by simp [byteAt]), fun _ _ _ h => absurd h (by simp [byteAt])⟩

theorem Memory.Sound.bufWriteAll {p : Params} {m : Memory} (h : Memory.Sound p m) {dst : Nat} {vs : List Word}
    (hdst : dst + vs.length ≤ p.bufDepth) : Memory.Sound p (bufWriteAll m dst vs) where
  wf := wf_bufWriteAll h.wf dst vs
  inside a ha := by
    by_cases hin : bufOffset dst ≤ a ∧ a < bufOffset (dst + vs.length)
    · simp only [bufOffset] at hin ⊢
      omega
    · rw [byteAt_bufWriteAll_outside m dst vs a hin] at ha
      exact h.inside a ha
  whole i j hj hb := by
    rw [written_bufWriteAll, Bool.or_eq_true, decide_eq_true_iff]
    by_cases hin : dst ≤ i ∧ i < dst + vs.length
    · exact .inl hin
    · rw [byteAt_bufWriteAll_outside m dst vs _ (by simp only [bufOffset]; omega)] at hb
      exact .inr (h.whole i j hj hb)

/-- The block with another `BUFMEM`. -/
theorem Block.Sound.withMem {p : Params} {b : Block} (h : b.Sound p) {m : Memory} (hm : Memory.Sound p m) :
    ({ b with mem := m } : Block).Sound p :=
  { h with memWf := hm.wf, memInside := hm.inside, memWhole := hm.whole }

/-! ### The stages -/

theorem Block.Sound.legal {p : Params} {b : Block} (h : b.Sound p) : b.active.Legal p :=
  (configFault_eq_zero_iff_legal p b.active).1 h.config

theorem agcPush_pos_lt {c : CfgRegs} {a : Agc} (x : Word) (h : a.pos < c.k.toNat) :
    (agcPush c a x).agc.pos < c.k.toNat := by
  rw [agcPush_pos]
  split <;> omega

theorem agcStage_sound {p : Params} {b : Block} (h : b.Sound p) (x : Word) : (agcStage b x).Sound p :=
  { h with
    agcBuf := by rw [← h.agcBuf]; simp [agcStage]
    agcPos := agcPush_pos_lt x h.agcPos }

theorem ddcStage_sound {p : Params} {b : Block} (h : b.Sound p) (x : Word) : (ddcStage b x).Sound p := { h with }

/-- What holds of both arms' values holds of them after one arm's has been replaced by one it holds of. -/
theorem PerArm.forall_get_set {α : Type} {P : α → Prop} {p : PerArm α} (h : ∀ arm, P (p.get arm)) (arm : Arm)
    {a : α} (ha : P a) (other : Arm) : P ((p.set arm a).get other) := by
  rw [PerArm.get_set]
  split
  · exact ha
  · exact h other

theorem firStage_sound {p : Params} {b : Block} (h : b.Sound p) (arm : Arm) (x : Word) :
    (firStage arm b x).Sound p := by
  obtain ⟨h1, h2⟩ := h.legal.n
  exact { h with
    firBuf := PerArm.forall_get_set (P := (List.length · = p.nTapsMax)) h.firBuf arm
      ((firShift_length x h1 ((h.firBuf arm).symm ▸ h2)).trans (h.firBuf arm)) }

theorem pgStage_sound {p : Params} {b : Block} (h : b.Sound p) (arm : Arm) (v : Word) :
    (pgStage arm b v).Sound p := { h with }

theorem idStage_sound {p : Params} {b : Block} (h : b.Sound p) (arm : Arm) (x : Word) :
    (idStage arm b x).Sound p := by
  obtain ⟨h1, h2⟩ := h.legal.l
  have hlen : (idStep b.active.regs.l.toNat (b.intDump.get arm) x).unit.buf.length = p.idLenMax := by
    rw [idStep_buf, idShift_length x h1 ((h.idBuf arm).symm ▸ h2), h.idBuf arm]
  have hcnt : (idStep b.active.regs.l.toNat (b.intDump.get arm) x).unit.cnt < b.active.regs.l.toNat := by
    rw [idStep_cnt x (h.idCnt arm)]
    exact Nat.mod_lt _ h1
  exact { h with
    idBuf := PerArm.forall_get_set (P := fun u : IntDump => u.buf.length = p.idLenMax) h.idBuf arm hlen
    idCnt := PerArm.forall_get_set (P := fun u : IntDump => u.cnt < b.active.regs.l.toNat) h.idCnt arm hcnt }

theorem decisionCode_ne_two (n : Int) : decisionCode n ≠ 0b10 := by
  unfold decisionCode
  split_ifs <;> decide

theorem bsAdvance_awaitingSettle {u : BitSync} (stride : Nat) (h : u.phase = .awaitingSettle) :
    bsAdvance stride u true =
      { u with dcnt := u.dcnt - 1, phase := if u.dcnt - 1 = 0 then .sampling else .awaitingSettle } := by
  simp [bsAdvance, h]

theorem bsAdvance_sampling {u : BitSync} (stride : Nat) (h : u.phase = .sampling) :
    bsAdvance stride u true = { u with scnt := (u.scnt + 1) % stride } := by
  simp [bsAdvance, h]

theorem zeroBits_ne_two : (0 : BitVec 2) ≠ 0b10 ∧ (0 : BitVec 2) ≠ 0b10 := by decide

theorem bsAdvance_scnt_lt {stride : Nat} {u : BitSync} (v : Bool) (h : u.scnt < stride) :
    (bsAdvance stride u v).scnt < stride := by
  cases v with
  | false => exact h
  | true =>
    cases hphase : u.phase with
    | awaitingSettle => rw [bsAdvance_awaitingSettle stride hphase]; exact h
    | sampling => rw [bsAdvance_sampling stride hphase]; exact Nat.mod_lt _ (by omega)

/-- The delay that stays while settling is never 0: counted down to 0, the phase is `Sampling`. -/
theorem sampling_or_one_le_dcnt (d : BitVec 32) (scnt : Nat) :
    let u : BitSync := { phase := if d = 0 then .sampling else .awaitingSettle, dcnt := d, scnt := scnt }
    u.phase = .sampling ∨ 1 ≤ u.dcnt.toNat := by
  by_cases hd : d = 0
  · exact .inl (if_pos hd)
  · exact .inr (Nat.one_le_iff_ne_zero.2 fun hzero => hd (BitVec.eq_of_toNat_eq hzero))

theorem bsAdvance_dcnt {stride : Nat} {u : BitSync} (v : Bool) (h : u.phase = .sampling ∨ 1 ≤ u.dcnt.toNat) :
    (bsAdvance stride u v).phase = .sampling ∨ 1 ≤ (bsAdvance stride u v).dcnt.toNat := by
  cases v with
  | false => exact h
  | true =>
    cases hphase : u.phase with
    | awaitingSettle => rw [bsAdvance_awaitingSettle stride hphase]; exact sampling_or_one_le_dcnt _ u.scnt
    | sampling => rw [bsAdvance_sampling stride hphase]; exact .inl hphase

theorem bsFlags_bits {emits : Bool} {f : Flags} (x y : Word) (h : f.bitI ≠ 0b10 ∧ f.bitQ ≠ 0b10) :
    (bsFlags emits f x y).bitI ≠ 0b10 ∧ (bsFlags emits f x y).bitQ ≠ 0b10 := by
  cases emits
  · exact h
  · exact ⟨decisionCode_ne_two _, decisionCode_ne_two _⟩

theorem bsStage_sound {p : Params} {b : Block} (h : b.Sound p) (x y : Word) (v : Bool) :
    (bsStage b x y v).Sound p :=
  { h with
    bsScnt := bsAdvance_scnt_lt v h.bsScnt
    bsDcnt := bsAdvance_dcnt v h.bsDcnt
    bits := bsFlags_bits x y h.bits }

theorem pipelineFront_sound {p : Params} {b : Block} (h : b.Sound p) (x : Word) : (pipelineFront b x).Sound p :=
  have hmix := ddcStage_sound (agcStage_sound h x) _
  have hfir := firStage_sound (firStage_sound hmix .i _) .q _
  have hpg := pgStage_sound (pgStage_sound hfir .i _) .q _
  idStage_sound (idStage_sound hpg .i _) .q _

theorem stepped_sound {p : Params} {b : Block} (h : b.Sound p) (x : Word) : (stepped b x).block.Sound p :=
  { bsStage_sound (pipelineFront_sound h x) _ _ _ with }

theorem firApplied_sound {p : Params} {b : Block} (h : b.Sound p) (arm : Arm) {dst : Nat} {ins : List Word}
    (hdst : dst + ins.length ≤ p.bufDepth) : (firApplied p arm dst b ins).Sound p := by
  obtain ⟨h1, h2⟩ := h.legal.n
  have hzeros : (List.replicate p.nTapsMax (0 : Word)).length = p.nTapsMax := List.length_replicate
  have hmem := h.mem.bufWriteAll (vs := firOutputs b.active (List.replicate p.nTapsMax 0) ins)
    (by rwa [firOutputs_length])
  exact { h.withMem hmem with
    firBuf := PerArm.forall_get_set (P := (List.length · = p.nTapsMax)) h.firBuf arm
      ((firHistory_length ins h1 (hzeros.symm ▸ h2)).trans hzeros) }

theorem idApplied_sound {p : Params} {b : Block} (h : b.Sound p) {count dst : Nat} (ins : List Word)
    (hdst : dst + count / b.active.regs.l.toNat ≤ p.bufDepth) : (idApplied count dst b ins).Sound p :=
  h.withMem (h.mem.bufWriteAll (by simpa using hdst))

/-! ### Clears, commit and reset -/

theorem agcCleared_sound {p : Params} {b : Block} (h : b.Sound p) : (agcCleared p b).Sound p :=
  { h with agcBuf := List.length_replicate, agcPos := (Nat.zero_le _).trans_lt h.agcPos }

theorem ddcCleared_sound {p : Params} {b : Block} (h : b.Sound p) : (ddcCleared b).Sound p := { h with }

theorem firCleared_sound {p : Params} {b : Block} (h : b.Sound p) (arm : Arm) : (firCleared p arm b).Sound p :=
  { h with
    firBuf := PerArm.forall_get_set (P := (List.length · = p.nTapsMax)) h.firBuf arm List.length_replicate }

theorem idCleared_sound {p : Params} {b : Block} (h : b.Sound p) (arm : Arm) : (idCleared p arm b).Sound p :=
  { h with
    idBuf := PerArm.forall_get_set (P := fun u : IntDump => u.buf.length = p.idLenMax) h.idBuf arm
      List.length_replicate
    idCnt := PerArm.forall_get_set (P := fun u : IntDump => u.cnt < b.active.regs.l.toNat) h.idCnt arm
      ((Nat.zero_le _).trans_lt (h.idCnt arm)) }

theorem toNat_pos_of_ne_zero {n : Nat} {x : BitVec n} (h : x ≠ 0) : 0 < x.toNat :=
  Nat.pos_of_ne_zero fun hzero => h (BitVec.eq_of_toNat_eq (by simpa using hzero))

theorem bsCleared_sound {p : Params} {b : Block} (h : b.Sound p) : (bsCleared b).Sound p :=
  { h with
    bsScnt := (Nat.zero_le _).trans_lt h.bsScnt
    bsDcnt := sampling_or_one_le_dcnt _ 0
    bits := zeroBits_ne_two }

/-- `CLEAR_ALL` under any legal configuration, whatever the block held. -/
theorem allCleared_sound {p : Params} {b : Block} (hc : b.active.Legal p)
    (ht : b.active.taps.length = p.nTapsMax) (hm : Memory.Sound p b.mem) : (allCleared p b).Sound p where
  config := (configFault_eq_zero_iff_legal p b.active).2 hc
  taps := ht
  agcBuf := List.length_replicate
  agcPos := Nat.zero_lt_two.trans_le hc.k.1
  firBuf arm := by cases arm <;> exact List.length_replicate
  idBuf arm := by cases arm <;> exact List.length_replicate
  idCnt arm := by cases arm <;> exact hc.l.1
  bsScnt := toNat_pos_of_ne_zero hc.s
  bsDcnt := sampling_or_one_le_dcnt _ 0
  memWf := hm.wf
  memInside := hm.inside
  memWhole := hm.whole
  bits := zeroBits_ne_two

theorem committed_sound {p : Params} {c : CfgCopy} {b : Block} (h : b.Sound p) (hc : c.Legal p)
    (ht : c.taps.length = p.nTapsMax) : (committed p c b).Sound p :=
  allCleared_sound (b := { b with cfgFault := 0, active := c }) hc ht h.mem

theorem CfgCopy.reset_legal {p : Params} (hp : p.Legal) : (CfgCopy.reset p).Legal p where
  w := by simp [CfgCopy.reset, CfgRegs.reset]
  g := by simp [CfgCopy.reset, CfgRegs.reset]
  pgCast := by simp [CfgCopy.reset, CfgRegs.reset]
  k := by
    obtain ⟨⟨h2, hmax⟩, -⟩ := hp
    simp only [CfgCopy.reset, CfgRegs.reset, BitVec.toNat_ofNat]
    omega
  nsigma := by
    change isfinite Config.three = true ∧ fle 0x3BF0000000000000 Config.three = true ∧
      fle Config.three 0x43F0000000000000 = true
    decide +kernel
  n := ⟨le_rfl, hp.2.1.1⟩
  taps j x hj hx := by
    obtain rfl : j = 0 := Nat.lt_one_iff.1 hj
    have hone : x = Config.one := by
      have hpos : 0 < p.nTapsMax := hp.2.1.1
      simpa [CfgCopy.reset, hpos, eq_comm] using hx
    rw [hone]
    decide +kernel
  l := ⟨le_rfl, hp.2.2.1.1⟩
  s := by simp [CfgCopy.reset, CfgRegs.reset]

/-- Reset leaves what `CLEAR_ALL` would under the reset configuration. -/
theorem Block.reset_eq_allCleared (p : Params) : Block.reset p = allCleared p (Block.reset p) := rfl

theorem Block.reset_sound {p : Params} (hp : p.Legal) : (Block.reset p).Sound p := by
  rw [Block.reset_eq_allCleared]
  exact allCleared_sound (CfgCopy.reset_legal hp) (CfgCopy.reset_taps_length p) (Memory.sound_nil p)

/-! ### Commands and steps -/

/-- The effects of every accepted command are sound. -/
theorem Accepted.sound {s : State} (hs : s.Sound) {i : Instr} {e : Effects} (h : Accepted s i e) :
    e.block.Sound s.params := by
  have hb := hs.block
  cases h with
  | nop => exact hb
  | clearAll => exact allCleared_sound hb.legal hb.taps hb.mem
  | step => exact stepped_sound hb _
  | cfgCommit hlegal => exact committed_sound hb ((configFault_eq_zero_iff_legal _ _).1 hlegal) hs.taps
  | agcUpdate => exact agcStage_sound hb _
  | agcClear => exact agcCleared_sound hb
  | ddcUpdate => exact ddcStage_sound hb _
  | ddcClear => exact ddcCleared_sound hb
  | firUpdate arm => exact firStage_sound hb arm _
  | firClear arm => exact firCleared_sound hb arm
  | firApply arm _ _ hdst => exact firApplied_sound hb arm (by rwa [bulkInputs_length])
  | pgEval arm => exact pgStage_sound hb arm _
  | idUpdate arm => exact idStage_sound hb arm _
  | idClear arm => exact idCleared_sound hb arm
  | idApply _ _ hdst => exact idApplied_sound hb _ hdst
  | bsyncUpdate v => exact bsStage_sound hb _ _ v
  | bsyncClear => exact bsCleared_sound hb

theorem blockInvariant_sound {s : State} (hs : s.Sound) : BlockInvariant (Block.Sound s.params) s where
  command _ _ h := (accepted_iff.2 h).sound hs
  cfgFault _ := { hs.block with }
  store _ v hi := hs.block.withMem (hs.block.mem.bufWriteAll (vs := [v]) hi)
  reset := Block.reset_sound hs.params

/-- Settles O45: the sizes stay, the staged taps keep their number, and every new block is sound. -/
theorem stepKeepsSoundness : Obligations.StepKeepsSoundness := by
  unfold Obligations.StepKeepsSoundness
  intro s t hs hstep
  obtain ⟨hparams, htaps⟩ := step_params_staged hs.taps hstep
  obtain ⟨hnow, hpending⟩ := Blocks_step ⟨hs.block, hs.pending⟩ (blockInvariant_sound hs) hstep
  exact ⟨hparams.symm ▸ hs.params, hparams.symm ▸ htaps, hparams.symm ▸ hnow, hparams.symm ▸ hpending⟩

end Sys2Proof.Machine
end

section
/-! The rounded sum, product and quotient (40_numerics R121). Each is a sign over `roundUnits` of the exact
magnitude, so one lemma about such a word says that it is nearest to the exact value, ties to even. -/

namespace Sys2Proof.Machine

/-! ### Signs -/

/-- The factor of a sign bit. -/
def signOf (neg : Bool) : Int := if neg then -1 else 1

theorem signOf_bne (a b : Bool) : signOf (a != b) = signOf a * signOf b := by cases a <;> cases b <;> rfl

@[simp] theorem abs_signOf_mul (neg : Bool) (z : Int) : |signOf neg * z| = |z| := by
  cases neg <;> simp [signOf]

@[simp] theorem natAbs_signOf_mul (neg : Bool) (z : Int) : (signOf neg * z).natAbs = z.natAbs := by
  cases neg <;> simp [signOf]

theorem signOf_mul_self (neg : Bool) : signOf neg * signOf neg = 1 := by cases neg <;> rfl

theorem units_eq_signOf (a : Word) : units a = signOf (signBit a) * magUnits a := by
  cases h : signBit a <;> simp [units, signOf, h]

theorem units_packSign (neg : Bool) {m : Nat} (h : m < 2 ^ 63) :
    units (packSign neg m) = signOf neg * unitsOfBits m := by
  rw [units_eq_signOf, signBit_packSign neg h, magUnits_eq, magBits_packSign neg h]

theorem units_eq_zero_iff (a : Word) : units a = 0 ↔ magUnits a = 0 := by
  rw [← natAbs_units, Int.natAbs_eq_zero]

/-! ### A sign over a rounded magnitude -/

/-- The infinity of a sign. -/
theorem packSign_infMag (neg : Bool) :
    packSign neg infMag = if neg then 0xFFF0000000000000 else 0x7FF0000000000000 := by
  cases neg <;> decide

/-- The binary64 of a sign and the nearest magnitude to `n / d` units. -/
def roundSigned (neg : Bool) (n d : Nat) : Word := packSign neg (roundUnits n d)

theorem roundUnits_lt (n d : Nat) : roundUnits n d < 2 ^ 63 := (roundUnits_le_infMag n d).trans_lt infMag_lt

@[simp] theorem signBit_roundSigned (neg : Bool) (n d : Nat) : signBit (roundSigned neg n d) = neg :=
  signBit_packSign neg (roundUnits_lt n d)

@[simp] theorem magBits_roundSigned (neg : Bool) (n d : Nat) :
    magBits (roundSigned neg n d) = roundUnits n d := magBits_packSign neg (roundUnits_lt n d)

theorem isfinite_roundSigned_iff (neg : Bool) (n : Nat) {d : Nat} (hd : 0 < d) :
    isfinite (roundSigned neg n d) = true ↔ n < (((1 <<< 54) - 1) <<< 2044) * d := by
  rw [isfinite_iff, magBits_roundSigned, roundUnits_lt_infMag_iff n hd]

/-- A magnitude that rounds past the largest finite value gives the infinity of its sign. -/
theorem roundSigned_of_not_isfinite {neg : Bool} {n d : Nat} (h : isfinite (roundSigned neg n d) = false) :
    roundSigned neg n d = if neg then 0xFFF0000000000000 else 0x7FF0000000000000 := by
  rw [Bool.eq_false_iff, ne_eq, isfinite_iff, magBits_roundSigned, not_lt] at h
  rw [roundSigned, le_antisymm (roundUnits_le_infMag n d) h, packSign_infMag]

/-- A finite rounding is nearer to the signed exact value than any other finite value, or as near and even. -/
theorem roundSigned_nearest (neg : Bool) (n : Nat) {d : Nat} (hd : 0 < d)
    (hfin : isfinite (roundSigned neg n d) = true) (c : Word) (hc : units c ≠ units (roundSigned neg n d)) :
    |signOf neg * n - d * units (roundSigned neg n d)| < |signOf neg * n - d * units c| ∨
      (|signOf neg * n - d * units (roundSigned neg n d)| = |signOf neg * n - d * units c| ∧
        (roundSigned neg n d).getLsbD 0 = false) := by
  have hlt := (isfinite_iff _).1 hfin
  rw [magBits_roundSigned] at hlt
  have hnear := roundUnits_nearest n hd hlt
  have heven : (roundSigned neg n d).getLsbD 0 = false ↔ roundUnits n d % 2 = 0 := by
    rw [bit0_eq_magBits, magBits_roundSigned, decide_eq_false_iff_not]
    omega
  have hr : units (roundSigned neg n d) = signOf neg * unitsOfBits (roundUnits n d) :=
    units_packSign neg (roundUnits_lt n d)
  have hc' := units_eq_signOf c
  rw [magUnits_eq] at hc'
  have hfactor (v : Int) : |signOf neg * n - d * (signOf neg * v)| = |(n : Int) - d * v| := by
    rw [← abs_signOf_mul neg ((n : Int) - d * v)]
    congr 1
    ring
  rw [heven, hr, hfactor]
  by_cases hsign : signBit c = neg
  · rw [hc', hsign, hfactor]
    exact hnear (magBits c) fun heq => hc (by rw [hc', hr, hsign, heq])
  · have hopp : signOf (signBit c) = signOf neg * (-1) := by
      revert hsign; cases signBit c <;> cases neg <;> simp [signOf]
    have hfar : |signOf neg * n - d * units c| = n + d * unitsOfBits (magBits c) := by
      rw [hc', hopp, mul_assoc, hfactor, neg_one_mul, mul_neg, sub_neg_eq_add]
      exact abs_of_nonneg (by positivity)
    rw [hfar]
    have hpos : 0 ≤ (d : Int) * unitsOfBits (magBits c) := by positivity
    by_cases hzero : unitsOfBits (roundUnits n d) = 0
    · have hne : unitsOfBits (magBits c) ≠ 0 := fun h0 => hc (by rw [hc', hr, h0, hzero]; simp)
      have hstrict : 0 < (d : Int) * unitsOfBits (magBits c) := by positivity
      rw [hzero]
      left
      simpa using hstrict
    · have h0 := hnear 0 (by simpa using fun h => hzero h.symm)
      simp only [unitsOfBits_zero, Nat.cast_zero, mul_zero, sub_zero, Nat.abs_cast] at h0
      omega

/-! ### The sum (O56) -/

theorem fadd_of_isfinite {a b : Word} (ha : isfinite a = true) (hb : isfinite b = true) :
    fadd a b = if units a + units b = 0 then packSign (signBit a && signBit b) 0
      else roundSigned (decide (units a + units b < 0)) (units a + units b).natAbs 1 := by
  unfold fadd
  simp only [not_isNaN_of_isfinite ha, not_isNaN_of_isfinite hb, not_isInf_of_isfinite ha,
    not_isInf_of_isfinite hb, Bool.or_false, Bool.false_eq_true, if_false]
  rfl

theorem signOf_mul_natAbs (z : Int) : signOf (decide (z < 0)) * (z.natAbs : Int) = z := by
  by_cases h : z < 0
  · simp [signOf, h, abs_of_neg h]
  · simp [signOf, h, abs_of_nonneg (not_lt.1 h)]

/-- An exact zero has no finite value but the zeros as near. -/
theorem packSign_zero_facts (neg : Bool) :
    isfinite (packSign neg 0) = true ∧ units (packSign neg 0) = 0 := by
  cases neg <;> decide +kernel

/-- Settles O56: the sum is the rounding of the exact sum, but for an exact zero, whose sign is told apart. -/
theorem additionRoundsToNearestEven : Obligations.AdditionRoundsToNearestEven := by
  unfold Obligations.AdditionRoundsToNearestEven
  intro a b ha hb exact r
  have hr : r = if exact = 0 then packSign (signBit a && signBit b) 0
      else roundSigned (decide (exact < 0)) exact.natAbs 1 := fadd_of_isfinite ha hb
  by_cases hexact : exact = 0
  · rw [if_pos hexact] at hr
    obtain ⟨hfin, hunits⟩ := packSign_zero_facts (signBit a && signBit b)
    rw [← hr] at hfin hunits
    refine ⟨iff_of_true hfin ?_, fun h => ?_, fun _ => ?_, fun _ c _ hc => .inl ?_⟩
    · rw [hexact]
      decide +kernel
    · rw [hfin] at h
      cases h
    · rw [hr]
      cases signBit a <;> cases signBit b <;> decide
    · rw [hunits] at hc ⊢
      simpa [hexact] using hc
  · rw [if_neg hexact] at hr
    have hround := signOf_mul_natAbs exact
    refine ⟨?_, fun h => ?_, fun h => absurd h hexact, fun hfin c _ hc => ?_⟩
    · rw [hr, isfinite_roundSigned_iff _ _ Nat.one_pos, Nat.mul_one]
    · rw [hr] at h ⊢
      rw [roundSigned_of_not_isfinite h]
      simp
    · rw [hr] at hfin hc ⊢
      have hnear := roundSigned_nearest _ _ Nat.one_pos hfin c hc
      rwa [hround, Nat.cast_one, one_mul, one_mul] at hnear

/-! ### The product (O57) -/

theorem fmul_eq_roundSigned {a b : Word} (ha : isfinite a = true) (hb : isfinite b = true) :
    fmul a b = roundSigned (signBit a != signBit b) (magUnits a * magUnits b) oneUnits :=
  fmul_of_isfinite ha hb

theorem units_mul_units (a b : Word) :
    units a * units b = signOf (signBit a != signBit b) * ((magUnits a * magUnits b : Nat) : Int) := by
  rw [units_eq_signOf a, units_eq_signOf b, signOf_bne]
  push_cast
  ring

/-- The infinity of the exclusive or of two signs. -/
theorem infinity_of_bne (x y : Bool) :
    (if (x != y) = true then 0xFFF0000000000000 else 0x7FF0000000000000 : Word) =
      if x = y then 0x7FF0000000000000 else 0xFFF0000000000000 := by
  cases x <;> cases y <;> rfl

/-- Settles O57: the product is the rounding of the exact product under the exclusive or of the signs. -/
theorem multiplicationRoundsToNearestEven : Obligations.MultiplicationRoundsToNearestEven := by
  unfold Obligations.MultiplicationRoundsToNearestEven
  intro a b ha hb exact r
  have hr : r = roundSigned (signBit a != signBit b) (magUnits a * magUnits b) oneUnits :=
    fmul_eq_roundSigned ha hb
  have hexact : exact = signOf (signBit a != signBit b) * ((magUnits a * magUnits b : Nat) : Int) :=
    units_mul_units a b
  refine ⟨?_, ?_, fun h => ?_, fun hfin c _ hc => ?_⟩
  · rw [hr, signBit_roundSigned]
  · rw [hr, hexact, isfinite_roundSigned_iff _ _ oneUnits_pos, natAbs_signOf_mul, Int.natAbs_natCast]
  · rw [hr] at h ⊢
    rw [roundSigned_of_not_isfinite h, infinity_of_bne]
  · rw [hr] at hfin hc ⊢
    rw [hexact]
    exact roundSigned_nearest _ _ oneUnits_pos hfin c hc

/-! ### The quotient (O58) -/

theorem fdiv_of_isfinite {a b : Word} (ha : isfinite a = true) (hb : isfinite b = true) :
    fdiv a b = if magUnits b = 0 then
        (if magUnits a = 0 then nanResult .div a b else packSign (signBit a != signBit b) infMag)
      else roundSigned (signBit a != signBit b) (magUnits a * oneUnits) (magUnits b) := by
  unfold fdiv
  simp only [not_isNaN_of_isfinite ha, not_isNaN_of_isfinite hb, not_isInf_of_isfinite ha,
    not_isInf_of_isfinite hb, Bool.or_false, Bool.false_eq_true, if_false]
  rfl

theorem isNaN_nanResult (op : Config.FloatOp) (a b : Word) : isNaN (nanResult op a b) = true := by
  have hinf : infMag + 2 ^ 52 ≤ 2 ^ 63 := by decide
  have hpos (f : BitVec 52) : 0 < (if f = 0 then 1 else f.toNat) := by
    split_ifs with h
    · exact Nat.one_pos
    · exact toNat_pos_of_ne_zero h
  have hlt (f : BitVec 52) : (if f = 0 then 1 else f.toNat) < 2 ^ 52 := by
    split_ifs
    · decide
    · exact f.isLt
  rw [nanResult, isNaN_iff, magBits_packSign _ ((Nat.add_lt_add_left (hlt _) _).trans_le hinf)]
  exact Nat.lt_add_of_pos_right (hpos _)

/-- The error of a candidate `u` for the quotient, by the magnitudes and the sign. -/
theorem abs_quotient_error (a b : Word) (u : Int) :
    |units a * oneUnits - units b * u| =
      |signOf (signBit a != signBit b) * ((magUnits a * oneUnits : Nat) : Int) - magUnits b * u| := by
  rw [← abs_signOf_mul (signBit b) (signOf (signBit a != signBit b) * _ - _), signOf_bne,
    units_eq_signOf a, units_eq_signOf b]
  congr 1
  have hsq := signOf_mul_self (signBit b)
  push_cast
  linear_combination (-(signOf (signBit a) * magUnits a * oneUnits)) * hsq

/-- Settles O58: the quotient by a nonzero operand is the rounding of the exact quotient under the exclusive or
of the signs. -/
theorem divisionRoundsToNearestEven : Obligations.DivisionRoundsToNearestEven := by
  unfold Obligations.DivisionRoundsToNearestEven
  intro a b ha hb r infinity
  have hr : r = _ := fdiv_of_isfinite ha hb
  simp only [units_eq_zero_iff, ne_eq]
  refine ⟨fun hb0 => ?_, fun hb0 ha0 => ?_, fun hb0 ha0 => ?_⟩
  · rw [if_neg hb0] at hr
    have hd : 0 < magUnits b := Nat.pos_of_ne_zero hb0
    refine ⟨?_, ?_, fun h => ?_, fun hfin c _ hc => ?_⟩
    · rw [hr, signBit_roundSigned]
    · rw [hr, isfinite_roundSigned_iff _ _ hd]
    · rw [hr] at h ⊢
      rw [roundSigned_of_not_isfinite h, infinity_of_bne]
    · rw [hr] at hfin hc ⊢
      rw [abs_quotient_error, abs_quotient_error]
      exact roundSigned_nearest _ _ hd hfin c hc
  · rw [if_pos hb0, if_neg ha0, packSign_infMag, infinity_of_bne] at hr
    exact hr
  · rw [if_pos hb0, if_pos ha0] at hr
    rw [hr]
    exact isNaN_nanResult _ _ _

end Sys2Proof.Machine
end

section
/-! Bounds on computed values (40_numerics R135). Rounding does not carry a magnitude past a representable bound,
so a bound on the operands that makes the exact result representable bounds the result. -/

namespace Sys2Proof.Machine

/-! ### Rounding below a representable bound -/

/-- A magnitude that some finite binary64 has. -/
def Representable (n : Nat) : Prop := ∃ c < infMag, unitsOfBits c = n

/-- The midpoint past the largest finite value, in units. -/
def finiteLimit : Nat := ((1 <<< 54) - 1) <<< 2044

theorem roundUnits_lt_infMag_iff_finiteLimit (n : Nat) {d : Nat} (hd : 0 < d) :
    roundUnits n d < infMag ↔ n < finiteLimit * d := roundUnits_lt_infMag_iff n hd

theorem two_pow_le_finiteLimit {e : Nat} (he : e ≤ 2044) : 2 ^ 53 * 2 ^ e ≤ finiteLimit := by
  have hmax : 2 ^ 53 * 2 ^ 2044 ≤ finiteLimit := by decide +kernel
  generalize 2044 = top at he hmax
  exact (Nat.mul_le_mul_left _ (Nat.pow_le_pow_right Nat.two_pos he)).trans hmax

theorem unitsOfBits_lt_finiteLimit {c : Nat} (hc : c < infMag) : unitsOfBits c < finiteLimit := by
  have hmax : unitsOfBits (infMag - 1) < finiteLimit := by decide +kernel
  exact (unitsOfBits_strictMono.monotone (Nat.le_sub_one_of_lt hc)).trans_lt hmax

/-- An integer of at most 53 bits, scaled by a power of two in range. -/
theorem representable_mul_two_pow {m e : Nat} (hm : m < 2 ^ 53) (he : e ≤ 2044) :
    Representable (m * 2 ^ e) := by
  have hlt : m * 2 ^ e < 2 ^ 53 * 2 ^ e := Nat.mul_lt_mul_of_pos_right hm (by positivity)
  have hfin : roundUnits (m * 2 ^ e) 1 < infMag := by
    rw [roundUnits_lt_infMag_iff_finiteLimit _ Nat.one_pos, Nat.mul_one]
    exact hlt.trans_le (two_pow_le_finiteLimit he)
  refine ⟨_, hfin, unitsOfBits_roundUnits_of_dvd ?_ hfin⟩
  obtain ⟨-, hzero | hbinade⟩ := ulpExponent_spec (m * 2 ^ e) 1
  · rw [hzero, Nat.pow_zero]
    exact one_dvd _
  · rw [Nat.div_one] at hbinade
    have hexp : ulpExponent (m * 2 ^ e) 1 + 52 < 53 + e := by
      rw [← Nat.pow_lt_pow_iff_right Nat.one_lt_two, Nat.pow_add 2 53]
      exact hbinade.trans_lt hlt
    exact (pow_dvd_pow 2 (by omega)).mul_left m

/-- A quotient of at most a representable bound rounds to at most that bound. -/
theorem roundUnits_le_of_representable {n d B : Nat} (hd : 0 < d) (hB : Representable B) (h : n ≤ d * B) :
    roundUnits n d < infMag ∧ unitsOfBits (roundUnits n d) ≤ B := by
  obtain ⟨c, hc, rfl⟩ := hB
  have hfin : roundUnits n d < infMag := by
    rw [roundUnits_lt_infMag_iff_finiteLimit n hd, Nat.mul_comm]
    exact h.trans_lt (Nat.mul_lt_mul_of_pos_left (unitsOfBits_lt_finiteLimit hc) hd)
  refine ⟨hfin, not_lt.1 fun hgt => ?_⟩
  have hnear := roundUnits_nearest n hd hfin c hgt.ne
  have hexact : n ≤ d * unitsOfBits c := h
  have hround : d * unitsOfBits c < d * unitsOfBits (roundUnits n d) := Nat.mul_lt_mul_of_pos_left hgt hd
  zify at hexact hround
  dsimp only at hnear
  rw [abs_of_nonpos (by omega), abs_of_nonpos (by omega)] at hnear
  omega

/-! ### Bounded values -/

/-- A finite value of at most `B` units. -/
def Bounded (B : Nat) (x : Word) : Prop := isfinite x = true ∧ magUnits x ≤ B

/-- `2^k` in units of `2^-1074`. -/
def pow2Units (k : Nat) : Nat := 2 ^ k * oneUnits

theorem boundedBy_iff {k : Nat} {x : Word} : boundedBy k x = true ↔ Bounded (pow2Units k) x := by
  rw [boundedBy, Bool.and_eq_true, decide_eq_true_iff, Nat.shiftLeft_eq, Nat.mul_comm]
  rfl

theorem admissible_iff_bounded {x : Word} : admissible x = true ↔ Bounded (pow2Units 64) x := by
  rw [admissible_iff, Nat.shiftLeft_eq, Nat.mul_comm]
  rfl

theorem pow2Units_le {j k : Nat} (h : j ≤ k) : pow2Units j ≤ pow2Units k :=
  Nat.mul_le_mul_right _ (Nat.pow_le_pow_right Nat.two_pos h)

theorem pow2Units_add (j k : Nat) : pow2Units (j + k) = 2 ^ j * pow2Units k := by
  rw [pow2Units, pow2Units, Nat.pow_add, Nat.mul_assoc]

theorem Bounded.mono {B C : Nat} {x : Word} (h : Bounded B x) (hBC : B ≤ C) : Bounded C x :=
  ⟨h.1, h.2.trans hBC⟩

/-- The bounds of this file: a count below `2^53` of `2^k`. -/
theorem representable_mul_pow2Units {m k : Nat} (hm : m < 2 ^ 53) (hk : k ≤ 970) :
    Representable (m * pow2Units k) := by
  rw [pow2Units, oneUnits_eq, ← Nat.pow_add]
  exact representable_mul_two_pow hm (by omega)

theorem representable_pow2Units {k : Nat} (hk : k ≤ 970) : Representable (pow2Units k) := by
  rw [← Nat.one_mul (pow2Units k)]
  exact representable_mul_pow2Units (by decide) hk

theorem bounded_roundSigned {neg : Bool} {n d B : Nat} (hd : 0 < d) (hB : Representable B) (h : n ≤ d * B) :
    Bounded B (roundSigned neg n d) := by
  obtain ⟨hfin, hle⟩ := roundUnits_le_of_representable hd hB h
  exact ⟨by rwa [isfinite_iff, magBits_roundSigned], by rwa [magUnits_eq, magBits_roundSigned]⟩

theorem bounded_fadd {A B C : Nat} {a b : Word} (ha : Bounded A a) (hb : Bounded B b) (hC : Representable C)
    (h : A + B ≤ C) : Bounded C (fadd a b) := by
  rw [fadd_of_isfinite ha.1 hb.1]
  split_ifs with hzero
  · obtain ⟨hfin, hunits⟩ := packSign_zero_facts (signBit a && signBit b)
    refine ⟨hfin, ?_⟩
    rw [(units_eq_zero_iff _).1 hunits]
    exact Nat.zero_le C
  · refine bounded_roundSigned Nat.one_pos hC ?_
    calc (units a + units b).natAbs ≤ (units a).natAbs + (units b).natAbs := Int.natAbs_add_le _ _
      _ ≤ A + B := by rw [natAbs_units, natAbs_units]; exact Nat.add_le_add ha.2 hb.2
      _ ≤ 1 * C := by rwa [Nat.one_mul]

theorem bounded_fmul {A B C : Nat} {a b : Word} (ha : Bounded A a) (hb : Bounded B b) (hC : Representable C)
    (h : A * B ≤ oneUnits * C) : Bounded C (fmul a b) := by
  rw [fmul_eq_roundSigned ha.1 hb.1]
  exact bounded_roundSigned oneUnits_pos hC ((Nat.mul_le_mul ha.2 hb.2).trans h)

theorem bounded_fdiv {C : Nat} {a b : Word} (ha : isfinite a = true) (hb : isfinite b = true)
    (hb0 : 0 < magUnits b) (hC : Representable C) (h : magUnits a * oneUnits ≤ magUnits b * C) :
    Bounded C (fdiv a b) := by
  rw [fdiv_of_isfinite ha hb, if_neg hb0.ne']
  exact bounded_roundSigned hb0 hC h

/-! ### Sums, means and inner products (40_numerics R127, R128, R130) -/

theorem bounded_foldl_fadd {k : Nat} (hk : k ≤ 970) {xs : List Word} (hxs : ∀ x ∈ xs, Bounded (pow2Units k) x)
    {acc : Word} {j : Nat} (hacc : Bounded (j * pow2Units k) acc) (hj : j + xs.length < 2 ^ 53) :
    Bounded ((j + xs.length) * pow2Units k) (xs.foldl fadd acc) := by
  induction xs generalizing acc j with
  | nil => exact hacc
  | cons x xs ih =>
    rw [List.forall_mem_cons] at hxs
    obtain ⟨hhead, htail⟩ := hxs
    rw [List.length_cons] at hj ⊢
    have hnext : Bounded ((j + 1) * pow2Units k) (fadd acc x) :=
      bounded_fadd hacc hhead (representable_mul_pow2Units (by omega) hk) (by rw [Nat.succ_mul])
    have hrun := ih htail hnext (by omega)
    rwa [Nat.add_right_comm, Nat.add_assoc] at hrun

/-- A sum of `n` values of at most `2^k` is at most `n * 2^k`. -/
theorem bounded_sumL {k : Nat} (hk : k ≤ 970) {xs : List Word} (hne : xs ≠ []) (hlen : xs.length < 2 ^ 53)
    (hxs : ∀ x ∈ xs, Bounded (pow2Units k) x) : Bounded (xs.length * pow2Units k) (sumL xs) := by
  cases xs with
  | nil => exact absurd rfl hne
  | cons x xs =>
    rw [List.forall_mem_cons] at hxs
    obtain ⟨hhead, htail⟩ := hxs
    rw [List.length_cons] at hlen ⊢
    have hrun := bounded_foldl_fadd hk htail (j := 1) (by rwa [Nat.one_mul]) (by omega)
    rwa [Nat.add_comm 1] at hrun

/-- The mean of values of at most `2^k` is at most `2^k`. -/
theorem bounded_mean {k : Nat} (hk : k ≤ 970) {xs : List Word} (hne : xs ≠ []) (hlen : xs.length < 2 ^ 53)
    (hxs : ∀ x ∈ xs, Bounded (pow2Units k) x) : Bounded (pow2Units k) (mean xs) := by
  have hpos : 0 < xs.length := List.length_pos_iff.2 hne
  obtain ⟨hfin, hsum⟩ := bounded_sumL hk hne hlen hxs
  have hcount : magUnits (i2f xs.length) = xs.length * oneUnits := by
    rw [← natAbs_units, units_i2f (by rwa [Int.natAbs_natCast])]
    exact Int.natAbs_natCast (xs.length * oneUnits)
  refine bounded_fdiv hfin (isfinite_i2f_natCast (by omega)) ?_ (representable_pow2Units hk) ?_
  · rw [hcount]
    exact Nat.mul_pos hpos oneUnits_pos
  · rw [hcount, Nat.mul_right_comm]
    exact Nat.mul_le_mul_right _ hsum

theorem bounded_fmul_samples {x y : Word} (hx : Bounded (pow2Units 64) x) (hy : Bounded (pow2Units 64) y) :
    Bounded (pow2Units 128) (fmul x y) := by
  refine bounded_fmul hx hy (representable_pow2Units (by decide)) (le_of_eq ?_)
  rw [show 128 = 64 + 64 from rfl, pow2Units_add 64 64, pow2Units]
  ring

/-- An inner product of at most 512 pairs of samples is at most `512 * 2^128`. -/
theorem bounded_dot {h b : List Word} (hh : ∀ x ∈ h, Bounded (pow2Units 64) x)
    (hb : ∀ x ∈ b, Bounded (pow2Units 64) x) (hne : h ≠ [] ∧ b ≠ []) (hlen : h.length ≤ 512) :
    Bounded (pow2Units 137) (dot h b) := by
  have hprods : ∀ z ∈ List.zipWith fmul h b, Bounded (pow2Units 128) z := by
    intro z hz
    rw [← List.map_uncurry_zip_eq_zipWith, List.mem_map] at hz
    obtain ⟨⟨x, y⟩, hxy, rfl⟩ := hz
    obtain ⟨hx, hy⟩ := List.of_mem_zip hxy
    exact bounded_fmul_samples (hh x hx) (hb y hy)
  have hzip : (List.zipWith fmul h b).length ≤ 512 := by rw [List.length_zipWith]; omega
  have hzne : List.zipWith fmul h b ≠ [] := by
    rw [ne_eq, List.zipWith_eq_nil_iff]
    exact fun hnil => hnil.elim hne.1 hne.2
  refine (bounded_sumL (by decide) hzne (by omega) hprods).mono ?_
  rw [show 137 = 9 + 128 from rfl, pow2Units_add]
  exact Nat.mul_le_mul_right _ hzip

/-! ### The stage functions -/

theorem bounded_of_fullScale {w : BitVec 6} {v : Word} (hw : w.toNat ≤ 53)
    (hlo : fle (fneg (fullScale w)) v = true) (hhi : fle v (fullScale w) = true) : Bounded (pow2Units 53) v := by
  refine ⟨isfinite_of_within (isfinite_fullScale w) hlo hhi, (magUnits_le_of_within hw hlo hhi).trans ?_⟩
  exact Nat.mul_le_mul_right _ (fullScaleInt_lt hw).le

/-- `AGC_OUT` is clamped to the full scale. -/
theorem bounded_agcStage_agcOut {b : Block} {x : Word} (hw : b.active.regs.w.toNat ≤ 53)
    (hx : isfinite x = true) (hg : isfinite b.agc.gain = true) :
    Bounded (pow2Units 64) (agcStage b x).agcOut := by
  obtain ⟨hlo, hhi⟩ := agcStage_agcOut_within hx hg
  exact (bounded_of_fullScale hw hlo hhi).mono (pow2Units_le (by decide))

theorem bounded_pattern_entries :
    Bounded (pow2Units 0) Config.one ∧ Bounded (pow2Units 0) (fneg Config.one) ∧ Bounded (pow2Units 0) 0 := by
  simp only [Bounded]
  decide +kernel

theorem bounded_cosPattern (phase : BitVec 2) : Bounded (pow2Units 0) (cosPattern phase) := by
  obtain ⟨hone, hneg, hzero⟩ := bounded_pattern_entries
  unfold cosPattern
  split_ifs
  · exact hone
  · exact hneg
  · exact hzero

theorem bounded_sinPattern (phase : BitVec 2) : Bounded (pow2Units 0) (sinPattern phase) := by
  obtain ⟨hone, hneg, hzero⟩ := bounded_pattern_entries
  unfold sinPattern
  split_ifs
  · exact hone
  · exact hneg
  · exact hzero

theorem bounded_mixed {a v : Word} (ha : Bounded (pow2Units 64) a) (hv : Bounded (pow2Units 0) v) :
    Bounded (pow2Units 64) (fmul a v) := by
  refine bounded_fmul ha hv (representable_pow2Units (by decide)) (le_of_eq ?_)
  rw [pow2Units, pow2Units]
  ring

/-- The post-gain keeps a value within `2^137`: bypassed it returns it, else it clamps to the full scale. -/
theorem bounded_postGain {c : CfgRegs} {v : Word} (hcast : c.pgCast ≠ 3) (hw : 2 ≤ c.w.toNat ∧ c.w.toNat ≤ 53)
    (hv : Bounded (pow2Units 137) v) : Bounded (pow2Units 137) (postGain c v) := by
  cases hen : c.pgEn with
  | false => rwa [postGain, hen, if_neg Bool.false_ne_true]
  | true =>
    obtain ⟨hlo, hhi, -⟩ := postGainWithinFullScale c v hen hcast hw.1 hw.2 hv.1
    exact (bounded_of_fullScale hw.2 hlo hhi).mono (pow2Units_le (by decide))

end Sys2Proof.Machine
end

section
/-! The numeric invariant (10_state R61, 40_numerics R135): every stage, clear and commit of a sound block keeps
its values finite, so every step does. -/

namespace Sys2Proof.Machine

/-! ### The windows that the invariant looks at -/

/-- What holds of every entry of a window holds after one entry has been replaced. -/
theorem forall_mem_take_set {P : Word → Prop} {l : List Word} {n i : Nat} {x : Word}
    (h : ∀ y ∈ l.take n, P y) (hx : P x) : ∀ y ∈ (l.set i x).take n, P y := by
  intro y hy
  rw [List.take_set] at hy
  obtain hold | rfl := List.mem_or_eq_of_mem_set hy
  · exact h y hold
  · exact hx

theorem forall_mem_take_firShift {P : Word → Prop} {n : Nat} {hist : List Word} {x : Word} (h1 : 1 ≤ n)
    (hlen : n ≤ hist.length) (h : ∀ y ∈ hist.take n, P y) (hx : P x) : ∀ y ∈ (firShift n hist x).take n, P y := by
  obtain ⟨m, rfl⟩ : ∃ m, n = m + 1 := ⟨n - 1, by omega⟩
  rw [take_firShift x h1 hlen, List.take_succ_cons, List.forall_mem_cons]
  exact ⟨hx, fun y hy => h y (List.take_subset_take_left hist (Nat.le_succ m) hy)⟩

theorem forall_mem_take_firHistory {P : Word → Prop} {c : CfgCopy} {hist : List Word} (h1 : 1 ≤ c.regs.n.toNat)
    (hlen : c.regs.n.toNat ≤ hist.length) (h : ∀ y ∈ hist.take c.regs.n.toNat, P y) {xs : List Word}
    (hxs : ∀ x ∈ xs, P x) : ∀ y ∈ (firHistory c hist xs).take c.regs.n.toNat, P y := by
  induction xs generalizing hist with
  | nil => exact h
  | cons x xs ih =>
    rw [List.forall_mem_cons] at hxs
    obtain ⟨hhead, htail⟩ := hxs
    exact ih ((firShift_length x h1 hlen).symm ▸ hlen) (forall_mem_take_firShift h1 hlen h hhead) htail

theorem forall_mem_take_idShift {P : Word → Prop} {l : Nat} {buf : List Word} {x : Word} (h1 : 1 ≤ l)
    (hlen : l ≤ buf.length) (h : ∀ y ∈ buf.take l, P y) (hx : P x) : ∀ y ∈ (idShift l buf x).take l, P y := by
  intro y hy
  rw [take_idShift x h1 hlen, List.mem_append, List.mem_singleton] at hy
  obtain hold | rfl := hy
  · exact h y (List.mem_of_mem_drop hold)
  · exact hx

theorem boundedBy_zero (k : Nat) : boundedBy k 0 = true := by
  have hfin : isfinite 0 = true := by decide +kernel
  have hzero : magUnits 0 = 0 := by decide +kernel
  rw [boundedBy_iff]
  exact ⟨hfin, hzero ▸ Nat.zero_le _⟩

theorem forall_mem_take_zeros (k m n : Nat) :
    ∀ y ∈ (List.replicate m (0 : Word)).take n, boundedBy k y = true := by
  intro y hy
  rw [List.eq_of_mem_replicate (List.mem_of_mem_take hy)]
  exact boundedBy_zero k

/-! ### The filter and the decimator on bounded windows -/

/-- The taps of a legal configuration are admissible (47_core R202). -/
theorem CfgCopy.Legal.taps_bounded {p : Params} {c : CfgCopy} (h : c.Legal p) :
    ∀ x ∈ c.taps.take c.regs.n.toNat, Bounded (pow2Units 64) x := by
  intro x hx
  obtain ⟨j, hj⟩ := List.mem_iff_getElem?.1 hx
  rw [List.getElem?_take] at hj
  split at hj
  case isTrue hlt => exact admissible_iff_bounded.1 (h.taps j x hlt hj)
  case isFalse => cases hj

/-- A filter output over a history of samples is at most `512 * 2^128`. -/
theorem bounded_firOutput {p : Params} (hp : p.Legal) {c : CfgCopy} (hc : c.Legal p)
    (htaps : c.taps.length = p.nTapsMax) {hist : List Word} (hlen : hist.length = p.nTapsMax)
    (h : ∀ y ∈ hist.take c.regs.n.toNat, boundedBy 64 y = true) :
    Bounded (pow2Units 137) (firOutput c hist) := by
  obtain ⟨h1, hmax⟩ := hc.n
  have hmax512 : p.nTapsMax ≤ 512 := hp.2.1.2
  refine bounded_dot hc.taps_bounded (fun y hy => boundedBy_iff.1 (h y hy)) ⟨?_, ?_⟩ ?_
  · exact List.ne_nil_of_length_pos (by rw [List.length_take]; omega)
  · exact List.ne_nil_of_length_pos (by rw [List.length_take]; omega)
  · rw [List.length_take]; omega

/-- The mean of a decimator's window is finite. -/
theorem isfinite_mean_window {buf : List Word} {l : BitVec 16} (h1 : 1 ≤ l.toNat) (hlen : l.toNat ≤ buf.length)
    (h : ∀ y ∈ buf.take l.toNat, boundedBy 137 y = true) : isfinite (mean (buf.take l.toNat)) = true := by
  have hlength : (buf.take l.toNat).length = l.toNat := List.length_take_of_le hlen
  have hlt := l.isLt
  obtain ⟨hfin, -⟩ := bounded_mean (k := 137) (by decide) (List.ne_nil_of_length_pos (by omega)) (by omega)
    fun y hy => boundedBy_iff.1 (h y hy)
  exact hfin

/-! ### The stages -/

theorem agcStage_finite {p : Params} {b : Block} (hs : b.Sound p) (h : b.Finite) {x : Word}
    (hx : admissible x = true) : (agcStage b x).Finite :=
  have hxb := admissible_iff_bounded.1 hx
  { h with
    agcBuf := by
      simp only [agcStage, agcPush_buf]
      exact forall_mem_take_set (P := (boundedBy 64 · = true)) h.agcBuf (boundedBy_iff.2 hxb)
    agcGain := isfinite_agcPush_gain _ x h.agcGain
    agcOut := (bounded_agcStage_agcOut hs.legal.w.2 hxb.1 h.agcGain).1 }

theorem bounded_ddcStage_mix {b : Block} {a : Word} (ha : Bounded (pow2Units 64) a) (arm : Arm) :
    Bounded (pow2Units 64) ((ddcStage b a).mix.get arm) := by
  cases arm with
  | i => exact bounded_mixed ha (bounded_cosPattern _)
  | q => exact bounded_mixed ha (bounded_sinPattern _)

theorem ddcStage_finite {b : Block} (h : b.Finite) {a : Word} (ha : Bounded (pow2Units 64) a) :
    (ddcStage b a).Finite :=
  { h with mix := fun arm => (bounded_ddcStage_mix ha arm).1 }

theorem bounded_firStage_firOut {p : Params} {b : Block} (hp : p.Legal) (hs : b.Sound p) (h : b.Finite)
    (arm : Arm) {x : Word} (hx : Bounded (pow2Units 64) x) :
    Bounded (pow2Units 137) ((firStage arm b x).firOut.get arm) := by
  obtain ⟨h1, hmax⟩ := hs.legal.n
  have hlen : b.active.regs.n.toNat ≤ (b.firBuf.get arm).length := (hs.firBuf arm).symm ▸ hmax
  simp only [firStage, PerArm.get_set_same]
  exact bounded_firOutput hp hs.legal hs.taps ((firShift_length x h1 hlen).trans (hs.firBuf arm))
    (forall_mem_take_firShift (P := (boundedBy 64 · = true)) h1 hlen (h.firBuf arm) (boundedBy_iff.2 hx))

theorem firStage_finite {p : Params} {b : Block} (hp : p.Legal) (hs : b.Sound p) (h : b.Finite) (arm : Arm)
    {x : Word} (hx : Bounded (pow2Units 64) x) : (firStage arm b x).Finite := by
  obtain ⟨h1, hmax⟩ := hs.legal.n
  have hlen : b.active.regs.n.toNat ≤ (b.firBuf.get arm).length := (hs.firBuf arm).symm ▸ hmax
  have hout := (bounded_firStage_firOut hp hs h arm hx).1
  simp only [firStage, PerArm.get_set_same] at hout
  exact { h with
    firBuf := PerArm.forall_get_set
      (P := fun hist : List Word => ∀ y ∈ hist.take b.active.regs.n.toNat, boundedBy 64 y = true) h.firBuf arm
      (forall_mem_take_firShift (P := (boundedBy 64 · = true)) h1 hlen (h.firBuf arm) (boundedBy_iff.2 hx))
    firOut := PerArm.forall_get_set (P := (isfinite · = true)) h.firOut arm hout }

theorem bounded_pgStage_pgOut {p : Params} {b : Block} (hs : b.Sound p) (arm : Arm) {v : Word}
    (hv : Bounded (pow2Units 137) v) : Bounded (pow2Units 137) ((pgStage arm b v).pgOut.get arm) := by
  simp only [pgStage, PerArm.get_set_same]
  exact bounded_postGain hs.legal.pgCast hs.legal.w hv

theorem pgStage_finite {p : Params} {b : Block} (hs : b.Sound p) (h : b.Finite) (arm : Arm) {v : Word}
    (hv : Bounded (pow2Units 137) v) : (pgStage arm b v).Finite :=
  { h with
    pgOut := PerArm.forall_get_set (P := (isfinite · = true)) h.pgOut arm
      (bounded_postGain hs.legal.pgCast hs.legal.w hv).1 }

/-- Both candidates of `idStep` are means of a window of bounded values. -/
theorem isfinite_idStep_out {u : IntDump} {l : BitVec 16} {x : Word} (h1 : 1 ≤ l.toNat)
    (hlen : l.toNat ≤ u.buf.length) (h : ∀ y ∈ u.buf.take l.toNat, boundedBy 137 y = true)
    (hx : boundedBy 137 x = true) : isfinite (idStep l.toNat u x).out = true := by
  by_cases hfull : u.cnt + 1 = l.toNat
  · rw [idStep_full x hfull]
    exact isfinite_mean_window h1 ((idShift_length x h1 hlen).symm ▸ hlen)
      (forall_mem_take_idShift (P := (boundedBy 137 · = true)) h1 hlen h hx)
  · rw [idStep_partial x hfull]
    exact isfinite_mean_window h1 hlen h

theorem idStage_finite {p : Params} {b : Block} (hs : b.Sound p) (h : b.Finite) (arm : Arm) {x : Word}
    (hx : Bounded (pow2Units 137) x) : (idStage arm b x).Finite := by
  obtain ⟨h1, hmax⟩ := hs.legal.l
  have hlen : b.active.regs.l.toNat ≤ (b.intDump.get arm).buf.length := (hs.idBuf arm).symm ▸ hmax
  have hxb := boundedBy_iff.2 hx
  refine { h with
    idBuf := PerArm.forall_get_set
      (P := fun u : IntDump => ∀ y ∈ u.buf.take b.active.regs.l.toNat, boundedBy 137 y = true) h.idBuf arm ?_
    idOut := PerArm.forall_get_set (P := (isfinite · = true)) h.idOut arm
      (isfinite_idStep_out h1 hlen (h.idBuf arm) hxb) }
  rw [idStep_buf]
  exact forall_mem_take_idShift (P := (boundedBy 137 · = true)) h1 hlen (h.idBuf arm) hxb

theorem bsStage_finite {b : Block} (h : b.Finite) (x y : Word) (v : Bool) : (bsStage b x y v).Finite :=
  { h with }

/-- The pipeline hands each stage a value within the bound of that stage. -/
theorem pipelineFront_finite {p : Params} {b : Block} (hp : p.Legal) (hs : b.Sound p) (h : b.Finite) {x : Word}
    (hx : admissible x = true) : (pipelineFront b x).Finite := by
  let b1 := agcStage b x
  let b2 := ddcStage b1 b1.agcOut
  let b3 := firStage .i b2 b2.mix.i
  let b4 := firStage .q b3 b3.mix.q
  let b5 := pgStage .i b4 b4.firOut.i
  let b6 := pgStage .q b5 b5.firOut.q
  let b7 := idStage .i b6 b6.pgOut.i
  have s1 : b1.Sound p := agcStage_sound hs x
  have s2 : b2.Sound p := ddcStage_sound s1 _
  have s3 : b3.Sound p := firStage_sound s2 .i _
  have s4 : b4.Sound p := firStage_sound s3 .q _
  have s5 : b5.Sound p := pgStage_sound s4 .i _
  have s6 : b6.Sound p := pgStage_sound s5 .q _
  have s7 : b7.Sound p := idStage_sound s6 .i _
  have f1 : b1.Finite := agcStage_finite hs h hx
  have controlled : Bounded (pow2Units 64) b1.agcOut :=
    bounded_agcStage_agcOut hs.legal.w.2 (admissible_iff_bounded.1 hx).1 h.agcGain
  have f2 : b2.Finite := ddcStage_finite f1 controlled
  have mixed : ∀ arm, Bounded (pow2Units 64) (b2.mix.get arm) := bounded_ddcStage_mix controlled
  have f3 : b3.Finite := firStage_finite hp s2 f2 .i (mixed .i)
  have f4 : b4.Finite := firStage_finite hp s3 f3 .q (mixed .q)
  have filteredI : Bounded (pow2Units 137) b4.firOut.i := bounded_firStage_firOut hp s2 f2 .i (mixed .i)
  have filteredQ : Bounded (pow2Units 137) b4.firOut.q := bounded_firStage_firOut hp s3 f3 .q (mixed .q)
  have f5 : b5.Finite := pgStage_finite s4 f4 .i filteredI
  have f6 : b6.Finite := pgStage_finite s5 f5 .q filteredQ
  have f7 : b7.Finite := idStage_finite s6 f6 .i (bounded_pgStage_pgOut s4 .i filteredI)
  exact idStage_finite s7 f7 .q (bounded_pgStage_pgOut s5 .q filteredQ)

theorem stepped_finite {p : Params} {b : Block} (hp : p.Legal) (hs : b.Sound p) (h : b.Finite) {x : Word}
    (hx : admissible x = true) : (stepped b x).block.Finite :=
  let front := pipelineFront b x
  have synced := bsStage_finite (pipelineFront_finite hp hs h hx) front.idOut.i front.idOut.q front.flags.idValid.i
  { synced with }

theorem firApplied_finite {p : Params} {b : Block} (hp : p.Legal) (hs : b.Sound p) (h : b.Finite) (arm : Arm)
    (dst : Nat) {ins : List Word} (hne : ins ≠ []) (hins : ∀ x ∈ ins, admissible x = true) :
    (firApplied p arm dst b ins).Finite := by
  obtain ⟨h1, hmax⟩ := hs.legal.n
  have hzeros : (List.replicate p.nTapsMax (0 : Word)).length = p.nTapsMax := List.length_replicate
  have hlen : b.active.regs.n.toNat ≤ (List.replicate p.nTapsMax (0 : Word)).length := hzeros.symm ▸ hmax
  have hhist : ∀ y ∈ (firHistory b.active (List.replicate p.nTapsMax 0) ins).take b.active.regs.n.toNat,
      boundedBy 64 y = true :=
    forall_mem_take_firHistory (P := (boundedBy 64 · = true)) h1 hlen (forall_mem_take_zeros 64 _ _)
      fun x hx => boundedBy_iff.2 (admissible_iff_bounded.1 (hins x hx))
  refine { h with
    firBuf := PerArm.forall_get_set
      (P := fun hist : List Word => ∀ y ∈ hist.take b.active.regs.n.toNat, boundedBy 64 y = true) h.firBuf arm
      hhist
    firOut := PerArm.forall_get_set (P := (isfinite · = true)) h.firOut arm ?_ }
  rw [firOutputs_getLastD _ _ hne]
  exact (bounded_firOutput hp hs.legal hs.taps ((firHistory_length ins h1 hlen).trans hzeros) hhist).1

theorem idApplied_finite {b : Block} (h : b.Finite) (count dst : Nat) (ins : List Word) :
    (idApplied count dst b ins).Finite := { h with }

/-! ### Clears, commit and reset -/

theorem isfinite_zero : isfinite 0 = true := by decide +kernel

theorem isfinite_one : isfinite Config.one = true := by decide +kernel

theorem agcCleared_finite (p : Params) {b : Block} (h : b.Finite) : (agcCleared p b).Finite :=
  { h with agcBuf := forall_mem_take_zeros 64 _ _, agcGain := isfinite_one, agcOut := isfinite_zero }

theorem ddcCleared_finite {b : Block} (h : b.Finite) : (ddcCleared b).Finite :=
  { h with mix := fun arm => by cases arm <;> exact isfinite_zero }

theorem firCleared_finite (p : Params) {b : Block} (h : b.Finite) (arm : Arm) : (firCleared p arm b).Finite :=
  { h with
    firBuf := PerArm.forall_get_set
      (P := fun hist : List Word => ∀ y ∈ hist.take b.active.regs.n.toNat, boundedBy 64 y = true) h.firBuf arm
      (forall_mem_take_zeros 64 _ _)
    firOut := PerArm.forall_get_set (P := (isfinite · = true)) h.firOut arm isfinite_zero }

theorem idCleared_finite (p : Params) {b : Block} (h : b.Finite) (arm : Arm) : (idCleared p arm b).Finite :=
  { h with
    idBuf := PerArm.forall_get_set
      (P := fun u : IntDump => ∀ y ∈ u.buf.take b.active.regs.l.toNat, boundedBy 137 y = true) h.idBuf arm
      (forall_mem_take_zeros 137 _ _)
    idOut := PerArm.forall_get_set (P := (isfinite · = true)) h.idOut arm isfinite_zero }

theorem bsCleared_finite {b : Block} (h : b.Finite) : (bsCleared b).Finite := { h with }

/-- `CLEAR_ALL` leaves finite values whatever the block held. -/
theorem allCleared_finite (p : Params) (b : Block) : (allCleared p b).Finite where
  agcBuf := forall_mem_take_zeros 64 _ _
  agcGain := isfinite_one
  firBuf arm := by cases arm <;> exact forall_mem_take_zeros 64 _ _
  idBuf arm := by cases arm <;> exact forall_mem_take_zeros 137 _ _
  agcOut := isfinite_zero
  mix arm := by cases arm <;> exact isfinite_zero
  firOut arm := by cases arm <;> exact isfinite_zero
  pgOut arm := by cases arm <;> exact isfinite_zero
  idOut arm := by cases arm <;> exact isfinite_zero

theorem Block.reset_finite (p : Params) : (Block.reset p).Finite := by
  rw [Block.reset_eq_allCleared]
  exact allCleared_finite p _

/-- Settles O44. -/
theorem resetStateIsSoundAndFinite : Obligations.ResetStateIsSoundAndFinite := by
  unfold Obligations.ResetStateIsSoundAndFinite
  intro p hp
  refine ⟨⟨hp, CfgCopy.reset_taps_length p, Block.reset_sound hp, fun q hq => ?_⟩,
    ⟨Block.reset_finite p, fun q hq => ?_⟩⟩
  · cases hq
  · cases hq

/-! ### Commands and steps -/

/-- The effects of every command accepted in a sound state hold finite values only. -/
theorem Accepted.finite {s : State} (hs : s.Sound) (hf : s.Finite) {i : Instr} {e : Effects}
    (h : Accepted s i e) : e.block.Finite := by
  have hp := hs.params
  have hsb := hs.block
  have hfb := hf.block
  cases h with
  | nop => exact hfb
  | clearAll => exact allCleared_finite _ _
  | step hx => exact stepped_finite hp hsb hfb hx
  | cfgCommit => exact allCleared_finite _ _
  | agcUpdate hx => exact agcStage_finite hsb hfb hx
  | agcClear => exact agcCleared_finite _ hfb
  | ddcUpdate hx => exact ddcStage_finite hfb (admissible_iff_bounded.1 hx)
  | ddcClear => exact ddcCleared_finite hfb
  | firUpdate arm hx => exact firStage_finite hp hsb hfb arm (admissible_iff_bounded.1 hx)
  | firClear arm => exact firCleared_finite _ hfb arm
  | firApply arm hcount _ _ hins =>
    exact firApplied_finite hp hsb hfb arm _ (List.ne_nil_of_length_pos (by rwa [bulkInputs_length])) hins
  | pgEval arm hx =>
    exact pgStage_finite hsb hfb arm ((admissible_iff_bounded.1 hx).mono (pow2Units_le (by decide)))
  | idUpdate arm hx =>
    exact idStage_finite hsb hfb arm ((admissible_iff_bounded.1 hx).mono (pow2Units_le (by decide)))
  | idClear arm => exact idCleared_finite _ hfb arm
  | idApply => exact idApplied_finite hfb _ _ _
  | bsyncUpdate v => exact bsStage_finite hfb _ _ v
  | bsyncClear => exact bsCleared_finite hfb

theorem blockInvariant_finite {s : State} (hs : s.Sound) (hf : s.Finite) : BlockInvariant Block.Finite s where
  command _ _ h := (accepted_iff.2 h).finite hs hf
  cfgFault _ := { hf.block with }
  store _ _ _ := { hf.block with }
  reset := Block.reset_finite s.params

/-- Settles O46: every block that a step from a sound state puts into the state holds finite values only. -/
theorem stepKeepsFiniteValues : Obligations.StepKeepsFiniteValues := by
  unfold Obligations.StepKeepsFiniteValues
  intro s t hs hf hstep
  obtain ⟨hnow, hpending⟩ := Blocks_step ⟨hf.block, hf.pending⟩ (blockInvariant_finite hs hf) hstep
  exact ⟨hnow, hpending⟩

end Sys2Proof.Machine
end

section
/-! The life of a command (70_reset_and_hazards R260 to R262), what a pending command keeps from the host
(20_memory R79, R83), and reset (R250). -/

namespace Sys2Proof.Machine

/-! ### Issue and completion (R260, R261) -/

/-- Settles O5. -/
theorem stepIssuesDecodedCommand : Obligations.StepIssuesDecodedCommand := by
  unfold Obligations.StepIssuesDecodedCommand
  intro s w i rest hmoves hdecode
  rw [step_host hmoves, hostAccess_cmdWrite, writeCmd_ok hdecode]

/-- A rejection does not look at the schedule. -/
theorem reject_withMoves (r : Rejection) (w : Word) (s : State) (ms : List Move) :
    reject r w { s with moves := ms } = { reject r w s with moves := ms } := by cases r <;> rfl

/-- Settles O8: the pseudocode does not look at the schedule, so the deferred command is rejected alike, or
pends with the effects that completing at once applies. -/
theorem deferredCompletionEqualsImmediate : Obligations.DeferredCompletionEqualsImmediate := by
  unfold Obligations.DeferredCompletionEqualsImmediate
  intro i s hidle hdeferred
  simp only [exec_eq_issue, commandResult_moves]
  refine ⟨_, _, rfl, rfl, ?_⟩
  cases commandResult i s with
  | error r =>
    rw [issue_error hidle, issue_error (s := { s with moves := [] }) hidle]
    have hpending : (reject r (encode i) { s with draws := s.draws + readsOf i }).pending = none := by
      rw [reject_pending]; exact hidle
    have hmoves := reject_withMoves r (encode i) { s with draws := s.draws + readsOf i } []
    rw [blockTurn_of_idle hpending, ← hmoves]
    refine ⟨rfl, .inl ⟨hpending, ?_⟩⟩
    rw [← reject_withMoves]
  | ok e =>
    rw [issue_ok_deferred hidle hdeferred, issue_ok_ready (s := { s with moves := [] }) hidle rfl,
      blockTurn_of_pending (accept_pending _ _ _)]
    exact ⟨rfl, .inr ⟨_, accept_pending _ _ _, rfl, rfl⟩⟩

theorem StickyAdds_complete (e : Effects) (s : State) :
    StickyAdds ((if e.agcDegen then [.agcDegen] else []) ++ (if e.bitReady then [.bitReady] else []) ++
      [.cmdDone]) s (complete e s) := by
  intro c
  rw [complete_sticky, hasSticky_completionSticky]
  cases e.agcDegen <;> cases e.bitReady <;> simp [Bool.or_assoc]

/-- Settles O10: the turn is the completion of the pending command, if there is one. -/
theorem blockTurnAppliesPendingEffects : Obligations.BlockTurnAppliesPendingEffects := by
  unfold Obligations.BlockTurnAppliesPendingEffects
  intro s rest hmoves
  have hstep : step s = .next (blockTurn { s with moves := rest }) := by
    obtain hblock | ⟨hnone, rfl⟩ := hmoves
    · exact step_block hblock
    · rw [step_idle hnone, ← hnone]
  rw [hstep]
  refine ⟨fun p hp => ?_, fun hidle => ?_⟩
  · rw [blockTurn_of_pending (s := { s with moves := rest }) hp]
    exact ⟨_, rfl, rfl, StickyAdds_complete p.effects { s with moves := rest }⟩
  · rw [blockTurn_of_idle (s := { s with moves := rest }) hidle]

/-! ### While a command is pending (20_memory R79, R83) -/

/-- What a pending command depends on is the same in both states. -/
def SameDatapath (s t : State) : Prop :=
  t.pending = s.pending ∧ t.block = s.block ∧ t.staged = s.staged ∧ t.din0 = s.din0 ∧ t.din1 = s.din1 ∧
    t.params = s.params

theorem sameDatapath_raise (c : Cause) (r : ErrorRecord) (s : State) : SameDatapath s (raise c r s) := by
  simp [SameDatapath]

/-- The stores that take effect while busy, to `STATUS` and `IRQ_EN`. -/
theorem sameDatapath_storeLoc {l : Loc} (h : writableWhileBusy l = true) (v : Word) (s : State) :
    SameDatapath s (storeLoc l v s) := by
  cases l
  case status | irqEn => exact ⟨rfl, rfl, rfl, rfl, rfl, rfl⟩
  all_goals cases h

theorem sameDatapath_hostAccess {s t : State} {p : Pending} {a : Access} (hp : s.pending = some p)
    (h : hostAccess a s = .next t) : SameDatapath s t := by
  obtain ⟨-, hr⟩ | ⟨l, -, -, hr⟩ | ⟨v, -, -, hr⟩ | ⟨l, v, -, -, -, -, -, -, hr⟩ | ⟨l, v, -, -, -, hl, hr⟩ :=
    hostAccess_cases a s
  case inl => cases hr.symm.trans h; rw [rejectAccess_frame]; exact ⟨rfl, rfl, rfl, rfl, rfl, rfl⟩
  case inr.inl => cases hr.symm.trans h; rw [readLoc_frame]; exact ⟨rfl, rfl, rfl, rfl, rfl, rfl⟩
  case inr.inr.inl => cases (hr.trans (writeCmd_busy hp)).symm.trans h; exact sameDatapath_raise _ _ s
  case inr.inr.inr.inl => cases hr.symm.trans h; exact sameDatapath_raise _ _ s
  case inr.inr.inr.inr =>
    cases hr.symm.trans h
    exact sameDatapath_storeLoc (hl.resolve_left (by simp [hp])) v s

/-- Settles O9. -/
theorem busyFreezesTheDatapath : Obligations.BusyFreezesTheDatapath := by
  unfold Obligations.BusyFreezesTheDatapath
  intro s t p a rest hp hmoves hstep
  obtain ⟨hpending, hrest⟩ :=
    sameDatapath_hostAccess (s := { s with moves := rest }) hp ((step_host hmoves).symm.trans hstep)
  exact ⟨hpending.trans hp, hrest⟩

/-! ### Reset (R250) -/

theorem written_nil (i : Nat) : written [] i = false := by simp [written, wordAt, byteAt]

/-- Settles O11. -/
theorem resetEventRestoresResetState : Obligations.ResetEventRestoresResetState := by
  unfold Obligations.ResetEventRestoresResetState
  intro s rest hmoves
  have hirq : ((0 : BitVec 10) &&& 0 != 0) = false := by decide
  exact ⟨_, step_reset hmoves, rfl, hirq, written_nil, rfl⟩

theorem CfgCopy.reset_taps_getD (p : Params) {k : Nat} (hk : 0 < k) : (CfgCopy.reset p).taps.getD k 0 = 0 := by
  rw [CfgCopy.reset, List.getD_eq_getElem?_getD, List.getElem?_set_ne hk.ne, List.getElem?_replicate]
  split <;> rfl

theorem CfgCopy.reset_taps_getD_zero {p : Params} (hp : p.Legal) :
    (CfgCopy.reset p).taps.getD 0 0 = Config.one := by
  have hpos : 0 < (List.replicate p.nTapsMax (0 : Word)).length := by
    rw [List.length_replicate]; exact hp.2.1.1
  rw [CfgCopy.reset, List.getD_eq_getElem?_getD, List.getElem?_set_self hpos, Option.getD_some]

theorem toNat_cfgWord_reset_agcLen (p : Params) :
    (cfgWord (CfgRegs.reset p) .agcLen).toNat = min 64 p.agcLenMax := by
  simp only [cfgWord, CfgRegs.reset, BitVec.toNat_setWidth, BitVec.toNat_ofNat]
  omega

theorem cfgWord_reset_ctrl (p : Params) : cfgWord (CfgRegs.reset p) .ctrl = 3 := by
  change (0 : BitVec 61) ++ ((1 : BitVec 2) ++ BitVec.ofBool true) = 3
  decide

/-- Settles O12: a register word is the word of a reset constant, but for `PARAMS`, `AGC_LEN` and the taps. -/
theorem resetRegisterValues : Obligations.ResetRegisterValues := by
  unfold Obligations.ResetRegisterValues
  intro p hp s
  refine ⟨?zeros, rfl, toNat_paramsWord hp, fun act => ?config, fun k hk => ?taps,
    CfgCopy.reset_taps_getD_zero hp, CfgCopy.reset_taps_getD_zero hp, rfl, rfl⟩
  case zeros =>
    have hstatus : statusWord false 0 = 0 := by decide
    have hirqEn : fieldTenToOne 0 = 0 := by decide
    have herrAccess : AccessInfo.word { write := false, size := .b1, offset := 0 } = 0 := by decide
    have hflags : Flags.word
        { bitI := 0, bitQ := 0, idValid := { i := false, q := false }, bitValid := false } = 0 := by decide
    simp only [List.forall_mem_cons]
    exact ⟨rfl, hstatus, hirqEn, rfl, rfl, rfl, herrAccess, rfl, rfl, rfl, rfl, rfl, rfl, rfl, rfl, rfl, rfl, rfl,
      rfl, hflags, rfl, rfl, rfl, rfl, rfl, rfl, rfl, rfl, rfl, fun _ h => absurd h List.not_mem_nil⟩
  case config =>
    cases act <;>
      exact ⟨rfl, rfl, cfgWord_reset_ctrl p, toNat_cfgWord_reset_agcLen p, rfl, rfl, rfl, rfl⟩
  case taps => exact ⟨CfgCopy.reset_taps_getD p hk, CfgCopy.reset_taps_getD p hk⟩

end Sys2Proof.Machine
end

section
/-! The results of the commands that touch one stage: the automatic gain control (41_agc), the downconverter
(42_ddc), the post-gain (44_post_gain), the decimator (45_intdump), and `NOP` (47_core R200). A ready block
completes the command in the step that issues it, so the next state is `complete` of the command's effects; the
clauses read it through the lemmas of the stage. -/

namespace Sys2Proof.Machine

/-- The events of a completion whose event flags are known. -/
theorem StickyAdds_complete_of {e : Effects} {degen ready : Bool} (hd : e.agcDegen = degen)
    (hr : e.bitReady = ready) (s : State) :
    StickyAdds ((if degen then [.agcDegen] else []) ++ (if ready then [.bitReady] else []) ++ [.cmdDone]) s
      (complete e s) := by
  subst hd hr
  exact StickyAdds_complete e s

/-- Settles O13. -/
theorem nopResult : Obligations.NopResult := by
  unfold Obligations.NopResult
  intro s hready
  exact ⟨_, exec_nop_ready hready, complete_eq hready.1 _, StickyAdds_complete_quiet _ _, fun _ => rfl⟩

/-! ### The automatic gain control (41_agc R140 to R143) -/

/-- The push that fills the window, with a recompute that is not degenerate. -/
theorem agcPush_regular {c : CfgRegs} {a : Agc} {x : Word} (hfull : a.pos + 1 = c.k.toNat)
    (hden : feq (fmul c.nsigma (pstd ((a.buf.set a.pos x).take c.k.toNat))) 0 = false)
    (hquot : isfinite (fdiv (fullScale c.w) (fmul c.nsigma (pstd ((a.buf.set a.pos x).take c.k.toNat)))) = true) :
    agcPush c a x =
      { agc := { buf := a.buf.set a.pos x, pos := 0,
                 gain := fdiv (fullScale c.w) (fmul c.nsigma (pstd ((a.buf.set a.pos x).take c.k.toNat))) }
        degenerate := false } := by
  rw [agcPush_full x hfull]
  exact agcRecompute_regular hden hquot

/-- The push that fills the window, with a degenerate recompute. -/
theorem agcPush_degenerate {c : CfgRegs} {a : Agc} {x : Word} (hfull : a.pos + 1 = c.k.toNat)
    (h : feq (fmul c.nsigma (pstd ((a.buf.set a.pos x).take c.k.toNat))) 0 = true ∨
      isfinite (fdiv (fullScale c.w) (fmul c.nsigma (pstd ((a.buf.set a.pos x).take c.k.toNat)))) = false) :
    agcPush c a x = { agc := { buf := a.buf.set a.pos x, pos := 0, gain := a.gain }, degenerate := true } := by
  rw [agcPush_full x hfull]
  exact agcRecompute_degenerate h

/-- Settles O14: `AGC_UPDATE` completes with the push of the sample and the output under the gain it leaves. -/
theorem agcUpdateResult : Obligations.AgcUpdateResult := by
  unfold Obligations.AgcUpdateResult
  intro s hready hx c a fs full den degenerate
  have hagc : (agcStage s.block s.din0).agc = (agcPush c a s.din0).agc := rfl
  have hdegen : agcStageDegenerate s.block s.din0 = (agcPush c a s.din0).degenerate := rfl
  refine ⟨_, exec_agcUpdate_ready hready hx, complete_eq hready.1 _, ?_⟩
  simp only [complete_block, hagc, agcPush_buf, agcPush_pos]
  refine ⟨List.length_set, fun k hk => List.getElem?_set_ne hk.symm, fun hpos => List.getElem?_set_self hpos,
    fun hfull => if_pos hfull, fun hpartial => if_neg hpartial, fun hfull hregular => ?regular,
    fun hfull hdegenerate => ?degenerate, fun hpartial => ?filling, rfl, fun _ => rfl⟩
  case regular =>
    obtain ⟨hden, hquot⟩ := not_or.1 hregular
    have hpush := agcPush_regular (x := s.din0) hfull (Bool.not_eq_true _ ▸ hden) (Bool.not_eq_false _ ▸ hquot)
    exact ⟨by rw [hpush], StickyAdds_complete_of (degen := false) (hdegen.trans (by rw [hpush])) rfl s⟩
  case degenerate =>
    have hpush := agcPush_degenerate (x := s.din0) hfull hdegenerate
    exact ⟨by rw [hpush], StickyAdds_complete_of (degen := true) (hdegen.trans (by rw [hpush])) rfl s⟩
  case filling =>
    have hpush := agcPush_partial s.din0 hpartial
    exact ⟨by rw [hpush], StickyAdds_complete_of (degen := false) (hdegen.trans (by rw [hpush])) rfl s⟩

/-- Settles O15. -/
theorem agcClearResult : Obligations.AgcClearResult := by
  unfold Obligations.AgcClearResult
  intro s hready
  exact ⟨_, exec_agcClear_ready hready, complete_eq hready.1 _, StickyAdds_complete_quiet _ _, fun _ => rfl⟩

/-! ### The downconverter (42_ddc R150 to R152) -/

/-- The pattern `[1, 0, -1, 0]` at its head. -/
theorem getElem?_cosPattern (p : BitVec 2) :
    ([0x3FF0000000000000, 0, 0xBFF0000000000000, 0] : List Word)[p.toNat]? = some (cosPattern p) := by
  revert p; decide

/-- The pattern `[0, 1, 0, -1]` at its head. -/
theorem getElem?_sinPattern (p : BitVec 2) :
    ([0, 0x3FF0000000000000, 0, 0xBFF0000000000000] : List Word)[p.toNat]? = some (sinPattern p) := by
  revert p; decide

/-- Settles O16. -/
theorem ddcUpdateResult : Obligations.DdcUpdateResult := by
  unfold Obligations.DdcUpdateResult
  intro s hready hx
  refine ⟨_, exec_ddcUpdate_ready hready hx, complete_eq hready.1 _, ?phase, fun head hhead => ?cos,
    fun head hhead => ?sin, StickyAdds_complete_quiet _ _, fun _ => rfl⟩
  case phase => exact BitVec.toNat_add _ _
  case cos =>
    cases (getElem?_cosPattern s.block.ddcPhase).symm.trans hhead
    rfl
  case sin =>
    cases (getElem?_sinPattern s.block.ddcPhase).symm.trans hhead
    rfl

/-- Settles O17. -/
theorem ddcClearResult : Obligations.DdcClearResult := by
  unfold Obligations.DdcClearResult
  intro s hready
  exact ⟨_, exec_ddcClear_ready hready, complete_eq hready.1 _, StickyAdds_complete_quiet _ _, fun _ => rfl⟩

/-! ### The post-gain (44_post_gain R170, R171) -/

/-- The clamped product is finite, so a cast converts it. -/
theorem isfinite_clamped {w : BitVec 6} {g : BitVec 32} {v : Word} (hv : isfinite v = true) :
    isfinite (clampFS (fullScale w) (fmul (i2f g.toNat) v)) = true := by
  have hgain : isfinite (i2f g.toNat) = true := isfinite_i2f_natCast (by omega)
  have hfs := isfinite_fullScale w
  obtain ⟨hlo, hhi⟩ := clampFS_within (signBit_fullScale w) (not_isNaN_of_isfinite hfs)
    (isNaN_fmul_of_isfinite hgain hv)
  exact isfinite_of_within hfs hlo hhi

/-- Settles O21: the finite sample is clamped to a finite value, which either cast takes through an integer. -/
theorem pgEvalResult : Obligations.PgEvalResult := by
  unfold Obligations.PgEvalResult
  intro s arm other hready hx hother c clamped
  have hfin : isfinite clamped = true := isfinite_clamped ((admissible_iff _).1 hx).1
  have hout : (pgStage arm s.block s.din0).pgOut.get arm = postGain c s.din0 := PerArm.get_set_same _ _ _
  refine ⟨_, exec_pgEval_ready hready hx, complete_eq hready.1 _, PerArm.get_set_other _ hother _,
    fun hen => ?bypassed, fun hen hcast => ?plain, fun hen hcast => ?truncated, fun hen hcast => ?nearest,
    StickyAdds_complete_quiet _ _, fun _ => rfl⟩
  all_goals rw [complete_block, quiet_block, hout]
  case bypassed => rw [postGain, hen, if_neg Bool.false_ne_true]
  case plain => rw [postGain_of_pgEn _ hen, hcast, postCast_zero]
  case truncated => rw [postGain_of_pgEn _ hen, hcast]; exact castInt_of_isfinite ftrunc hfin
  case nearest => rw [postGain_of_pgEn _ hen, hcast]; exact castInt_of_isfinite frne hfin

/-! ### The decimator (45_intdump R180 to R182) -/

/-- Settles O22: the arm goes through `idStep`, whose window is the shifted one in either case. -/
theorem idUpdateResult : Obligations.IdUpdateResult := by
  unfold Obligations.IdUpdateResult
  intro s arm other hready hx hother l old h1 hlen
  have hunit : (idStage arm s.block s.din0).intDump.get arm = (idStep l old s.din0).unit :=
    PerArm.get_set_same _ _ _
  have hout : (idStage arm s.block s.din0).idOut.get arm = (idStep l old s.din0).out :=
    PerArm.get_set_same _ _ _
  have hvalid : (idStage arm s.block s.din0).flags.idValid.get arm = (idStep l old s.din0).valid :=
    PerArm.get_set_same _ _ _
  refine ⟨_, exec_idUpdate_ready hready hx, complete_eq hready.1 _, PerArm.get_set_other _ hother _,
    PerArm.get_set_other _ hother _, PerArm.get_set_other _ hother _, ?_⟩
  simp only [complete_block, quiet_block, hunit, hout, hvalid, idStep_buf]
  refine ⟨idShift_length _ h1 hlen, fun k hk => idShift_inside _ hlen hk, idShift_newest _ h1 hlen,
    fun k hk => idShift_outside _ h1 hlen hk, fun hfull => ?_, fun hpartial => ?_,
    StickyAdds_complete_quiet _ _, fun _ => rfl⟩
  · rw [idStep_full _ hfull]
    exact ⟨rfl, rfl, rfl⟩
  · rw [idStep_partial _ hpartial]
    exact ⟨rfl, rfl, rfl⟩

/-- Settles O23. -/
theorem idClearResult : Obligations.IdClearResult := by
  unfold Obligations.IdClearResult
  intro s arm other hready hother
  exact ⟨_, exec_idClear_ready hready, complete_eq hready.1 _, PerArm.get_set_same _ _ _,
    PerArm.get_set_same _ _ _, PerArm.get_set_same _ _ _, PerArm.get_set_other _ hother _,
    PerArm.get_set_other _ hother _, PerArm.get_set_other _ hother _, StickyAdds_complete_quiet _ _,
    fun _ => rfl⟩

end Sys2Proof.Machine
end

section
/-! The results of the filter's commands (43_fir R160 to R163) and of the synchronizer's (46_bitsync R190 to
R192). -/

namespace Sys2Proof.Machine

/-! ### One `FIR_UPDATE`, and `FIR_CLEAR` (43_fir R160 to R162) -/

/-- Settles O18: the arm goes through `firShift`, and `FIR_arm` is the output over the shifted history. -/
theorem firUpdateResult : Obligations.FirUpdateResult := by
  unfold Obligations.FirUpdateResult
  intro s arm other hready hx hother n old h1 hlen
  have hbuf : (firStage arm s.block s.din0).firBuf.get arm = firShift n old s.din0 := PerArm.get_set_same _ _ _
  have hout : (firStage arm s.block s.din0).firOut.get arm = firOutput s.block.active (firShift n old s.din0) :=
    PerArm.get_set_same _ _ _
  refine ⟨_, exec_firUpdate_ready hready hx, complete_eq hready.1 _, PerArm.get_set_other _ hother _,
    PerArm.get_set_other _ hother _, ?_⟩
  simp only [complete_block, quiet_block, hbuf, hout]
  exact ⟨firShift_length _ h1 hlen, firShift_zero _ _ _, fun k hk hkn => firShift_inside _ hlen hk hkn,
    fun k hk => firShift_outside _ h1 hlen hk, rfl, StickyAdds_complete_quiet _ _, fun _ => rfl⟩

/-- Settles O19. -/
theorem firClearResult : Obligations.FirClearResult := by
  unfold Obligations.FirClearResult
  intro s arm other hready hother
  exact ⟨_, exec_firClear_ready hready, complete_eq hready.1 _, PerArm.get_set_same _ _ _,
    PerArm.get_set_same _ _ _, PerArm.get_set_other _ hother _, PerArm.get_set_other _ hother _,
    StickyAdds_complete_quiet _ _, fun _ => rfl⟩

/-! ### `FIR_APPLY` (43_fir R163) -/

/-- The active part after a sequence of samples: the samples, newest first, over the old history. -/
theorem take_firHistory {c : CfgCopy} {hist : List Word} (xs : List Word) (h1 : 1 ≤ c.regs.n.toNat)
    (hlen : c.regs.n.toNat ≤ hist.length) :
    (firHistory c hist xs).take c.regs.n.toNat = (xs.reverse ++ hist).take c.regs.n.toNat := by
  induction xs generalizing hist with
  | nil => rfl
  | cons x xs ih =>
    have hshift := take_firShift x h1 hlen
    have hnext := ih (hist := firShift c.regs.n.toNat hist x) ((firShift_length x h1 hlen).symm ▸ hlen)
    calc (firHistory c hist (x :: xs)).take c.regs.n.toNat
        = (xs.reverse ++ firShift c.regs.n.toNat hist x).take c.regs.n.toNat := hnext
      _ = (xs.reverse ++ (x :: hist)).take c.regs.n.toNat := by
        have hmin := congrArg (List.take (c.regs.n.toNat - xs.reverse.length)) hshift
        rw [List.take_take, List.take_take, Nat.min_eq_left (Nat.sub_le _ _)] at hmin
        rw [List.take_append, List.take_append, hmin]
      _ = ((x :: xs).reverse ++ hist).take c.regs.n.toNat := by
        rw [List.reverse_cons, List.append_assoc, List.singleton_append]

/-- The entries past the active part stay over a sequence of samples. -/
theorem drop_firHistory {c : CfgCopy} {hist : List Word} (xs : List Word) (h1 : 1 ≤ c.regs.n.toNat)
    (hlen : c.regs.n.toNat ≤ hist.length) :
    (firHistory c hist xs).drop c.regs.n.toNat = hist.drop c.regs.n.toNat := by
  induction xs generalizing hist with
  | nil => rfl
  | cons x xs ih =>
    exact (ih ((firShift_length x h1 hlen).symm ▸ hlen)).trans (drop_firShift x h1 hlen)

/-- Settles O20: the histories start from zeros, so each output is over the inputs so far, newest first, before
zeros; `BUFMEM` holds the outputs and is otherwise unchanged. -/
theorem firApplyResult : Obligations.FirApplyResult := by
  unfold Obligations.FirApplyResult
  intro s arm other count src dst hready hother n ins past out h1 hmax hcount hsrc hdst hins
  have hins_len : ins.length = count := bulkInputs_length s src count
  have hne : ins ≠ [] := List.ne_nil_of_length_pos (by omega)
  have hzeros : n ≤ (List.replicate s.params.nTapsMax (0 : Word)).length := by rwa [List.length_replicate]
  have hout (j : Nat) : firOutput s.block.active (firHistory s.block.active
      (List.replicate s.params.nTapsMax 0) (ins.take j)) =
        dot (s.block.active.taps.take n) ((past j).take n) := by
    rw [firOutput, take_firHistory _ h1 hzeros]
  have hbuf : (firApplied s.params arm dst s.block ins).firBuf.get arm =
      firHistory s.block.active (List.replicate s.params.nTapsMax 0) ins := PerArm.get_set_same _ _ _
  have hall : ins.take count = ins := List.take_of_length_le hins_len.le
  refine ⟨_, exec_firApply_ready hready hcount hsrc hdst hins,
    complete_eq (s := { s with draws := s.draws + count }) hready.1 _, fun j hj => ?outputs,
    fun a ha => ?outside, ?last, ?history, ?rest, PerArm.get_set_other _ hother _,
    PerArm.get_set_other _ hother _, StickyAdds_complete_quiet _ _⟩
  case outputs =>
    have hj' : j < ins.length := hins_len.symm ▸ hj
    simp only [complete_block, quiet_block, firApplied, wordAt_bufWriteAll, firOutputs_length,
      bulkInputs_length]
    rw [if_pos (by omega), Nat.add_sub_cancel_left, firOutputs_getElem? _ _ _ hj', hout]
  case outside =>
    exact byteAt_bufWriteAll_outside _ _ _ _ (by rwa [firOutputs_length, bulkInputs_length])
  case last =>
    have hlast := hout count
    rw [hall] at hlast
    change ((s.block.firOut.set arm _).get arm) = dot _ ((past (count - 1 + 1)).take n)
    rw [PerArm.get_set_same, firOutputs_getLastD _ _ hne, hlast, Nat.sub_add_cancel hcount]
  case history =>
    rw [complete_block, quiet_block, hbuf, take_firHistory ins h1 hzeros]
    change _ = ((ins.take count).reverse ++ _).take n
    rw [hall]
  case rest =>
    rw [complete_block, quiet_block, hbuf, drop_firHistory ins h1 hzeros, List.drop_replicate]

/-! ### The synchronizer (46_bitsync R190 to R192) -/

/-- The code of a decision is the two's complement of its sign (46_bitsync R192). -/
theorem decisionCode_sgn (v : Word) : decisionCode (sgn v) = BitVec.ofInt 2 (sgn v) := by
  unfold sgn
  split_ifs <;> rfl

theorem bsEmits_iff (b : Block) (v : Bool) :
    bsEmits b v = true ↔ v = true ∧ b.bs.phase = .sampling ∧ b.bs.scnt = 0 := by
  rw [bsEmits, Bool.and_eq_true, Bool.and_eq_true, beq_iff_eq, beq_iff_eq, and_assoc]

/-- What an input leaves that emits no bit: the last decisions and the count of bits stay. -/
theorem bsStage_of_not_emits {b : Block} {v : Bool} (h : bsEmits b v = false) (x y : Word) :
    (bsStage b x y v).flags = { b.flags with bitValid := false } ∧ (bsStage b x y v).bitCount = b.bitCount := by
  simp [bsStage, bsFlags, h]

theorem bsStage_of_emits {b : Block} {v : Bool} (h : bsEmits b v = true) (x y : Word) :
    (bsStage b x y v).flags = { b.flags with bitI := BitVec.ofInt 2 (sgn x), bitQ := BitVec.ofInt 2 (sgn y),
                                             bitValid := true } ∧
      (bsStage b x y v).bitCount = b.bitCount + 1 := by
  simp [bsStage, bsFlags, h, decisionCode_sgn]

theorem bsFlags_idValid (emits : Bool) (f : Flags) (x y : Word) : (bsFlags emits f x y).idValid = f.idValid := by
  cases emits <;> rfl

/-- Settles O25: an input emits exactly if it is valid, in `Sampling`, at stride position 0. -/
theorem bsyncUpdateResult : Obligations.BsyncUpdateResult := by
  unfold Obligations.BsyncUpdateResult
  intro s v hready hx hy b
  have hquiet (h : bsEmits b v = false) : (bsStage b s.din0 s.din1 v).flags = { b.flags with bitValid := false } ∧
      (bsStage b s.din0 s.din1 v).bitCount = b.bitCount ∧
      StickyAdds [.cmdDone] s (complete { block := bsStage b s.din0 s.din1 v, agcDegen := false,
                                          bitReady := bsEmits b v } s) := by
    obtain ⟨hflags, hcount⟩ := bsStage_of_not_emits h s.din0 s.din1
    exact ⟨hflags, hcount, StickyAdds_complete_of (degen := false) (ready := false) rfl h s⟩
  refine ⟨_, exec_bsyncUpdate_ready hready hx hy, complete_eq hready.1 _, bsFlags_idValid _ _ _ _,
    fun hv => ?invalid, fun hv => if_pos hv, fun hv hphase => ?settling, fun hv hphase => ?advance,
    fun hv hphase hpos => ?emission, fun hv hphase hpos => ?discarded, fun _ => rfl⟩
  case invalid =>
    subst hv
    obtain ⟨hflags, hcount, hsticky⟩ := hquiet rfl
    exact ⟨rfl, hflags, rfl, hcount, hsticky⟩
  case settling =>
    subst hv
    refine ⟨?_, hquiet (by rw [Bool.eq_false_iff, ne_eq, bsEmits_iff]; simp [b, hphase])⟩
    have hlast : b.bs.dcnt - 1 = 0 ↔ b.bs.dcnt = 1 := sub_eq_zero
    simp only [complete_block, bsStage, bsAdvance_awaitingSettle _ hphase, hlast, b]
  case advance =>
    subst hv
    exact bsAdvance_sampling _ hphase
  case emission =>
    have hemits := (bsEmits_iff b v).2 ⟨hv, hphase, hpos⟩
    obtain ⟨hflags, hcount⟩ := bsStage_of_emits hemits s.din0 s.din1
    exact ⟨hflags, hcount, StickyAdds_complete_of (degen := false) (ready := true) rfl hemits s⟩
  case discarded =>
    exact hquiet (by rw [Bool.eq_false_iff, ne_eq, bsEmits_iff]; exact fun h => hpos h.2.2)

theorem bsInitial_phase_iff (d : BitVec 32) : (bsInitial d).phase = .sampling ↔ d = 0 := by
  by_cases h : d = 0
  · exact iff_of_true (if_pos h) h
  · refine iff_of_false (fun hphase => ?_) h
    rw [bsInitial, if_neg h] at hphase
    cases hphase

/-- Settles O26. -/
theorem bsyncClearResult : Obligations.BsyncClearResult := by
  unfold Obligations.BsyncClearResult
  intro s hready
  exact ⟨_, exec_bsyncClear_ready hready, complete_eq hready.1 _, bsInitial_phase_iff _,
    StickyAdds_complete_quiet _ _, fun _ => rfl⟩

end Sys2Proof.Machine
end

section
/-! The results of the composite commands (47_core R201 to R203), the operands that a command turns away
(60_exceptions R223), and what no command changes. -/

namespace Sys2Proof.Machine

/-! ### `CLEAR_ALL` and `CFG_COMMIT` (47_core R201, R202) -/

/-- Settles O27. -/
theorem clearAllResult : Obligations.ClearAllResult := by
  unfold Obligations.ClearAllResult
  intro s hready
  exact ⟨_, exec_clearAll_ready hready, complete_eq hready.1 _, StickyAdds_complete_quiet _ _, fun _ => rfl⟩

/-- Settles O28: a staged configuration whose fields are all legal has no fault, so it is committed. -/
theorem cfgCommitOfLegalConfiguration : Obligations.CfgCommitOfLegalConfiguration := by
  unfold Obligations.CfgCommitOfLegalConfiguration
  intro s hready c hw2 hw53 hg hcast hk2 hkmax hfin hlow hhigh hn1 hnmax htaps hl1 hlmax hstride
  have hlegal : s.staged.Legal s.params :=
    { w := ⟨hw2, hw53⟩, g := hg, pgCast := hcast, k := ⟨hk2, hkmax⟩, nsigma := ⟨hfin, hlow, hhigh⟩
      n := ⟨hn1, hnmax⟩, taps := htaps, l := ⟨hl1, hlmax⟩, s := hstride }
  have hfault := (configFault_eq_zero_iff_legal s.params s.staged).2 hlegal
  exact ⟨_, exec_cfgCommit_ready hready hfault, complete_eq hready.1 _, StickyAdds_complete_quiet _ _,
    fun _ => rfl⟩

/-- Settles O29: the fault has a bit, so the command is rejected, and its bits are those of the illegal fields. -/
theorem cfgCommitOfIllegalConfiguration : Obligations.CfgCommitOfIllegalConfiguration := by
  unfold Obligations.CfgCommitOfIllegalConfiguration
  rintro s hidle c nLegal illegal ⟨k, hk⟩
  have hbits (k : Nat) : (configFault s.params s.staged).getLsbD k = true ↔ illegal k :=
    getLsbD_configFault s.params s.staged k
  have hfault : configFault s.params s.staged ≠ 0 := fun hzero =>
    (configFault_eq_zero_iff s.params s.staged).1 hzero k hk
  have hresult : commandResult .cfgCommit s = .error (.cfg (configFault s.params s.staged)) := by
    rw [commandResult, if_neg hfault]
  have hword : encode .cfgCommit = 0x0000000000000003 := by decide
  refine ⟨_, exec_rejected hidle hresult, ?_, hbits, StickyAdds_of_setSticky (reject_sticky _ _ _), fun _ => rfl⟩
  rw [hword]
  rfl

/-! ### `STEP` (47_core R203) -/

/-- The value that the pipeline's mixer leaves for an arm. -/
def pipelineMixed (b : Block) (x : Word) (arm : Arm) : Word :=
  fmul (agcOutput b.active.regs (agcPush b.active.regs b.agc x).agc x)
    (match arm with
      | .i => cosPattern b.ddcPhase
      | .q => sinPattern b.ddcPhase)

/-- The history that the pipeline leaves in an arm's filter. -/
def pipelineHistory (b : Block) (x : Word) (arm : Arm) : List Word :=
  firShift b.active.regs.n.toNat (b.firBuf.get arm) (pipelineMixed b x arm)

/-- The value that the pipeline's post-gain stage leaves for an arm. -/
def pipelineGained (b : Block) (x : Word) (arm : Arm) : Word :=
  postGain b.active.regs (firOutput b.active (pipelineHistory b x arm))

/-- What the pipeline's decimator of an arm answers. -/
def pipelineDumped (b : Block) (x : Word) (arm : Arm) : IdStepped :=
  idStep b.active.regs.l.toNat (b.intDump.get arm) (pipelineGained b x arm)

/-- The bits after a completion. -/
theorem hasSticky_complete_iff (e : Effects) (s : State) (ev : Cause) :
    hasSticky ev (complete e s).sticky = true ↔
      hasSticky ev s.sticky = true ∨ ev = .cmdDone ∨ (ev = .agcDegen ∧ e.agcDegen = true) ∨
        (ev = .bitReady ∧ e.bitReady = true) := by
  rw [complete_sticky, hasSticky_completionSticky]
  simp only [Bool.or_eq_true, Bool.and_eq_true, decide_eq_true_eq]
  tauto

/-- A value of each arm. -/
def perArm {α : Type} (f : Arm → α) : PerArm α := { i := f .i, q := f .q }

/-- The pipeline up to the decimators in one record: each stage reads what its predecessor left, and no later
stage changes it. -/
theorem pipelineFront_eq (b : Block) (x : Word) : pipelineFront b x =
    { b with
      agc := (agcPush b.active.regs b.agc x).agc
      agcOut := agcOutput b.active.regs (agcPush b.active.regs b.agc x).agc x
      ddcPhase := b.ddcPhase + 1
      mix := perArm (pipelineMixed b x)
      firBuf := perArm (pipelineHistory b x)
      firOut := perArm fun arm => firOutput b.active (pipelineHistory b x arm)
      pgOut := perArm (pipelineGained b x)
      intDump := perArm fun arm => (pipelineDumped b x arm).unit
      idOut := perArm fun arm => (pipelineDumped b x arm).out
      flags := { b.flags with idValid := perArm fun arm => (pipelineDumped b x arm).valid } } := by
  simp only [pipelineFront, agcStage, ddcStage, firStage, pgStage, idStage, PerArm.get_i, PerArm.get_q,
    PerArm.set_i, PerArm.set_q, perArm, pipelineDumped, pipelineGained, pipelineHistory, pipelineMixed]

/-- Whether the synchronizer emits a bit in `STEP`. -/
theorem bsEmits_pipelineFront_iff (b : Block) (x : Word) :
    bsEmits (pipelineFront b x) (pipelineFront b x).flags.idValid.i = true ↔
      (pipelineDumped b x .i).valid = true ∧ b.bs.phase = .sampling ∧ b.bs.scnt = 0 := by
  rw [bsEmits_iff, pipelineFront_eq]
  rfl

/-- The synchronizer's part of `STEP`: the emitted bit and its decisions, or the last ones kept. -/
theorem stepped_of_emits {b : Block} {x : Word}
    (h : bsEmits (pipelineFront b x) (pipelineFront b x).flags.idValid.i = true) :
    (stepped b x).block.bitCount = b.bitCount + 1 ∧ (stepped b x).block.flags.bitValid = true ∧
      (stepped b x).block.flags.bitI = BitVec.ofInt 2 (sgn (pipelineDumped b x .i).out) ∧
      (stepped b x).block.flags.bitQ = BitVec.ofInt 2 (sgn (pipelineDumped b x .q).out) := by
  obtain ⟨hflags, hcount⟩ := bsStage_of_emits h (pipelineFront b x).idOut.i (pipelineFront b x).idOut.q
  simp only [stepped, hflags, hcount]
  simp only [pipelineFront_eq, perArm, and_self]

theorem stepped_of_not_emits {b : Block} {x : Word}
    (h : bsEmits (pipelineFront b x) (pipelineFront b x).flags.idValid.i = false) :
    (stepped b x).block.bitCount = b.bitCount ∧ (stepped b x).block.flags.bitValid = false ∧
      (stepped b x).block.flags.bitI = b.flags.bitI ∧ (stepped b x).block.flags.bitQ = b.flags.bitQ := by
  obtain ⟨hflags, hcount⟩ := bsStage_of_not_emits h (pipelineFront b x).idOut.i (pipelineFront b x).idOut.q
  simp only [stepped, hflags, hcount]
  simp only [pipelineFront_eq, perArm, and_self]

/-- What `STEP` leaves besides the decisions and `BIT_COUNT`. -/
theorem stepped_block_eq (b : Block) (x : Word) : (stepped b x).block =
    { pipelineFront b x with
      bs := bsAdvance b.active.regs.s.toNat b.bs (pipelineDumped b x .i).valid
      validCount := if (pipelineDumped b x .i).valid then b.validCount + 1 else b.validCount
      bitCount := (stepped b x).block.bitCount
      flags := { (stepped b x).block.flags with idValid := perArm fun arm => (pipelineDumped b x arm).valid }
      sampleCount := b.sampleCount + 1 } := by
  have hvalid : (stepped b x).block.flags.idValid = perArm fun arm => (pipelineDumped b x arm).valid := by
    simp only [stepped, bsStage, bsFlags_idValid, pipelineFront_eq]
  rw [← hvalid]
  simp only [stepped, bsStage, pipelineFront_eq]
  rfl

/-- Settles O30: the block after `STEP` is the pipeline's with the synchronizer's part, whose decisions and
`BIT_COUNT` depend on whether a bit is emitted. -/
theorem stepCommandResult : Obligations.StepCommandResult := by
  unfold Obligations.StepCommandResult
  intro s hready hx b c agc a mixed hist filtered gained dumped valid emits
  have hemits : bsEmits (pipelineFront b s.din0) (pipelineFront b s.din0).flags.idValid.i = true ↔ emits :=
    bsEmits_pipelineFront_iff b s.din0
  have hblock := stepped_block_eq b s.din0
  rw [pipelineFront_eq] at hblock
  refine ⟨_, exec_step_ready hready hx, ?frame, ?_⟩
  case frame =>
    have hframe : (stepped b s.din0).block = { (stepped b s.din0).block with
        active := b.active, cfgFault := b.cfgFault, mem := b.mem } := by rw [hblock]
    rw [complete_block, ← hframe]
    exact complete_eq hready.1 _
  rw [complete_block]
  refine ⟨?agc, ?agcOut, ?phase, fun arm => ?arms, ?bs, ?validCount, fun h => ?emission, fun h => ?noEmission,
    ?sampleCount, fun ev => ?events, fun addr => ?mem⟩
  case emission => exact stepped_of_emits (hemits.2 h)
  case noEmission => exact stepped_of_not_emits (by rwa [Bool.eq_false_iff, ne_eq, hemits])
  case events =>
    have hready : (stepped b s.din0).bitReady = true ↔ emits := hemits
    have hdegen : (stepped b s.din0).agcDegen = agc.degenerate := rfl
    rw [← hready, ← hdegen]
    exact hasSticky_complete_iff _ _ _
  case validCount =>
    rw [hblock]
    change (if valid then b.validCount + 1 else b.validCount) = _
    cases valid <;> simp
  case phase => rw [hblock]; exact BitVec.toNat_add _ _
  case mem => rw [complete_block, hblock]
  case arms => rw [hblock]; cases arm <;> exact ⟨rfl, rfl, rfl, rfl, rfl, rfl, rfl⟩
  case agc => exact congrArg Block.agc hblock
  case agcOut => exact congrArg Block.agcOut hblock
  case bs => exact congrArg Block.bs hblock
  case sampleCount => exact congrArg Block.sampleCount hblock

theorem stepped_cfgFault (b : Block) (x : Word) : (stepped b x).block.cfgFault = b.cfgFault := by
  rw [stepped_block_eq, pipelineFront_eq]

/-! ### Operands that are not admissible (60_exceptions R223) -/

/-- A command that reads no bulk input draws no free value. -/
theorem exec_rejectedOperand {i : Instr} {s : State} (hidle : s.Idle)
    (hr : commandResult i s = .error .operand) (hreads : readsOf i = 0) :
    ∃ t, exec i s = .next t ∧ RejectedWith .operand (encode i) s t ∧ t.draws = s.draws := by
  obtain ⟨t, ht, hrejected⟩ := exec_rejectedWith hidle hr (by simp)
  refine ⟨t, ht, hrejected, ?_⟩
  cases (exec_rejected hidle hr).symm.trans ht
  rw [reject_draws, hreads]
  rfl

/-- Settles O31: every sample command checks `DIN0`, and `BSYNC_UPDATE` checks both operands. -/
theorem inadmissibleOperandRejected : Obligations.InadmissibleOperandRejected := by
  unfold Obligations.InadmissibleOperandRejected
  rintro s i hidle (⟨⟨arm, hi⟩, hx⟩ | ⟨⟨v, rfl⟩, hxy⟩)
  · simp only [List.mem_cons, List.not_mem_nil, or_false] at hi
    rcases hi with rfl | rfl | rfl | rfl | rfl | rfl <;>
      exact exec_rejectedOperand hidle (by rw [commandResult]; exact withSample_error hx) rfl
  · exact exec_rejectedOperand hidle (by rw [commandResult]; exact withSamplePair_error hxy) rfl

/-- Settles O34: length and range are right, so the check of the inputs decides. -/
theorem inadmissibleBulkInputRejected : Obligations.InadmissibleBulkInputRejected := by
  unfold Obligations.InadmissibleBulkInputRejected
  rintro s arm count src dst hidle l hsrc ⟨j, hj, hadm⟩
  have hinput : ∃ x ∈ bulkInputs s src count, admissible x = false :=
    ⟨_, List.mem_of_getElem? (bulkInputs_getElem? s src count j hj), hadm⟩
  refine ⟨fun hdst => ?firApply, fun hl hcount hdst => ?idApply⟩
  case firApply =>
    refine exec_rejectedWith (r := .operand) hidle ?_ (by simp)
    rw [commandResult_firApply, withBulk_operand (by omega) hsrc hdst hinput]
  case idApply =>
    refine exec_rejectedWith (r := .operand) hidle ?_ (by simp)
    rw [commandResult_idApply, withBulk_operand (Nat.div_pos hcount hl) hsrc hdst hinput]

/-! ### What no command changes -/

/-- Issuing a command clears no sticky bit (60_exceptions R233). -/
theorem hasSticky_issue_of_hasSticky {c : Cause} (i : Instr) (r : Except Rejection Effects) {s : State}
    (h : hasSticky c s.sticky = true) : hasSticky c (issue i r s).sticky = true := by
  obtain ⟨p, -, hr⟩ | ⟨-, e, -, hr⟩ | ⟨-, -, e, -, hr⟩ | ⟨-, -, e, -, hr⟩ := issue_cases i r s
  all_goals rw [hr]
  case inr.inr.inl => simp [hasSticky_completionSticky, h]
  all_goals simp [h]

/-- Only `CFG_COMMIT` changes the active configuration and `CFG_FAULT`. -/
theorem Accepted.active_cfgFault {s : State} {i : Instr} {e : Effects} (h : Accepted s i e)
    (hi : i ≠ .cfgCommit) : e.block.active = s.block.active ∧ e.block.cfgFault = s.block.cfgFault := by
  cases h
  case cfgCommit => exact absurd rfl hi
  case step => exact ⟨stepped_active _ _, stepped_cfgFault _ _⟩
  all_goals exact ⟨rfl, rfl⟩

/-- Only the bulk commands write to `BUFMEM`. -/
theorem Accepted.mem {s : State} {i : Instr} {e : Effects} (h : Accepted s i e)
    (hfir : ∀ arm count src dst, i ≠ .firApply arm count src dst)
    (hid : ∀ count src dst, i ≠ .idApply count src dst) : e.block.mem = s.block.mem := by
  cases h
  case firApply => exact absurd rfl (hfir _ _ _ _)
  case idApply => exact absurd rfl (hid _ _ _)
  case step => exact stepped_mem _ _
  all_goals rfl

/-- Only `CFG_COMMIT` is rejected with a configuration fault. -/
theorem commandResult_ne_cfg {s : State} {i : Instr} (hi : i ≠ .cfgCommit) (f : BitVec 9) :
    commandResult i s ≠ .error (.cfg f) := by
  have hsample (g : Word → Effects) : withSample s g ≠ .error (.cfg f) := by
    unfold withSample; split <;> simp
  have hpair (g : Word → Word → Effects) : withSamplePair s g ≠ .error (.cfg f) := by
    unfold withSamplePair; split <;> simp
  have hbulk (count src dst outputs : Nat) (g : List Word → Effects) :
      withBulk s count src dst outputs g ≠ .error (.cfg f) := by
    obtain ⟨-, hr⟩ | hr | hr | ⟨-, -, -, -, hr⟩ := withBulk_cases s count src dst outputs g <;> simp [hr]
  cases i <;> rw [commandResult]
  case cfgCommit => exact absurd rfl hi
  case firApply | idApply => exact hbulk _ _ _ _ _
  case bsyncUpdate => exact hpair _
  case step | agcUpdate | ddcUpdate | firUpdate | pgEval | idUpdate => exact hsample _
  all_goals simp

/-- The block after issuing a command: the same, a new `CFG_FAULT`, or the block of accepted effects. -/
theorem issue_block_cases (i : Instr) (s : State) :
    (issue i (commandResult i s) s).block = s.block ∨
    (∃ f, commandResult i s = .error (.cfg f) ∧
      (issue i (commandResult i s) s).block = { s.block with cfgFault := f }) ∨
    ∃ e, Accepted s i e ∧ (issue i (commandResult i s) s).block = e.block := by
  obtain ⟨p, -, hr⟩ | ⟨-, e, he, hr⟩ | ⟨-, -, e, he, hr⟩ | ⟨-, -, e, -, hr⟩ := issue_cases i (commandResult i s) s
  case inl => exact .inl (by rw [hr, raise_block])
  case inr.inl =>
    obtain hb | ⟨f, rfl, hb⟩ := reject_block e (encode i) { s with draws := s.draws + readsOf i }
    · exact .inl (by rw [hr, hb])
    · exact .inr (.inl ⟨f, he, by rw [hr, hb]⟩)
  case inr.inr.inl => exact .inr (.inr ⟨e, accepted_iff.2 he, by rw [hr, complete_block]⟩)
  case inr.inr.inr => exact .inl (by rw [hr, accept_block])

/-- Settles O35: issuing leaves the host's registers alone in each outcome, and the block it leaves is the same
or that of the command's effects. -/
theorem commandFrame : Obligations.CommandFrame := by
  unfold Obligations.CommandFrame
  intro i s t hexec
  rw [exec_eq_issue] at hexec
  cases hexec
  refine ⟨issue_params _ _ _, issue_staged _ _ _, issue_din0 _ _ _, issue_din1 _ _ _, issue_irqEn _ _ _,
    issue_errAccess _ _ _, issue_moves _ _ _, issue_readData _ _ _,
    fun c hc => hasSticky_issue_of_hasSticky i _ hc, fun hi => ?config, fun hfir hid a => ?memory⟩
  case config =>
    obtain hb | ⟨f, hf, -⟩ | ⟨e, he, hb⟩ := issue_block_cases i s
    · rw [hb]; exact ⟨rfl, rfl⟩
    · exact absurd hf (commandResult_ne_cfg hi f)
    · rw [hb]; exact he.active_cfgFault hi
  case memory =>
    obtain hb | ⟨f, -, hb⟩ | ⟨e, he, hb⟩ := issue_block_cases i s
    · rw [hb]
    · rw [hb]
    · rw [hb, he.mem hfir hid]

end Sys2Proof.Machine
end

section
/-! Host accesses (20_memory R73 to R82): what a read returns, idle or busy, and what an idle write stores. -/

namespace Sys2Proof.Machine

/-! ### Reads (R73, R78, R82) -/

theorem readLoc_exact {s : State} {l : Loc} (h : readIsFree s l = false) :
    readLoc l s = { s with readData := locWord s l } := by simp [readLoc, h]

theorem readLoc_free {s : State} {l : Loc} (h : readIsFree s l = true) :
    readLoc l s = { s with readData := Config.freeWord s.draws, draws := s.draws + 1 } := by simp [readLoc, h]

/-- No location shows the schedule. -/
theorem locWord_withMoves (s : State) (ms : List Move) (l : Loc) :
    locWord { s with moves := ms } l = locWord s l := by cases l <;> rfl

theorem readIsFree_idle_of_ne_buf {s : State} (h : s.pending = none) {l : Loc} (hl : ∀ i, l ≠ .buf i) :
    readIsFree s l = false := by
  have hbusy : s.busy = false := by simp [State.busy, h]
  cases l
  case buf i => exact absurd rfl (hl i)
  all_goals simp [readIsFree, hbusy]

theorem readIsFree_idle_buf {s : State} (h : s.pending = none) (i : Nat) :
    readIsFree s (.buf i) = !written s.block.mem i := by
  simp [readIsFree, State.busy, h]

theorem readIsFree_busy {s : State} {p : Pending} (h : s.pending = some p) (l : Loc) :
    readIsFree s l = hiddenWhileBusy l := by
  cases l <;> simp [readIsFree, State.busy, h, hiddenWhileBusy]

theorem written_of_wordAt {m : Memory} {i : Nat} {v : Word} (h : wordAt m (bufOffset i) = some v) :
    written m i = true := by simp [written, h]

theorem bufRead_of_wordAt {m : Memory} {i : Nat} {v : Word} (h : wordAt m (bufOffset i) = some v) (draw : Nat) :
    bufRead m i draw = v := by simp [bufRead, h]

/-- A read of a mapped offset is legal. -/
theorem step_read {s : State} {o : Offset} {l : Loc} {rest : List Move}
    (hm : s.moves = .host (readAccess o) :: rest) (hl : locate s.params o.toNat = some l) :
    step s = .next (readLoc l { s with moves := rest }) := by
  rw [step_host hm]
  exact hostAccess_read (by simpa [legalTarget, readAccess] using hl) rfl

/-- Settles O37: an idle read is free only of an entry that nothing has written. -/
theorem idleReadsAreExactAndSideEffectFree : Obligations.IdleReadsAreExactAndSideEffectFree := by
  unfold Obligations.IdleReadsAreExactAndSideEffectFree
  intro s o l rest hidle hmoves hl
  refine ⟨_, step_read hmoves hl, ?frame, fun hbuf => ?register, fun i v hi hv => ?written,
    fun i hi hw => ?unwritten⟩
  case frame => rw [readLoc_frame]
  case register =>
    rw [readLoc_exact (readIsFree_idle_of_ne_buf (s := { s with moves := rest }) hidle hbuf), locWord_withMoves]
    exact ⟨rfl, rfl⟩
  case written =>
    subst hi
    have hexact : readIsFree { s with moves := rest } (.buf i) = false := by
      rw [readIsFree_idle_buf (s := { s with moves := rest }) hidle i]
      simp [written_of_wordAt hv]
    rw [readLoc_exact hexact]
    exact ⟨bufRead_of_wordAt hv _, rfl⟩
  case unwritten =>
    subst hi
    have hfree : readIsFree { s with moves := rest } (.buf i) = true := by
      rw [readIsFree_idle_buf (s := { s with moves := rest }) hidle i]
      simp [hw]
    rw [readLoc_free hfree]
    exact ⟨rfl, rfl⟩

/-- The hidden locations of the fixed part: `CFG_FAULT`, `ACT_*`, the result and the readback registers. -/
theorem registerMap_hidden_iff : ∀ e ∈ registerMap, hiddenWhileBusy e.2 = true ↔
    e.1 = 0x048 ∨ (0x100 ≤ e.1 ∧ e.1 ≤ 0x140) ∨ (0x180 ≤ e.1 ∧ e.1 ≤ 0x1C8) ∨ (0x200 ≤ e.1 ∧ e.1 ≤ 0x250) := by
  decide

/-- The location at an offset is hidden while busy exactly at the hidden offsets (R78). -/
theorem hiddenWhileBusy_iff_of_locate {p : Params} (hp : p.Legal) {o : Nat} {l : Loc}
    (h : locate p o = some l) : hiddenWhileBusy l = true ↔ hiddenOffset p o := by
  have hmapped := mappedOffset_of_locate h
  have htaps : p.nTapsMax ≤ 512 := hp.2.1.2
  rw [hiddenOffset, and_iff_right hmapped]
  obtain he | ⟨k, hk, rfl, rfl⟩ | ⟨k, hk, rfl, rfl⟩ | ⟨i, hi, rfl, rfl⟩ := locate_cases h
  case inl =>
    have hfixed : fixedOffset o := registerMap_fixedOffset _ he
    rw [registerMap_hidden_iff _ he]
    omega
  all_goals simp only [hiddenWhileBusy, bufOffset]; grind

/-- Settles O38: a busy read is free exactly at the hidden offsets. -/
theorem busyReadsOfComputedStateAreFree : Obligations.BusyReadsOfComputedStateAreFree := by
  unfold Obligations.BusyReadsOfComputedStateAreFree
  intro s p o rest hp hpending hmoves hmapped
  obtain ⟨l, hl⟩ := exists_locate_of_mappedOffset hp hmapped
  have hiff := hiddenWhileBusy_iff_of_locate hp hl
  have hbusy : readIsFree { s with moves := rest } l = hiddenWhileBusy l :=
    readIsFree_busy (s := { s with moves := rest }) hpending l
  refine ⟨_, step_read hmoves hl, by rw [readLoc_frame], fun hhidden => ?hidden, fun hvisible => ?visible⟩
  case hidden =>
    rw [readLoc_free (hbusy.trans (hiff.2 hhidden))]
    exact ⟨rfl, rfl⟩
  case visible =>
    have hexact : readIsFree { s with moves := rest } l = false := by
      rw [hbusy, Bool.eq_false_iff, ne_eq, hiff]
      exact hvisible
    rw [readLoc_exact hexact, locWord_withMoves]
    exact ⟨l, hl, rfl, rfl⟩

/-! ### Writes to the configuration and the operands (10_state R26, R27, R30 to R39, R42) -/

/-- The low bits of a word as a register: the bits above read 0. -/
theorem zeroExtend_extractLsb' {n : Nat} (h : n ≤ 64) (v : Word) :
    (v.extractLsb' 0 n).zeroExtend 64 = v &&& BitVec.ofNat 64 (2 ^ n - 1) := by
  apply BitVec.eq_of_toNat_eq
  have hpow : 2 ^ n ≤ 2 ^ 64 := Nat.pow_le_pow_right Nat.two_pos h
  have hpos : 0 < 2 ^ n := by positivity
  rw [BitVec.toNat_setWidth_of_le h, BitVec.extractLsb'_toNat, Nat.shiftRight_zero, BitVec.toNat_and,
    BitVec.toNat_ofNat, Nat.mod_eq_of_lt (a := 2 ^ n - 1) (by omega), Nat.and_two_pow_sub_one_eq_mod]

/-- The writable bits of a configuration register (10_state R31 to R39). -/
def cfgMask : CfgReg → Word
  | .bitWidth => 0x3F
  | .bitGain => 0xFFFFFFFF
  | .ctrl => 0x7
  | .agcLen => 0xFFFF
  | .agcNsigma => 0xFFFFFFFFFFFFFFFF
  | .nTaps => 0xFFFF
  | .idLen => 0xFFFF
  | .bsDelay => 0xFFFFFFFF
  | .bsStride => 0xFFFFFFFF

theorem cfgWord_setCfg_ctrl (c : CfgRegs) (v : Word) : cfgWord (setCfg c .ctrl v) .ctrl = v &&& 0x7 := by
  apply BitVec.eq_of_toNat_eq
  have hbit : (v.getLsbD 0).toNat = v.toNat % 2 := by
    rw [BitVec.getLsbD, Nat.testBit_zero]
    rcases Nat.mod_two_eq_zero_or_one v.toNat with h | h <;> simp [h]
  have hmask : (v &&& 0x7).toNat = v.toNat % 2 ^ 3 := by
    rw [BitVec.toNat_and, ← Nat.and_two_pow_sub_one_eq_mod]
    rfl
  rw [toNat_cfgWord_ctrl, hmask]
  simp only [setCfg, hbit, BitVec.extractLsb'_toNat, Nat.shiftRight_eq_div_pow]
  omega

/-- What a configuration register reads after a write to it. -/
theorem cfgWord_setCfg_same (c : CfgRegs) (r : CfgReg) (v : Word) :
    cfgWord (setCfg c r v) r = v &&& cfgMask r := by
  cases r
  case ctrl => exact cfgWord_setCfg_ctrl c v
  case agcNsigma => exact (BitVec.and_allOnes (x := v)).symm
  all_goals exact zeroExtend_extractLsb' (by decide) v

theorem cfgWord_setCfg_other (c : CfgRegs) {r r' : CfgReg} (h : r' ≠ r) (v : Word) :
    cfgWord (setCfg c r v) r' = cfgWord c r' := by
  cases r <;> cases r' <;> first | rfl | exact absurd rfl h

/-- The configuration registers stand from `0x080` on in the order of the list, which has their masks. -/
theorem cfgReg_of_getElem? {k : Nat} {r : CfgReg} {mask : Word}
    (h : ([(CfgReg.bitWidth, 0x3F), (.bitGain, 0xFFFFFFFF), (.ctrl, 0x7), (.agcLen, 0xFFFF),
      (.agcNsigma, 0xFFFFFFFFFFFFFFFF), (.nTaps, 0xFFFF), (.idLen, 0xFFFF), (.bsDelay, 0xFFFFFFFF),
      (.bsStride, 0xFFFFFFFF)] : List (CfgReg × Word))[k]? = some (r, mask)) :
    registerMap.lookup (BitVec.ofNat 17 (0x080 + 8 * k)).toNat = some (.cfg r) ∧
      (BitVec.ofNat 17 (0x080 + 8 * k)).toNat % 8 = 0 ∧ mask = cfgMask r := by
  have hk : k < 9 := (List.getElem?_eq_some_iff.1 h).1
  interval_cases k <;> (cases h; decide)

theorem toNat_ofNat_offset {n : Nat} (h : n < 2 ^ 17) : (BitVec.ofNat 17 n).toNat = n := by
  rw [BitVec.toNat_ofNat, Nat.mod_eq_of_lt h]

/-- An idle write to a register of the fixed part of the map. -/
theorem step_idle_write_register {s : State} {o : Offset} {v : Word} {rest : List Move} {l : Loc}
    (hi : s.Idle) (hm : s.moves = .host (writeAccess o v) :: rest) (halign : o.toNat % 8 = 0)
    (hl : registerMap.lookup o.toNat = some l) (hw : writable l = true) (hc : l ≠ .cmd) :
    step s = .next (storeLoc l v { s with moves := rest }) :=
  step_idle_write hi hm (locate_of_registerMap halign hl) hw hc

/-- Settles O39: the store goes to the one register or tap, and a configuration register keeps the bits of its
mask. -/
theorem configurationWritesAreStaged : Obligations.ConfigurationWritesAreStaged := by
  unfold Obligations.ConfigurationWritesAreStaged
  intro s v rest hidle
  refine ⟨fun k r mask hk hmoves => ?cfg, fun k hp hk hlen hmoves => ?tap, fun hmoves => ?din0,
    fun hmoves => ?din1, fun hmoves => ?irqEn⟩
  case cfg =>
    obtain ⟨hlookup, halign, rfl⟩ := cfgReg_of_getElem? hk
    exact ⟨_, step_idle_write_register hidle hmoves halign hlookup rfl (by simp), rfl,
      cfgWord_setCfg_same _ r v, fun r' hr' => cfgWord_setCfg_other _ hr' v, fun r' => rfl⟩
  case tap =>
    have hmax : s.params.nTapsMax ≤ 512 := hp.2.1.2
    have hl : locate s.params (BitVec.ofNat 17 (0x1000 + 8 * k)).toNat = some (.tapStage k) := by
      rw [toNat_ofNat_offset (by omega), locate_tapStage hk]
    have hbound : k < s.staged.taps.length := by omega
    exact ⟨_, step_idle_write hidle hmoves hl rfl (by simp), rfl, List.length_set,
      List.getElem?_set_self hbound, fun j hj => List.getElem?_set_ne hj.symm⟩
  case din0 => exact step_idle_write_register (l := .din0) hidle hmoves (by decide) (by decide) rfl (by simp)
  case din1 => exact step_idle_write_register (l := .din1) hidle hmoves (by decide) (by decide) rfl (by simp)
  case irqEn =>
    refine ⟨_, step_idle_write_register (l := .irqEn) hidle hmoves (by decide) (by decide) rfl (by simp), rfl,
      fun b hb => ?_⟩
    change (v.extractLsb' 1 10).getLsbD b = _
    rw [BitVec.getLsbD_extractLsb', decide_eq_true hb, Bool.true_and, Nat.add_comm]

/-! ### Writes to `BUFMEM` (20_memory R71, R74, R80 to R82) -/

/-- Settles O43: the entry holds the bytes of the value, so it counts as written and reads back. -/
theorem bufferWriteIsReadBack : Obligations.BufferWriteIsReadBack := by
  unfold Obligations.BufferWriteIsReadBack
  intro s i v rest hidle hi hp o hmoves
  have hdepth : s.params.bufDepth ≤ 8192 := hp.2.2.2.2
  have hl : locate s.params o.toNat = some (.buf i) := by
    rw [toNat_ofNat_offset (by omega)]
    exact locate_buf hp hi
  have hwrite := step_idle_write hidle hmoves hl rfl (by simp)
  have hword : wordAt (bufWrite s.block.mem i v) (bufOffset i) = some v := by rw [wordAt_bufWrite, if_pos rfl]
  have hread := step_idle_read
    (s := storeLoc (.buf i) v { s with moves := .host (readAccess o) :: rest }) hidle rfl hl
    fun j hj => by cases hj; exact written_of_wordAt hword
  refine ⟨_, _, hwrite, hread, bufRead_of_wordAt hword _, rfl, fun j hj => ?bytes, fun a ha => ?outside⟩
  case bytes =>
    change byteAt (bufWrite s.block.mem i v) (bufOffset i + j) = some (wordByte v j)
    rw [byteAt_bufWrite, if_pos (by omega), Nat.add_sub_cancel_left]
  case outside => exact byteAt_bufWriteAll_outside s.block.mem i [v] a ha

/-! ### `STATUS` and the interrupt line (10_state R25, 60_exceptions R232, R233) -/

/-- Settles O40: the write is taken also while busy and clears the bits that are 1 in it, above bit 0. -/
theorem statusIsWriteOneToClear : Obligations.StatusIsWriteOneToClear := by
  unfold Obligations.StatusIsWriteOneToClear
  intro s v rest hmoves
  rw [step_host hmoves]
  refine ⟨_, hostAccess_write_of_writableWhileBusy (l := .status) (by decide) (by decide) rfl rfl, rfl,
    fun k => ?_⟩
  change (statusWord s.busy (ackSticky v s.sticky)).getLsbD k = ((statusWord s.busy s.sticky).getLsbD k && _)
  rw [statusWord_bit, statusWord_bit]
  by_cases hk : k = 0
  · simp [hk]
  · by_cases h10 : k ≤ 10
    · have hbit : 1 + (k - 1) = k := by omega
      simp [hk, h10, ackSticky, hbit, show k - 1 < 10 by omega]
    · simp [hk, h10]

theorem bitVec_ne_zero_iff {n : Nat} (x : BitVec n) : x ≠ 0 ↔ ∃ k, x.getLsbD k = true := by
  constructor
  · intro h
    by_contra hnone
    exact h (BitVec.eq_of_getLsbD_eq fun k _ => by simpa using not_exists.1 hnone k)
  · rintro ⟨k, hk⟩ rfl
    simp at hk

/-- Settles O41: each cause's sticky bit stands at its code, so the fields overlap exactly in the bits that
`STATUS` and `IRQ_EN` share. -/
theorem irqIsStatusAndEnable : Obligations.IrqIsStatusAndEnable := by
  unfold Obligations.IrqIsStatusAndEnable
  intro s
  have hstatus (k : Nat) : (locWord s .status).getLsbD k =
      if k = 0 then s.busy else decide (k ≤ 10) && s.sticky.getLsbD (k - 1) := statusWord_bit _ _ k
  have henable (k : Nat) : (locWord s .irqEn).getLsbD k =
      (decide (1 ≤ k ∧ k ≤ 10) && s.irqEn.getLsbD (k - 1)) := fieldTenToOne_bit _ k
  refine ⟨?busy, fun c k hck => ?causes, fun k hk => ?above, ?irq⟩
  case busy => rw [hstatus, if_pos rfl]; exact Option.isSome_iff_ne_none
  case causes =>
    have hcode : k = c.code := by revert hck; cases c <;> simp [Cause.code]
    have hrange := code_range c
    rw [hstatus, hcode, if_neg (by omega), decide_eq_true hrange.2, Bool.true_and]
    rfl
  case above => rw [hstatus, if_neg (by omega), decide_eq_false (by omega), Bool.false_and]
  case irq =>
    have hirq : s.irq = true ↔ ∃ j, s.sticky.getLsbD j = true ∧ s.irqEn.getLsbD j = true := by
      rw [State.irq, bne_iff_ne, bitVec_ne_zero_iff]
      simp only [BitVec.getLsbD_and, Bool.and_eq_true]
    simp only [hirq, hstatus, henable]
    constructor
    · rintro ⟨j, hsticky, hen⟩
      have hj : j < 10 := BitVec.lt_of_getLsbD hsticky
      refine ⟨j + 1, by omega, by omega, ?_, ?_⟩
      · simp [hsticky, show j + 1 ≤ 10 by omega]
      · simp [hen, show j + 1 ≤ 10 by omega]
    · rintro ⟨k, h1, h10, hsticky, hen⟩
      rw [if_neg (by omega), Bool.and_eq_true] at hsticky
      rw [Bool.and_eq_true] at hen
      exact ⟨k - 1, hsticky.2, hen.2⟩

end Sys2Proof.Machine
end

section
/-! The whole register map as the host reads it (10_state R21 to R52): the fields of a sound state, each at its
bits. -/

namespace Sys2Proof.Machine

/-! ### The fields of the packed words -/

/-- A field of a word from the word's value: bits `at` to `at + n - 1`. -/
theorem extractLsb'_eq_of_toNat {v : Word} {n start : Nat} {x : BitVec n}
    (h : v.toNat / 2 ^ start % 2 ^ n = x.toNat) : v.extractLsb' start n = x :=
  BitVec.eq_of_toNat_eq (by rw [BitVec.extractLsb'_toNat, Nat.shiftRight_eq_div_pow, h])

/-- A bit of a word from the word's value. -/
theorem getLsbD_eq_of_toNat {v : Word} {k : Nat} {b : Bool} (h : v.toNat / 2 ^ k % 2 = b.toNat) :
    v.getLsbD k = b := by
  rw [BitVec.getLsbD, Nat.testBit_eq_decide_div_mod_eq, h]
  cases b <;> rfl

/-- The fields of `FLAGS` (10_state R47). -/
theorem Flags.word_fields (f : Flags) :
    f.word.extractLsb' 0 2 = f.bitI ∧ f.word.extractLsb' 2 2 = f.bitQ ∧ f.word.getLsbD 4 = f.idValid.i ∧
      f.word.getLsbD 5 = f.idValid.q ∧ f.word.getLsbD 6 = f.bitValid ∧ f.word.extractLsb' 7 57 = 0 := by
  have hword := f.toNat_word
  have hI := f.bitI.isLt
  have hQ := f.bitQ.isLt
  have hi := f.idValid.i.toNat_le
  have hq := f.idValid.q.toNat_le
  have hbit := f.bitValid.toNat_le
  refine ⟨extractLsb'_eq_of_toNat ?_, extractLsb'_eq_of_toNat ?_, getLsbD_eq_of_toNat ?_,
    getLsbD_eq_of_toNat ?_, getLsbD_eq_of_toNat ?_, extractLsb'_eq_of_toNat ?reserved⟩
  case reserved => rw [BitVec.ofNat_eq_ofNat, BitVec.toNat_ofNat, Nat.zero_mod]; omega
  all_goals omega

/-- The fields of `ERR_ACCESS` (10_state R29). -/
theorem AccessInfo.word_fields (a : AccessInfo) :
    a.word.extractLsb' 0 17 = a.offset ∧ a.word.extractLsb' 17 2 = a.size.code ∧
      a.word.extractLsb' 19 44 = 0 ∧ a.word.getLsbD 63 = a.write := by
  have hword := a.toNat_word
  have hoffset := a.offset.isLt
  have hsize := a.size.code.isLt
  have hwrite := a.write.toNat_le
  refine ⟨extractLsb'_eq_of_toNat ?_, extractLsb'_eq_of_toNat ?_, extractLsb'_eq_of_toNat ?reserved,
    getLsbD_eq_of_toNat ?_⟩
  case reserved => rw [BitVec.ofNat_eq_ofNat, BitVec.toNat_ofNat, Nat.zero_mod]; omega
  all_goals omega

/-- A register narrower than a word keeps its value. -/
theorem toNat_zeroExtend_word {n : Nat} (h : n ≤ 64) (x : BitVec n) : (x.zeroExtend 64).toNat = x.toNat :=
  BitVec.toNat_setWidth_of_le h

/-- A counter that its register can hold reads as it is. -/
theorem toNat_zeroExtend_ofNat {n k : Nat} (hn : n ≤ 64) (hk : k < 2 ^ n) :
    ((BitVec.ofNat n k).zeroExtend 64).toNat = k := by
  rw [toNat_zeroExtend_word hn, BitVec.toNat_ofNat, Nat.mod_eq_of_lt hk]

/-- The nine words of a configuration (10_state R31 to R39), each as its field's value. -/
theorem cfgWord_values (c : CfgRegs) :
    (cfgWord c .bitWidth).toNat = c.w.toNat ∧ (cfgWord c .bitGain).toNat = c.g.toNat ∧
      (cfgWord c .ctrl).toNat = c.pgEn.toNat + 2 * c.pgCast.toNat ∧ (cfgWord c .agcLen).toNat = c.k.toNat ∧
      cfgWord c .agcNsigma = c.nsigma ∧ (cfgWord c .nTaps).toNat = c.n.toNat ∧
      (cfgWord c .idLen).toNat = c.l.toNat ∧ (cfgWord c .bsDelay).toNat = c.d.toNat ∧
      (cfgWord c .bsStride).toNat = c.s.toNat :=
  ⟨toNat_zeroExtend_word (by decide) _, toNat_zeroExtend_word (by decide) _, toNat_cfgWord_ctrl c,
    toNat_zeroExtend_word (by decide) _, rfl, toNat_zeroExtend_word (by decide) _,
    toNat_zeroExtend_word (by decide) _, toNat_zeroExtend_word (by decide) _,
    toNat_zeroExtend_word (by decide) _⟩

/-- Where a configuration register stands in `CFG_*` and in `ACT_*`, from the first of them on. -/
def cfgOffset : CfgReg → Offset
  | .bitWidth => 0x00
  | .bitGain => 0x08
  | .ctrl => 0x10
  | .agcLen => 0x18
  | .agcNsigma => 0x20
  | .nTaps => 0x28
  | .idLen => 0x30
  | .bsDelay => 0x38
  | .bsStride => 0x40

/-! ### Reads by offset -/

/-- An idle read of a mapped offset that is no unwritten entry. -/
theorem readData_of_locate {s t : State} {o : Offset} {rest : List Move} {l : Loc} (hidle : s.Idle)
    (hmoves : s.moves = .host (readAccess o) :: rest) (hstep : step s = .next t)
    (hl : locate s.params o.toNat = some l) (hbuf : ∀ i, l = .buf i → written s.block.mem i = true) :
    t.readData = locWord s l := by
  rw [step_idle_read hidle hmoves hl hbuf] at hstep
  cases hstep
  rfl

theorem registerMap_ne_buf : ∀ e ∈ registerMap, ∀ i, e.2 ≠ .buf i := by simp [registerMap]

/-- An idle read of the fixed part of the map. -/
theorem readData_of_registerMap {s t : State} {o n : Offset} {rest : List Move} {l : Loc} (hidle : s.Idle)
    (hmoves : s.moves = .host (readAccess o) :: rest) (hstep : step s = .next t) (ho : o = n)
    (hmap : n.toNat % 8 = 0 ∧ registerMap.lookup n.toNat = some l) : t.readData = locWord s l := by
  subst ho
  refine readData_of_locate hidle hmoves hstep (locate_of_registerMap hmap.1 hmap.2) fun i hi => ?_
  exact absurd hi (registerMap_ne_buf _ (mem_registerMap_of_lookup hmap.2) i)

/-- Settles O42: the location at each offset, and the value of its word. -/
theorem readbackRegistersShowInternalState : Obligations.ReadbackRegistersShowInternalState := by
  unfold Obligations.ReadbackRegistersShowInternalState
  intro s o rest hs hidle hmoves b
  obtain ⟨t, hstep⟩ := step_next s
  have hp := hs.params
  have hread {n : Offset} (l : Loc) (ho : o = n)
      (hmap : n.toNat % 8 = 0 ∧ registerMap.lookup n.toNat = some l) : t.readData = locWord s l :=
    readData_of_registerMap hidle hmoves hstep ho hmap
  have hvalue {n : Offset} {k : Nat} (l : Loc) (ho : o = n)
      (hmap : n.toNat % 8 = 0 ∧ registerMap.lookup n.toNat = some l) (hk : (locWord s l).toNat = k) :
      t.readData.toNat = k := hk ▸ congrArg BitVec.toNat (hread l ho hmap)
  have hat {n : Nat} {l : Loc} (ho : o.toNat = n) (hl : locate s.params n = some l)
      (hbuf : ∀ i, l = .buf i → written s.block.mem i = true) : t.readData = locWord s l :=
    readData_of_locate hidle hmoves hstep (ho ▸ hl) hbuf
  have hpos : b.agc.pos < 2 ^ 16 := hs.block.agcPos.trans (BitVec.isLt _)
  have hcnt (arm : Arm) : (b.intDump.get arm).cnt < 2 ^ 16 := (hs.block.idCnt arm).trans (BitVec.isLt _)
  have hscnt : b.bs.scnt < 2 ^ 32 := hs.block.bsScnt.trans (BitVec.isLt _)
  refine ⟨t, hstep,
    fun ho => hread .id ho (by decide),
    fun ho => hvalue .params ho (by decide) (toNat_paramsWord hp),
    fun ho => hread .cmd ho (by decide),
    fun ho k => ?status,
    fun ho k => (congrArg (BitVec.getLsbD · k) (hread .irqEn ho (by decide))).trans (fieldTenToOne_bit _ k),
    fun ho => hread .din0 ho (by decide),
    fun ho => hread .din1 ho (by decide),
    fun ho => hread .errCmd ho (by decide),
    fun ho => ?errAccess,
    fun ho => hvalue .cfgFault ho (by decide) (toNat_zeroExtend_word (by decide) _),
    fun base c hbase => ?configuration,
    fun ho => hread .agcOut ho (by decide),
    fun ho => hread (.mix .i) ho (by decide),
    fun ho => hread (.mix .q) ho (by decide),
    fun ho => hread (.fir .i) ho (by decide),
    fun ho => hread (.fir .q) ho (by decide),
    fun ho => hread (.pg .i) ho (by decide),
    fun ho => hread (.pg .q) ho (by decide),
    fun ho => hread (.idOut .i) ho (by decide),
    fun ho => hread (.idOut .q) ho (by decide),
    fun ho => ?flags,
    fun ho => hread .agcGain ho (by decide),
    fun ho => hvalue .agcPos ho (by decide) (toNat_zeroExtend_ofNat (by decide) hpos),
    fun ho => hvalue .ddcPhase ho (by decide) (toNat_zeroExtend_word (by decide) _),
    fun ho => hvalue (.idCnt .i) ho (by decide) (toNat_zeroExtend_ofNat (by decide) (hcnt .i)),
    fun ho => hvalue (.idCnt .q) ho (by decide) (toNat_zeroExtend_ofNat (by decide) (hcnt .q)),
    fun ho => ?phase,
    fun ho => hvalue .bsDcnt ho (by decide) (toNat_zeroExtend_word (by decide) _),
    fun ho => hvalue .bsScnt ho (by decide) (toNat_zeroExtend_ofNat (by decide) hscnt),
    fun ho => hread .sampleCount ho (by decide),
    fun ho => hread .validCount ho (by decide),
    fun ho => hread .bitCount ho (by decide),
    fun k x ho hx => ?staged, fun k x ho hx => ?active, fun i x ho hi hx => ?buffer⟩
  case status =>
    have hbusy : s.busy = false := Option.isSome_eq_false_iff.2 (Option.isNone_iff_eq_none.2 hidle)
    rw [hread .status ho (by decide), ← fieldTenToOne_bit, locWord, hbusy]
    rfl
  case errAccess =>
    rw [hread .errAccess ho (by decide)]
    exact s.errAccess.word_fields
  case flags =>
    rw [hread .flags ho (by decide)]
    exact s.block.flags.word_fields
  case phase =>
    rw [hread .bsPhase ho (by decide), locWord]
    change bsPhaseWord b.bs.phase = _
    cases b.bs.phase <;> rfl
  case configuration =>
    obtain ⟨hw, hg, hctrl, hk, hnsigma, hn, hl, hd, hstride⟩ := cfgWord_values c
    have hword {n : Offset} (r : CfgReg) (ho : o = n) (hn : n = base + cfgOffset r) :
        t.readData = cfgWord c r := by
      subst hn
      rcases List.mem_pair.1 hbase with hbase | hbase <;> cases hbase
      · exact hread (.cfg r) ho (by cases r <;> decide)
      · exact hread (.act r) ho (by cases r <;> decide)
    exact ⟨fun ho => hword .bitWidth ho (BitVec.add_zero _).symm ▸ hw, fun ho => hword .bitGain ho rfl ▸ hg,
      fun ho => hword .ctrl ho rfl ▸ hctrl, fun ho => hword .agcLen ho rfl ▸ hk,
      fun ho => hword .agcNsigma ho rfl ▸ hnsigma, fun ho => hword .nTaps ho rfl ▸ hn,
      fun ho => hword .idLen ho rfl ▸ hl, fun ho => hword .bsDelay ho rfl ▸ hd,
      fun ho => hword .bsStride ho rfl ▸ hstride⟩
  case staged =>
    have hk : k < s.params.nTapsMax := hs.taps ▸ (List.getElem?_eq_some_iff.1 hx).1
    rw [hat ho (locate_tapStage hk) (by simp), locWord, List.getD_eq_getElem?_getD, hx, Option.getD_some]
  case active =>
    have hk : k < s.params.nTapsMax := hs.block.taps ▸ (List.getElem?_eq_some_iff.1 hx).1
    rw [hat ho (locate_tapAct hp hk) (by simp), locWord, List.getD_eq_getElem?_getD, hx, Option.getD_some]
  case buffer =>
    rw [hat ho (locate_buf hp hi) fun j hj => by cases hj; exact written_of_wordAt hx]
    exact bufRead_of_wordAt hx _

end Sys2Proof.Machine
end

section
/-! Runs of one command: the gain's cadence (41_agc R145), the downconverter's period (42_ddc R153), the count of
bits (46_bitsync R194, R195) and the arms in lockstep (47_core R205). Each is an invariant of the fold of the
command's stage over the samples. -/

namespace Sys2Proof.Machine

/-! ### The states of a run -/

/-- In a run of a sample command, each state completes the command on the one before it, whose block is the fold of
the stage over the earlier samples. -/
theorem feedAll_steps {i : Instr} {stage : Block → Word → Block} (hi : AppliesStage i stage) {xs : List Word}
    {s : State} (hs : s.Ready) (hx : ∀ x ∈ xs, admissible x = true) :
    ∃ ts, feedAll i xs s = some ts ∧ ts.length = xs.length ∧
      ∀ n before after, (s :: ts)[n]? = some before → ts[n]? = some after →
        ∃ x, xs[n]? = some x ∧ admissible x = true ∧ before.Ready ∧
          before.block = (xs.take n).foldl stage s.block ∧ exec i { before with din0 := x } = .next after := by
  induction xs generalizing s with
  | nil => exact ⟨[], rfl, rfl, fun n before after _ hafter => by simp at hafter⟩
  | cons x xs ih =>
    obtain ⟨hhead, htail⟩ := List.forall_mem_cons.1 hx
    obtain ⟨t, ht, hblock⟩ := hi { s with din0 := x } hs hhead
    have hready : t.Ready := Ready_of_exec (s := { s with din0 := x }) hs ht
    obtain ⟨ts, hrun, hlen, hts⟩ := ih hready htail
    have hfeed : feed i x s = some t := nextOf_eq_some_iff.2 ht
    refine ⟨t :: ts, by rw [feedAll_cons i x xs s t hfeed, hrun]; rfl, by simp [hlen],
      fun n before after hbefore hafter => ?_⟩
    cases n with
    | zero =>
      cases hbefore
      cases hafter
      exact ⟨x, rfl, hhead, hs, rfl, ht⟩
    | succ n =>
      obtain ⟨y, hy, hadm, hbeforeReady, hbeforeBlock, hexec⟩ := hts n before after hbefore hafter
      exact ⟨y, hy, hadm, hbeforeReady, by rw [hbeforeBlock, hblock]; rfl, hexec⟩

/-- The state before each step of a run. -/
theorem exists_before {α : Type} {s t : α} {ts : List α} {n : Nat} (h : ts[n]? = some t) :
    ∃ before, (s :: ts)[n]? = some before := by
  have hn := (List.getElem?_eq_some_iff.1 h).1
  exact ⟨_, List.getElem?_eq_getElem (by rw [List.length_cons]; omega)⟩

/-! ### The downconverter (42_ddc R153) -/

theorem ddcUpdate_appliesStage : AppliesStage .ddcUpdate ddcStage :=
  fun _ hs hx => ⟨_, exec_ddcUpdate_ready hs hx, rfl⟩

/-- Every update advances the phase. -/
theorem foldl_ddcStage_phase (b : Block) (xs : List Word) :
    (xs.foldl ddcStage b).ddcPhase = b.ddcPhase + BitVec.ofNat 2 xs.length := by
  induction xs generalizing b with
  | nil => exact (BitVec.add_zero _).symm
  | cons x xs ih =>
    rw [List.foldl_cons, ih, List.length_cons, Nat.add_comm, BitVec.ofNat_add, ← BitVec.add_assoc]
    rfl

/-- Settles O49: before sample `n` the phase is `n mod 4`. -/
theorem ddcOutputHasPeriodFour : Obligations.DdcOutputHasPeriodFour := by
  unfold Obligations.DdcOutputHasPeriodFour
  intro s xs hs hx
  have hclear := exec_ddcClear_ready hs
  obtain ⟨ts, hrun, hlen, hts⟩ := feedAll_steps ddcUpdate_appliesStage (Ready_of_exec hs hclear) hx
  refine ⟨_, ts, nextOf_eq_some_iff.2 hclear, hrun, hlen, fun n x t cos4 sin4 hxn htn hcos hsin => ?_⟩
  obtain ⟨before, hbefore⟩ := exists_before (s := complete (quiet (ddcCleared s.block)) s) htn
  obtain ⟨y, hy, hadm, hready, hblock, hexec⟩ := hts n before t hbefore htn
  cases hxn.symm.trans hy
  rw [exec_ddcUpdate_ready (s := { before with din0 := x }) hready hadm] at hexec
  cases hexec
  have hn : n < xs.length := (List.getElem?_eq_some_iff.1 hy).1
  have hphase : before.block.ddcPhase = BitVec.ofNat 2 n := by
    rw [hblock, foldl_ddcStage_phase, List.length_take_of_le hn.le]
    exact BitVec.zero_add _
  have hmod : n % 4 = (BitVec.ofNat 2 n).toNat := (BitVec.toNat_ofNat n 2).symm
  rw [hmod, getElem?_cosPattern, Option.some.injEq] at hcos
  rw [hmod, getElem?_sinPattern, Option.some.injEq] at hsin
  rw [← hcos, ← hsin, ← hphase]
  rfl

/-! ### The arms in lockstep (47_core R205) -/

theorem step_appliesStage : AppliesStage .step fun b x => (stepped b x).block :=
  fun _ hs hx => ⟨_, exec_step_ready hs hx, rfl⟩

/-- The arms' decimators stand at the same count. -/
def InLockstep (b : Block) : Prop := b.intDump.i.cnt = b.intDump.q.cnt

/-- A decimator's next count and its valid flag depend on its count only. -/
theorem idStep_cnt_valid_of_cnt_eq {l : Nat} {u v : IntDump} (h : u.cnt = v.cnt) (x y : Word) :
    (idStep l u x).unit.cnt = (idStep l v y).unit.cnt ∧ (idStep l u x).valid = (idStep l v y).valid := by
  unfold idStep
  rw [h]
  split <;> exact ⟨rfl, rfl⟩

theorem stepped_intDump (b : Block) (x : Word) :
    (stepped b x).block.intDump = perArm fun arm => (pipelineDumped b x arm).unit := by
  rw [stepped_block_eq, pipelineFront_eq]

theorem stepped_idValid (b : Block) (x : Word) :
    (stepped b x).block.flags.idValid = perArm fun arm => (pipelineDumped b x arm).valid := by
  rw [stepped_block_eq]

theorem stepped_lockstep {b : Block} (h : InLockstep b) (x : Word) :
    InLockstep (stepped b x).block ∧
      (stepped b x).block.flags.idValid.i = (stepped b x).block.flags.idValid.q := by
  obtain ⟨hcnt, hvalid⟩ := idStep_cnt_valid_of_cnt_eq (l := b.active.regs.l.toNat) h
    (pipelineGained b x .i) (pipelineGained b x .q)
  rw [InLockstep, stepped_intDump, stepped_idValid]
  exact ⟨hcnt, hvalid⟩

theorem foldl_stepped_lockstep {b : Block} (h : InLockstep b) (xs : List Word) :
    InLockstep (xs.foldl (fun b x => (stepped b x).block) b) := by
  induction xs generalizing b with
  | nil => exact h
  | cons x xs ih =>
    rw [List.foldl_cons]
    exact ih (stepped_lockstep h x).1

/-- Settles O55: a clear zeroes both counts, and every `STEP` advances them together. -/
theorem armsStayInLockstep : Obligations.ArmsStayInLockstep := by
  unfold Obligations.ArmsStayInLockstep
  refine ⟨fun s hs => ⟨_, exec_clearAll_ready hs, rfl⟩, fun s xs hs hcnt hx => ?_⟩
  obtain ⟨ts, hrun, hlen, hts⟩ := feedAll_steps step_appliesStage hs hx
  refine ⟨ts, hrun, hlen, fun t ht => ?_⟩
  obtain ⟨n, htn⟩ := List.mem_iff_getElem?.1 ht
  obtain ⟨before, hbefore⟩ := exists_before (s := s) htn
  obtain ⟨x, -, hadm, hready, hblock, hexec⟩ := hts n before t hbefore htn
  rw [exec_step_ready (s := { before with din0 := x }) hready hadm] at hexec
  cases hexec
  exact stepped_lockstep (hblock ▸ foldl_stepped_lockstep hcnt _) x

/-! ### The gain's cadence (41_agc R145) -/

theorem agcUpdate_appliesStage : AppliesStage .agcUpdate agcStage :=
  fun _ hs hx => ⟨_, exec_agcUpdate_ready hs hx, rfl⟩

/-- After the samples `ys` from a clear: the position is their number modulo `K`, and the first places of the
window hold the last of them. -/
structure AgcFed (ys : List Word) (b : Block) : Prop where
  pos : b.agc.pos = ys.length % b.active.regs.k.toNat
  window : b.agc.buf.take b.agc.pos = ys.drop (ys.length - b.agc.pos)
  room : b.active.regs.k.toNat ≤ b.agc.buf.length

/-- The next position: back to 0 at the `K`-th sample. -/
theorem succ_mod_eq_zero_iff {n k : Nat} (hk : 1 ≤ k) : n % k + 1 = k ↔ (n + 1) % k = 0 := by
  have hlt := Nat.mod_lt n hk
  rw [← Nat.mod_add_mod]
  constructor
  · intro h; rw [h, Nat.mod_self]
  · intro h
    by_contra hne
    rw [Nat.mod_eq_of_lt (by omega)] at h
    omega

/-- The window up to the pushed sample: the last samples, the pushed one among them. -/
theorem AgcFed.window_push {ys : List Word} {b : Block} (h : AgcFed ys b) (hk : 1 ≤ b.active.regs.k.toNat)
    (x : Word) : (b.agc.buf.set b.agc.pos x).take (b.agc.pos + 1) = (ys ++ [x]).drop (ys.length - b.agc.pos) := by
  have hpos : b.agc.pos < b.agc.buf.length := (h.pos ▸ Nat.mod_lt _ hk : _ < _).trans_le h.room
  rw [List.take_add_one, List.take_set_of_le le_rfl, h.window, List.getElem?_set_self hpos,
    List.drop_append_of_le_length (Nat.sub_le _ _)]
  rfl

theorem AgcFed.push {ys : List Word} {b : Block} (h : AgcFed ys b) (hk : 1 ≤ b.active.regs.k.toNat) (x : Word) :
    AgcFed (ys ++ [x]) (agcStage b x) := by
  have hpos : (agcStage b x).agc.pos = if b.agc.pos + 1 = b.active.regs.k.toNat then 0 else b.agc.pos + 1 :=
    agcPush_pos _ _ _
  have hbuf : (agcStage b x).agc.buf = b.agc.buf.set b.agc.pos x := agcPush_buf _ _ _
  have hle : b.agc.pos ≤ ys.length := h.pos ▸ Nat.mod_le _ _
  have hlt : b.agc.pos < b.active.regs.k.toNat := h.pos ▸ Nat.mod_lt _ hk
  refine ⟨?pos, ?window, by rw [hbuf, List.length_set]; exact h.room⟩
  case pos =>
    rw [hpos, agcStage_active, List.length_append, List.length_singleton, h.pos]
    split
    next hfull => exact ((succ_mod_eq_zero_iff hk).1 hfull).symm
    next hpartial =>
      have hlt : ys.length % b.active.regs.k.toNat < b.active.regs.k.toNat := Nat.mod_lt _ hk
      rw [← Nat.mod_add_mod, Nat.mod_eq_of_lt (a := _ + 1) (by omega)]
  case window =>
    rw [hpos, hbuf]
    split
    next => rw [Nat.sub_zero, List.drop_length, List.take_zero]
    next => rw [h.window_push hk, List.length_append, List.length_singleton, Nat.add_sub_add_right]

theorem foldl_agcStage_active (b : Block) (xs : List Word) : (xs.foldl agcStage b).active = b.active := by
  induction xs generalizing b with
  | nil => rfl
  | cons x xs ih => rw [List.foldl_cons, ih, agcStage_active]

theorem AgcFed.foldl {ys : List Word} {b : Block} (h : AgcFed ys b) (hk : 1 ≤ b.active.regs.k.toNat)
    (xs : List Word) : AgcFed (ys ++ xs) (xs.foldl agcStage b) := by
  induction xs generalizing ys b with
  | nil => rwa [List.append_nil]
  | cons x xs ih =>
    rw [List.append_cons]
    exact ih (h.push hk x) hk

theorem agcFed_cleared {p : Params} {b : Block} (hk : b.active.regs.k.toNat ≤ p.agcLenMax) :
    AgcFed [] (agcCleared p b) :=
  ⟨(Nat.zero_mod _).symm, rfl, hk.trans_eq List.length_replicate.symm⟩

/-- The push of sample `n` of a run that fills the window: it then holds the last `K` samples. -/
theorem AgcFed.window_full {xs : List Word} {n : Nat} {x : Word} {b : Block} (h : AgcFed (xs.take n) b)
    (hk : 1 ≤ b.active.regs.k.toNat) (hx : xs[n]? = some x) (hfull : b.agc.pos + 1 = b.active.regs.k.toNat) :
    (b.agc.buf.set b.agc.pos x).take b.active.regs.k.toNat =
      (xs.drop (n + 1 - b.active.regs.k.toNat)).take b.active.regs.k.toNat := by
  have hn : n < xs.length := (List.getElem?_eq_some_iff.1 hx).1
  have hlen : (xs.take n).length = n := List.length_take_of_le hn.le
  have hpos : b.agc.pos ≤ n := by rw [h.pos, hlen]; exact Nat.mod_le _ _
  have hall : xs.take n ++ [x] = xs.take (n + 1) := by rw [List.take_add_one, hx]; rfl
  rw [← hfull, h.window_push hk, hlen, hall, List.drop_take, Nat.add_sub_add_right]
  congr 1
  omega

/-- The gain after the push that fills the window. -/
theorem agcPush_gain_of_full {c : CfgRegs} {a : Agc} {x : Word} (hfull : a.pos + 1 = c.k.toNat) :
    let den := fmul c.nsigma (pstd ((a.buf.set a.pos x).take c.k.toNat))
    let g := fdiv (fullScale c.w) den
    if feq den 0 = true ∨ isfinite g = false then
      (agcPush c a x).agc.gain = a.gain ∧ (agcPush c a x).degenerate = true
    else (agcPush c a x).agc.gain = g := by
  intro den g
  split
  next hdegenerate => rw [agcPush_degenerate hfull hdegenerate]; exact ⟨rfl, rfl⟩
  next hregular =>
    obtain ⟨hden, hquot⟩ := not_or.1 hregular
    rw [agcPush_regular hfull (Bool.not_eq_true _ ▸ hden) (Bool.not_eq_false _ ▸ hquot)]

/-- Settles O48: the window of a recompute holds the last `K` samples, as `AgcFed` says of every state of the
run. -/
theorem agcGainCadence : Obligations.AgcGainCadence := by
  unfold Obligations.AgcGainCadence
  intro s xs hs hx c hk hmax
  have hclear := exec_agcClear_ready hs
  obtain ⟨ts, hrun, hlen, hts⟩ := feedAll_steps agcUpdate_appliesStage (Ready_of_exec hs hclear) hx
  refine ⟨_, ts, nextOf_eq_some_iff.2 hclear, hrun, hlen, fun n before after hbefore hafter => ?_⟩
  obtain ⟨x, hxn, hadm, hready, hblock, hexec⟩ := hts n before after hbefore hafter
  rw [exec_agcUpdate_ready (s := { before with din0 := x }) hready hadm] at hexec
  cases hexec
  have hregs : before.block.active.regs = c := by rw [hblock, foldl_agcStage_active]; rfl
  have hfed : AgcFed (xs.take n) before.block := by
    rw [hblock]
    exact (agcFed_cleared (p := s.params) hmax).foldl hk (xs.take n)
  have hn : (xs.take n).length = n := List.length_take_of_le (List.getElem?_eq_some_iff.1 hxn).1.le
  have hfull : before.block.agc.pos + 1 = before.block.active.regs.k.toNat ↔ (n + 1) % c.k.toNat = 0 := by
    rw [hfed.pos, hn, hregs, succ_mod_eq_zero_iff hk]
  have hagc : (agcStage before.block x).agc = (agcPush before.block.active.regs before.block.agc x).agc := rfl
  simp only [complete_block, hagc]
  refine ⟨?pos, fun hpartial => ?hold, fun hrecompute => ?recompute⟩
  case pos =>
    have hpos := (hfed.push (hregs ▸ hk) x).pos
    rwa [List.length_append, hn, agcStage_active, hregs] at hpos
  case hold => rw [agcPush_partial x (hfull.not.2 hpartial)]
  case recompute =>
    have hlast := hfull.2 hrecompute
    have hgain := agcPush_gain_of_full (x := x) hlast
    rw [hfed.window_full (hregs ▸ hk) hxn hlast] at hgain
    rw [hregs] at hgain ⊢
    split
    next hdegenerate =>
      obtain ⟨hheld, hdegen⟩ := (if_pos hdegenerate).mp hgain
      have hevent : agcStageDegenerate before.block x = true := by rw [agcStageDegenerate, hregs, hdegen]
      exact ⟨hheld, (hasSticky_complete_iff _ _ _).2 (.inr (.inr (.inl ⟨rfl, hevent⟩)))⟩
    next hregular => exact (if_neg hregular).mp hgain

/-! ### The count of bits (46_bitsync R194, R195) -/

/-- A run of synchronizer updates ends with the fold of the stage over the valid flags. -/
theorem syncAll_block {vs : List Bool} {s : State} (hs : s.Ready) (h0 : admissible s.din0 = true)
    (h1 : admissible s.din1 = true) :
    ∃ ts t, syncAll vs s = some ts ∧ ts.length = vs.length ∧ (s :: ts)[vs.length]? = some t ∧
      t.block = vs.foldl (fun b v => bsStage b s.din0 s.din1 v) s.block := by
  induction vs generalizing s with
  | nil => exact ⟨[], s, rfl, rfl, rfl, rfl⟩
  | cons v vs ih =>
    have hexec := exec_bsyncUpdate_ready (v := v) hs h0 h1
    obtain ⟨ts, t, hrun, hlen, hlast, hblock⟩ := ih (Ready_of_exec hs hexec) h0 h1
    exact ⟨_ :: ts, t, by rw [syncAll_cons v vs s _ (nextOf_eq_some_iff.2 hexec), hrun]; rfl, by simp [hlen],
      hlast, hblock⟩

/-- The synchronizer after `m` valid inputs from a clear, of which `m - d` came after the delay. -/
structure SyncCounts (m : Nat) (b : Block) : Prop where
  phase : b.bs.phase = .sampling ↔ b.active.regs.d.toNat ≤ m
  dcnt : b.bs.dcnt.toNat = b.active.regs.d.toNat - m
  scnt : b.bs.scnt = (m - b.active.regs.d.toNat) % b.active.regs.s.toNat
  validCount : b.validCount = BitVec.ofNat 64 m
  bitCount : b.bitCount =
    BitVec.ofNat 64 ((m - b.active.regs.d.toNat + (b.active.regs.s.toNat - 1)) / b.active.regs.s.toNat)

theorem syncCounts_cleared {b : Block} (hstride : 1 ≤ b.active.regs.s.toNat) : SyncCounts 0 (bsCleared b) where
  phase := (bsInitial_phase_iff _).trans (by
    rw [Nat.le_zero, BitVec.toNat_eq]
    rfl)
  dcnt := rfl
  scnt := by
    change 0 = _
    rw [Nat.zero_sub, Nat.zero_mod]
  validCount := rfl
  bitCount := by
    change (0 : Word) = BitVec.ofNat 64 ((0 - _ + (b.active.regs.s.toNat - 1)) / b.active.regs.s.toNat)
    rw [Nat.zero_sub, Nat.zero_add, Nat.div_eq_of_lt (by omega)]
    rfl

/-- The ceiling of `(j + 1) / stride`: one more than that of `j / stride` exactly at a multiple of `stride`. -/
theorem ceil_succ {j stride : Nat} (h : 1 ≤ stride) :
    (j + 1 + (stride - 1)) / stride = (j + (stride - 1)) / stride + if j % stride = 0 then 1 else 0 := by
  have hdvd : stride ∣ j + (stride - 1) + 1 ↔ j % stride = 0 := by
    rw [Nat.add_assoc, Nat.sub_add_cancel h, Nat.dvd_add_self_right, Nat.dvd_iff_mod_eq_zero]
  rw [show j + 1 + (stride - 1) = j + (stride - 1) + 1 by omega, Nat.succ_div]
  simp only [hdvd]

section
variable {m : Nat} {b : Block} (h : SyncCounts m b)
include h

theorem SyncCounts.validCount_succ : b.validCount + 1 = BitVec.ofNat 64 (m + 1) := by
  rw [BitVec.ofNat_add, ← h.validCount]
  rfl

/-- A valid input while settling counts down the delay. -/
theorem SyncCounts.bsStage_settling (hphase : b.bs.phase = .awaitingSettle) (x y : Word) :
    SyncCounts (m + 1) (bsStage b x y true) := by
  have hm : m < b.active.regs.d.toNat := by
    rw [← Nat.not_le, ← h.phase, hphase]
    exact BsPhase.noConfusion
  have hbs : (bsStage b x y true).bs = _ := bsAdvance_awaitingSettle _ hphase
  have hdcnt : (b.bs.dcnt - 1).toNat = b.active.regs.d.toNat - (m + 1) := by
    have := h.dcnt
    bv_omega
  have hlast : b.bs.dcnt - 1 = 0 ↔ b.active.regs.d.toNat ≤ m + 1 := by
    rw [← Nat.sub_eq_zero_iff_le, ← hdcnt]
    exact BitVec.toNat_inj.symm
  have hquiet : bsEmits b true = false := by
    rw [Bool.eq_false_iff, ne_eq, bsEmits_iff, hphase]
    exact fun hemits => BsPhase.noConfusion hemits.2.1
  constructor
  case phase =>
    rw [hbs]
    change (if b.bs.dcnt - 1 = 0 then BsPhase.sampling else .awaitingSettle) = _ ↔ b.active.regs.d.toNat ≤ m + 1
    simp [← hlast]
  case dcnt => rw [hbs]; exact hdcnt
  case scnt =>
    rw [hbs]
    change b.bs.scnt = (m + 1 - b.active.regs.d.toNat) % b.active.regs.s.toNat
    rw [h.scnt, Nat.sub_eq_zero_of_le hm.le, Nat.sub_eq_zero_of_le hm]
  case validCount => exact h.validCount_succ
  case bitCount =>
    rw [(bsStage_of_not_emits hquiet x y).2, h.bitCount]
    change _ = BitVec.ofNat 64 ((m + 1 - b.active.regs.d.toNat + (b.active.regs.s.toNat - 1)) /
      b.active.regs.s.toNat)
    rw [Nat.sub_eq_zero_of_le hm.le, Nat.sub_eq_zero_of_le hm]

/-- A valid input in `Sampling` advances the stride position, and emits a bit at position 0. -/
theorem SyncCounts.bsStage_sampling (hstride : 1 ≤ b.active.regs.s.toNat) (hphase : b.bs.phase = .sampling)
    (x y : Word) : SyncCounts (m + 1) (bsStage b x y true) := by
  have hm : b.active.regs.d.toNat ≤ m := h.phase.1 hphase
  have hbs : (bsStage b x y true).bs = _ := bsAdvance_sampling _ hphase
  have hsub : m + 1 - b.active.regs.d.toNat = m - b.active.regs.d.toNat + 1 := Nat.succ_sub hm
  have hemits : bsEmits b true = true ↔ (m - b.active.regs.d.toNat) % b.active.regs.s.toNat = 0 := by
    rw [bsEmits_iff, hphase, h.scnt]
    simp
  constructor
  case phase => rw [hbs]; exact iff_of_true hphase (hm.trans m.le_succ)
  case dcnt =>
    rw [hbs]
    change b.bs.dcnt.toNat = b.active.regs.d.toNat - (m + 1)
    rw [h.dcnt]
    omega
  case scnt =>
    rw [hbs]
    change (b.bs.scnt + 1) % _ = (m + 1 - b.active.regs.d.toNat) % b.active.regs.s.toNat
    rw [h.scnt, Nat.mod_add_mod, hsub]
  case validCount => exact h.validCount_succ
  case bitCount =>
    change (bsStage b x y true).bitCount = BitVec.ofNat 64 ((m + 1 - b.active.regs.d.toNat +
      (b.active.regs.s.toNat - 1)) / b.active.regs.s.toNat)
    rw [hsub, ceil_succ hstride, BitVec.ofNat_add, ← h.bitCount]
    split
    next hmultiple => exact (bsStage_of_emits (hemits.2 hmultiple) x y).2
    next hother =>
      rw [(bsStage_of_not_emits (Bool.eq_false_iff.2 (hemits.not.2 hother)) x y).2]
      exact (BitVec.add_zero _).symm

end

theorem SyncCounts.bsStage_valid {m : Nat} {b : Block} (h : SyncCounts m b) (hstride : 1 ≤ b.active.regs.s.toNat)
    (x y : Word) : SyncCounts (m + 1) (bsStage b x y true) := by
  cases hphase : b.bs.phase with
  | awaitingSettle => exact h.bsStage_settling hphase x y
  | sampling => exact h.bsStage_sampling hstride hphase x y

theorem SyncCounts.foldl {m : Nat} {b : Block} (h : SyncCounts m b) (hstride : 1 ≤ b.active.regs.s.toNat)
    (x y : Word) (vs : List Bool) :
    SyncCounts (m + vs.count true) (vs.foldl (fun b v => bsStage b x y v) b) := by
  induction vs generalizing m b with
  | nil => exact h
  | cons v vs ih =>
    cases v with
    | false =>
      have hinvalid : SyncCounts m (bsStage b x y false) := ⟨h.phase, h.dcnt, h.scnt, h.validCount, h.bitCount⟩
      exact ih hinvalid hstride
    | true =>
      rw [List.count_cons_self, Nat.add_comm (vs.count true), ← Nat.add_assoc]
      exact ih (h.bsStage_valid hstride x y) hstride

theorem foldl_bsStage_active (b : Block) (x y : Word) (vs : List Bool) :
    (vs.foldl (fun b v => bsStage b x y v) b).active = b.active := by
  induction vs generalizing b with
  | nil => rfl
  | cons v vs ih => exact ih (bsStage b x y v)

theorem ceil_le {j stride : Nat} (h : 1 ≤ stride) : (j + (stride - 1)) / stride ≤ j := by
  cases j with
  | zero => exact (Nat.div_eq_of_lt (by omega)).le
  | succ j =>
    refine Nat.div_le_of_le_mul ?_
    nlinarith [Nat.sub_add_cancel h]

/-- Settles O53: the counts after the run's `n` valid inputs, which `n < 2^64` keeps from wrapping. -/
theorem bitCountLaw : Obligations.BitCountLaw := by
  unfold Obligations.BitCountLaw
  intro s vs hs h0 h1 n d stride hstride hn
  have hclear := exec_bsyncClear_ready hs
  obtain ⟨ts, t, hrun, hlen, hlast, hblock⟩ := syncAll_block (vs := vs) (Ready_of_exec hs hclear) h0 h1
  have hactive : t.block.active = s.block.active := by rw [hblock, foldl_bsStage_active]; rfl
  have hcounts : SyncCounts n t.block := by
    rw [hblock]
    simpa using (syncCounts_cleared (b := s.block) hstride).foldl hstride s.din0 s.din1 vs
  have hceil := ceil_le (j := n - d) hstride
  have hbits : t.block.bitCount.toNat = (n - d + (stride - 1)) / stride := by
    rw [hcounts.bitCount, hactive]
    exact (BitVec.toNat_ofNat _ _).trans (Nat.mod_eq_of_lt (hceil.trans_lt ((Nat.sub_le n d).trans_lt hn)))
  refine ⟨_, ts, t, nextOf_eq_some_iff.2 hclear, hrun, hlen, hlast, ?_, fun hle => ?_, fun _ => hbits,
    hbits.trans_le hceil⟩
  · rw [hcounts.validCount, BitVec.toNat_ofNat, Nat.mod_eq_of_lt hn]
  · omega

end Sys2Proof.Machine
end

section
/-! The rounded square root (40_numerics R121). `sqrtMag` rounds an integer that stands on the same side as the
exact root of every midpoint of two neighbouring values, and that is no such midpoint. -/

namespace Sys2Proof.Machine

/-! ### The integer root -/

/-- The root by bits is the integer root, if that is below the bits' range. -/
theorem isqrtBits_spec {n k acc : Nat} (hlo : acc * acc ≤ n) (hhi : n < (acc + 2 ^ k) * (acc + 2 ^ k)) :
    isqrtBits n k acc * isqrtBits n k acc ≤ n ∧ n < (isqrtBits n k acc + 1) * (isqrtBits n k acc + 1) := by
  induction k generalizing acc with
  | zero => exact ⟨hlo, by rwa [Nat.pow_zero] at hhi⟩
  | succ k ih =>
    rw [isqrtBits, Nat.one_shiftLeft]
    split
    next hle => exact ih hle (by rwa [Nat.add_assoc, ← Nat.two_mul, ← Nat.pow_succ'])
    next hgt => exact ih hlo (not_le.1 hgt)

/-- Twice the integer root of `n`, and one more if the root is not exact. -/
def stickyRoot (n : Nat) : Nat := 2 * isqrtBits n 83 0 + if isqrtBits n 83 0 * isqrtBits n 83 0 = n then 0 else 1

/-- The sticky root stands to an even number as twice the exact root does. -/
theorem stickyRoot_compare {n : Nat} (h : n < 2 ^ 166) (k : Nat) :
    (2 * k ≤ stickyRoot n ↔ k ^ 2 ≤ n) ∧ (2 * k < stickyRoot n ↔ k ^ 2 < n) := by
  obtain ⟨hlo, hhi⟩ := isqrtBits_spec (n := n) (k := 83) (acc := 0) (Nat.zero_le _) (h.trans_le (by norm_num))
  rw [stickyRoot]
  generalize isqrtBits n 83 0 = r at hlo hhi ⊢
  rcases lt_trichotomy k r with hk | rfl | hk
  · have hlt : k ^ 2 < n := (Nat.pow_lt_pow_left hk two_ne_zero).trans_le (by rwa [pow_two])
    exact ⟨iff_of_true (by omega) hlt.le, iff_of_true (by omega) hlt⟩
  · rw [pow_two]
    split <;> omega
  · have hgt : n < k ^ 2 := hhi.trans_le (by rw [← pow_two]; exact Nat.pow_le_pow_left hk 2)
    exact ⟨iff_of_false (by split <;> omega) hgt.not_ge, iff_of_false (by split <;> omega) hgt.not_gt⟩

/-- The same of the exact root itself. -/
theorem stickyRoot_compare_sqrt {n : Nat} (h : n < 2 ^ 166) (k : Nat) :
    (2 * k ≤ stickyRoot n → (k : ℝ) ≤ Real.sqrt n) ∧ (2 * k < stickyRoot n → (k : ℝ) < Real.sqrt n) ∧
      (stickyRoot n < 2 * k → Real.sqrt n < k) := by
  obtain ⟨hle, hlt⟩ := stickyRoot_compare h k
  refine ⟨fun hk => Real.le_sqrt_of_sq_le ?_, fun hk => Real.lt_sqrt_of_sq_lt ?_, fun hk => ?_⟩
  · exact_mod_cast hle.1 hk
  · exact_mod_cast hlt.1 hk
  · have hpos : (0 : ℝ) < k := by exact_mod_cast (by omega : 0 < k)
    exact (Real.sqrt_lt' hpos).2 (by exact_mod_cast not_le.1 (hle.not.1 hk.not_ge))

/-- A square of a number with a factor of more bits than the significand has is no significand scaled by a power
of two. -/
theorem sq_ne_mul_two_pow {odd h sig p : Nat} (hodd : Odd odd) (hsig : 0 < sig) (hlt : sig < odd ^ 2) :
    (odd * h) ^ 2 ≠ sig * 2 ^ p := by
  intro heq
  have hdvd : odd ^ 2 ∣ sig * 2 ^ p := ⟨h ^ 2, by rw [← heq, mul_pow]⟩
  have hcoprime : Nat.Coprime (odd ^ 2) (2 ^ p) := (Nat.coprime_two_right.2 hodd).pow 2 p
  exact hlt.not_ge (Nat.le_of_dvd hsig (hcoprime.dvd_of_dvd_mul_right hdvd))

/-! ### The operand of the root -/

/-- The exponent of a finite value, from 1 on: a subnormal has that of the least normal value. -/
def effectiveExp (a : Word) : Nat := max 1 (expField a).toNat

theorem magUnits_eq_significand (a : Word) : magUnits a = significand a * 2 ^ (effectiveExp a - 1) := by
  rw [magUnits, significand, effectiveExp]
  split
  next h => rw [h, Nat.max_eq_left (by decide), Nat.sub_self, Nat.pow_zero, Nat.mul_one]
  next h => rw [Nat.max_eq_right (Nat.one_le_iff_ne_zero.2 h), Nat.shiftLeft_eq]

theorem significand_lt (a : Word) : significand a < 2 ^ 53 := by
  have := (fracField a).isLt
  rw [significand]
  split <;> omega

theorem effectiveExp_le {a : Word} (h : isfinite a = true) : effectiveExp a ≤ 2046 := by
  rw [isfinite_iff, infMag_eq] at h
  rw [effectiveExp, expField_toNat]
  omega

/-- The scale that makes the root's exponent whole. -/
def radicandShift (a : Word) : Nat := if effectiveExp a % 2 = 1 then 110 else 111

/-- The integer whose root `sqrtMag` takes. -/
def radicand (a : Word) : Nat := significand a * 2 ^ radicandShift a

/-- The exponent of the unit of the integer root. -/
def rootExp (a : Word) : Nat := (effectiveExp a + 961) / 2

theorem sqrtMag_eq (a : Word) : sqrtMag a = roundUnits (stickyRoot (radicand a) * 2 ^ rootExp a) 1 := by
  unfold sqrtMag
  simp only [Nat.shiftLeft_eq]
  rfl

/-- The shift is 110 or 111, whichever makes the exponents of both sides agree. -/
theorem radicandShift_spec (a : Word) : 110 ≤ radicandShift a ∧ radicandShift a ≤ 111 ∧
    radicandShift a + (rootExp a + 1) * 2 = effectiveExp a - 1 + 1074 := by
  have hone : 1 ≤ effectiveExp a := Nat.le_max_left _ _
  rw [radicandShift, rootExp]
  split <;> omega

theorem radicand_lt (a : Word) : radicand a < 2 ^ 164 := by
  have hshift := (radicandShift_spec a).2.1
  calc radicand a < 2 ^ 53 * 2 ^ radicandShift a := Nat.mul_lt_mul_of_pos_right (significand_lt a) (by positivity)
    _ ≤ 2 ^ 53 * 2 ^ 111 := Nat.mul_le_mul_left _ (Nat.pow_le_pow_right Nat.two_pos hshift)

/-- The exact root in terms of the integer's. -/
theorem sqrt_units_eq (a : Word) :
    Real.sqrt ((magUnits a * oneUnits : Nat) : ℝ) = Real.sqrt (radicand a) * 2 ^ (rootExp a + 1) := by
  have hnat : magUnits a * oneUnits = radicand a * (2 ^ (rootExp a + 1)) ^ 2 := by
    rw [magUnits_eq_significand, oneUnits_eq, radicand, Nat.mul_assoc, Nat.mul_assoc, ← Nat.pow_mul,
      ← Nat.pow_add, ← Nat.pow_add, (radicandShift_spec a).2.2]
  rw [hnat, Nat.cast_mul, Real.sqrt_mul (Nat.cast_nonneg _), Nat.cast_pow, Real.sqrt_sq (Nat.cast_nonneg _),
    Nat.cast_pow, Nat.cast_ofNat]

/-! ### Nearest on a grid -/

/-- The value of a word lies on the grid of a binade's spacing, or below the binade. -/
theorem units_grid (c : Word) (u : Nat) : (∃ k : Int, units c = k * 2 ^ u) ∨ units c < 2 ^ 52 * 2 ^ u := by
  rcases unitsOfBits_grid (magBits c) u with ⟨k, hk⟩ | hlow
  · refine .inl ⟨signOf (signBit c) * k, ?_⟩
    rw [units_eq_signOf, magUnits_eq, hk]
    push_cast
    ring
  · refine .inr (Int.le_natAbs.trans_lt ?_)
    rw [natAbs_units, magUnits_eq]
    exact_mod_cast hlow

/-- A grid point less than half the spacing away is the nearest, also of the values below the binade. -/
theorem abs_sub_lt_of_grid {x B v : ℝ} {m : Int} (hB : 0 < B) (hm : 2 ^ 52 ≤ m) (hlo : m * B - B / 2 < x)
    (hhi : x < m * B + B / 2) (hlow : 2 ^ 52 * B ≤ x) (hv : (∃ k : Int, v = k * B) ∨ v < 2 ^ 52 * B)
    (hne : v ≠ m * B) : |x - m * B| < |x - v| := by
  have hhalf : |x - m * B| < B / 2 := abs_lt.2 ⟨by linarith, by linarith⟩
  rcases hv with ⟨k, rfl⟩ | hv
  · rcases lt_or_gt_of_ne fun h : k = m => hne (by rw [h]) with hk | hk
    · have hstep : (k : ℝ) + 1 ≤ m := by exact_mod_cast hk
      exact lt_of_lt_of_le (by nlinarith) (le_abs_self _)
    · have hstep : (m : ℝ) + 1 ≤ k := by exact_mod_cast hk
      exact lt_of_lt_of_le (by nlinarith) (neg_le_abs _)
  · refine lt_of_lt_of_le ?_ (le_abs_self _)
    rcases hm.eq_or_lt with rfl | hm
    · rw [abs_of_nonneg (by push_cast; linarith)]
      push_cast
      linarith
    · have hstep : (2 : ℝ) ^ 52 + 1 ≤ m := by exact_mod_cast hm
      nlinarith

/-! ### The rounding of the sticky root -/

/-- A finite rounding is its significand times the spacing. -/
theorem unitsOfBits_roundUnits {n d : Nat} (hd : 0 < d) (hfin : roundUnits n d < infMag) :
    unitsOfBits (roundUnits n d) = roundedSignificand n d * 2 ^ ulpExponent n d := by
  obtain ⟨hbinade, hmax, -, -⟩ := roundedSignificand_spec n hd
  have hbits : roundUnits n d = ulpExponent n d * 2 ^ 52 + roundedSignificand n d := by
    rw [roundUnits_eq] at hfin ⊢
    omega
  rw [hbits, unitsOfBits_ulp hbinade hmax]

/-- The spacing at an integer of at least 57 bits is at least 16 of its units, and its rounding is a significand
`m` of a whole binade; both sides are said in half units. -/
theorem exists_rounded_significand {S : Nat} (E : Nat) (hS : 2 ^ 56 ≤ S) :
    ∃ w, ulpExponent (S * 2 ^ E) 1 = w + 2 + E ∧ 2 ^ 52 ≤ roundedSignificand (S * 2 ^ E) 1 ∧
      2 * (2 ^ 53 * 2 ^ w) ≤ S ∧ S ≤ 2 * ((2 * roundedSignificand (S * 2 ^ E) 1 + 1) * 2 ^ w) ∧
      2 * ((2 * roundedSignificand (S * 2 ^ E) 1 - 1) * 2 ^ w) ≤ S := by
  have hpos : 0 < 2 ^ E := by positivity
  obtain ⟨hbinade, -, hlow, hhigh⟩ := roundedSignificand_spec (S * 2 ^ E) Nat.one_pos
  have hspacing : E + 3 < ulpExponent (S * 2 ^ E) 1 := by
    have hexp : 56 + E < 53 + ulpExponent (S * 2 ^ E) 1 := by
      rw [← Nat.pow_lt_pow_iff_right Nat.one_lt_two, Nat.pow_add, Nat.pow_add 2 53]
      exact (Nat.mul_le_mul_right _ hS).trans_lt (by rwa [Nat.one_mul] at hhigh)
    omega
  obtain ⟨w, hw⟩ : ∃ w, ulpExponent (S * 2 ^ E) 1 = w + 2 + E := ⟨ulpExponent (S * 2 ^ E) 1 - 2 - E, by omega⟩
  have hD : (1 * 2 ^ ulpExponent (S * 2 ^ E) 1) = 4 * 2 ^ w * 2 ^ E := by rw [hw]; ring
  obtain ⟨⟨hup, hdown⟩, -⟩ := divNearestEven_spec (S * 2 ^ E)
    (d := 1 * 2 ^ ulpExponent (S * 2 ^ E) 1) (by positivity)
  rw [← roundedSignificand] at hup hdown
  have hm := hbinade.resolve_left (by omega)
  replace hlow := hlow.resolve_left (by omega)
  rw [hD] at hup hdown hlow
  refine ⟨w, hw, hm, ?_, ?_, ?_⟩
  all_goals
    refine Nat.le_of_mul_le_mul_right ?_ hpos
    generalize roundedSignificand (S * 2 ^ E) 1 = m at *
  · linarith
  · linarith
  · obtain ⟨j, rfl⟩ : ∃ j, m = j + 1 := ⟨m - 1, by omega⟩
    rw [show 2 * (j + 1) - 1 = 2 * j + 1 by omega]
    linarith

/-! ### The root -/

section
variable {a : Word}

theorem two_pow_le_stickyRoot (hpos : 0 < significand a) : 2 ^ 56 ≤ stickyRoot (radicand a) := by
  refine ((stickyRoot_compare ((radicand_lt a).trans (by norm_num)) (2 ^ 55)).1.2 ?_ :)
  calc (2 ^ 55) ^ 2 = 1 * 2 ^ 110 := by norm_num
    _ ≤ significand a * 2 ^ radicandShift a :=
      Nat.mul_le_mul hpos (Nat.pow_le_pow_right Nat.two_pos (radicandShift_spec a).1)

theorem stickyRoot_lt (a : Word) : stickyRoot (radicand a) < 2 ^ 83 :=
  not_le.1 ((stickyRoot_compare ((radicand_lt a).trans (by norm_num)) (2 ^ 82)).1.not.2
    (not_le.2 ((radicand_lt a).trans_le (by norm_num))))

/-- The root is finite: it has at most half the operand's exponent. -/
theorem sqrtMag_lt_infMag (ha : isfinite a = true) : sqrtMag a < infMag := by
  rw [sqrtMag_eq, roundUnits_lt_infMag_iff_finiteLimit _ Nat.one_pos, Nat.mul_one]
  have hexp : 30 + rootExp a ≤ 2044 := by
    have := effectiveExp_le ha
    rw [rootExp]
    omega
  calc stickyRoot (radicand a) * 2 ^ rootExp a < 2 ^ 83 * 2 ^ rootExp a :=
        Nat.mul_lt_mul_of_pos_right (stickyRoot_lt a) (by positivity)
    _ = 2 ^ 53 * 2 ^ (30 + rootExp a) := by ring
    _ ≤ finiteLimit := two_pow_le_finiteLimit hexp

/-- The sticky root is no midpoint of two neighbouring values: twice such a midpoint is an even number with an odd
factor of at least 53 bits, and the radicand would be its square. -/
theorem stickyRoot_ne_midpoint (hpos : 0 < significand a) {m : Nat} (hm : 2 ^ 53 - 1 ≤ m) (hodd : Odd m)
    (w : Nat) : stickyRoot (radicand a) ≠ 2 * (m * 2 ^ w) := by
  intro heq
  obtain ⟨hle, hlt⟩ := stickyRoot_compare ((radicand_lt a).trans (by norm_num)) (m * 2 ^ w)
  have hsq : (m * 2 ^ w) ^ 2 = radicand a :=
    le_antisymm (hle.1 heq.ge) (not_lt.1 (hlt.not.1 heq.not_gt))
  have hsmall : significand a < m ^ 2 := (significand_lt a).trans_le
    ((by norm_num : 2 ^ 53 ≤ (2 ^ 53 - 1) ^ 2).trans (Nat.pow_le_pow_left hm 2))
  exact sq_ne_mul_two_pow hodd hpos hsmall hsq

/-- The exact root lies in the binade of the rounding, strictly less than half its spacing away. -/
theorem sqrt_near_sqrtMag (hpos : 0 < significand a) :
    let root : ℝ := Real.sqrt ((magUnits a * oneUnits : Nat) : ℝ)
    let m := roundedSignificand (stickyRoot (radicand a) * 2 ^ rootExp a) 1
    let B : ℝ := 2 ^ ulpExponent (stickyRoot (radicand a) * 2 ^ rootExp a) 1
    2 ^ 52 ≤ m ∧ m * B - B / 2 < root ∧ root < m * B + B / 2 ∧ 2 ^ 52 * B ≤ root := by
  intro root m B
  obtain ⟨w, hw, hm, hbinade, hup, hdown⟩ := exists_rounded_significand (rootExp a) (two_pow_le_stickyRoot hpos)
  have hcompare := stickyRoot_compare_sqrt ((radicand_lt a).trans (by norm_num : 2 ^ 164 < 2 ^ 166))
  have hroot : root = Real.sqrt (radicand a) * 2 ^ (rootExp a + 1) := sqrt_units_eq a
  have hB : B = 2 * 2 ^ w * 2 ^ (rootExp a + 1) := by simp only [B, hw]; ring
  have hunit : (0 : ℝ) < 2 ^ (rootExp a + 1) := by positivity
  replace hup := lt_of_le_of_ne hup (stickyRoot_ne_midpoint hpos (by omega) (odd_two_mul_add_one _) w)
  replace hdown := lt_of_le_of_ne hdown
    (stickyRoot_ne_midpoint hpos (m := 2 * m - 1) (by omega) (by exact ⟨m - 1, by omega⟩) w).symm
  have hlow : ((2 ^ 53 * 2 ^ w : Nat) : ℝ) ≤ Real.sqrt (radicand a) := (hcompare _).1 hbinade
  have habove : (((2 * m - 1) * 2 ^ w : Nat) : ℝ) < Real.sqrt (radicand a) := (hcompare _).2.1 hdown
  have hbelow : Real.sqrt (radicand a) < (((2 * m + 1) * 2 ^ w : Nat) : ℝ) := (hcompare _).2.2 hup
  have hsub : ((2 * m - 1 : Nat) : ℝ) = 2 * m - 1 := by
    rw [Nat.cast_sub (by omega)]
    push_cast
    ring
  refine ⟨hm, ?_, ?_, ?_⟩
  · calc m * B - B / 2 = (((2 * m - 1) * 2 ^ w : Nat) : ℝ) * 2 ^ (rootExp a + 1) := by
          rw [hB, Nat.cast_mul, hsub]
          push_cast
          ring
      _ < root := hroot ▸ mul_lt_mul_of_pos_right habove hunit
  · calc root < (((2 * m + 1) * 2 ^ w : Nat) : ℝ) * 2 ^ (rootExp a + 1) :=
          hroot ▸ mul_lt_mul_of_pos_right hbelow hunit
      _ = m * B + B / 2 := by
          rw [hB]
          push_cast
          ring
  · calc 2 ^ 52 * B = ((2 ^ 53 * 2 ^ w : Nat) : ℝ) * 2 ^ (rootExp a + 1) := by
          rw [hB]
          push_cast
          ring
      _ ≤ root := hroot ▸ mul_le_mul_of_nonneg_right hlow hunit.le

/-- The root of a positive value is nearest to the exact root. -/
theorem sqrtMag_nearest (ha : isfinite a = true) (hpos : 0 < significand a) {c : Word}
    (hc : units c ≠ unitsOfBits (sqrtMag a)) :
    |Real.sqrt ((magUnits a * oneUnits : Nat) : ℝ) - unitsOfBits (sqrtMag a)| <
      |Real.sqrt ((magUnits a * oneUnits : Nat) : ℝ) - units c| := by
  have hfin := sqrtMag_lt_infMag ha
  obtain ⟨hm, hlo, hhi, hlow⟩ := sqrt_near_sqrtMag hpos
  have hgrid := units_grid c (ulpExponent (stickyRoot (radicand a) * 2 ^ rootExp a) 1)
  rw [sqrtMag_eq] at hfin hc ⊢
  rw [unitsOfBits_roundUnits Nat.one_pos hfin] at hc ⊢
  generalize roundedSignificand (stickyRoot (radicand a) * 2 ^ rootExp a) 1 = m at *
  generalize ulpExponent (stickyRoot (radicand a) * 2 ^ rootExp a) 1 = u at *
  have hnear := abs_sub_lt_of_grid (m := m) (v := units c) (by positivity) (by exact_mod_cast hm)
    (by exact_mod_cast hlo) (by exact_mod_cast hhi) hlow
    (hgrid.imp (fun ⟨k, hk⟩ => ⟨k, by rw [hk]; push_cast; rfl⟩) fun h => by exact_mod_cast h)
    (fun h => hc (by exact_mod_cast h))
  push_cast at hnear ⊢
  exact hnear

end

theorem fsqrt_of_zero {a : Word} (ha : isfinite a = true) (h : magUnits a = 0) : fsqrt a = a := by
  unfold fsqrt
  simp [not_isNaN_of_isfinite ha, not_isInf_of_isfinite ha, h]

theorem fsqrt_of_pos {a : Word} (ha : isfinite a = true) (h : magUnits a ≠ 0) (hs : signBit a = false) :
    fsqrt a = packSign false (sqrtMag a) := by
  unfold fsqrt
  simp [not_isNaN_of_isfinite ha, not_isInf_of_isfinite ha, h, hs]

/-- Settles O59: a zero is its own root, and the root of a positive value is the sticky root's rounding. -/
theorem squareRootRoundsToNearest : Obligations.SquareRootRoundsToNearest := by
  unfold Obligations.SquareRootRoundsToNearest
  intro a ha hnonneg root r
  rw [units_eq_zero_iff]
  by_cases hzero : magUnits a = 0
  · have hr : r = a := fsqrt_of_zero ha hzero
    have hunits : units r = 0 := by rw [hr, units_eq_zero_iff, hzero]
    have hroot : root = 0 := by simp [root, hzero]
    refine ⟨hr ▸ ha, fun _ => hr, hunits.ge, fun c _ hc => ?_⟩
    rw [hunits] at hc ⊢
    rw [hroot]
    simpa using hc
  · have hsign : signBit a = false := by
      by_contra hs
      rw [Bool.not_eq_false] at hs
      rw [units, if_pos hs] at hnonneg
      omega
    have hpos : 0 < significand a := by
      rw [magUnits_eq_significand] at hzero
      exact Nat.pos_of_ne_zero (left_ne_zero_of_mul hzero)
    have hr : r = packSign false (sqrtMag a) := fsqrt_of_pos ha hzero hsign
    have hmag := sqrtMag_lt_infMag ha
    have hlt : sqrtMag a < 2 ^ 63 := hmag.trans infMag_lt
    have hunits : units r = unitsOfBits (sqrtMag a) := by rw [hr, units_packSign false hlt]; exact one_mul _
    refine ⟨?_, fun h => absurd h hzero, by rw [hunits]; exact Nat.cast_nonneg _, fun c _ hc => ?_⟩
    · rw [isfinite_iff, hr, magBits_packSign false hlt]
      exact hmag
    · rw [hunits] at hc ⊢
      exact sqrtMag_nearest ha hpos hc

end Sys2Proof.Machine
end
